-- ==== Sys2Proof/Word.lean ====
section
/-! DEFINITION. Word.lean: the widths of PSC's values (00_scope.md rules R5, R6). -/

namespace Sys2Proof

/-- A 64-bit pattern: an operand register or a 64-bit unit field. The command that reads it types it as INT or FX
(rule R6); both readings are the two's-complement integer `BitVec.toInt`, an FX value standing for that integer divided
by 2^32. -/
abbrev Word := BitVec 64

/-- A 32-bit command word (rule R70). -/
abbrev Cmd := BitVec 32

/-- The FX pattern of 1.0, as an integer (rule R6). -/
abbrev oneFx : Int := 4294967296

/-- The FX pattern of 0.5, as an integer (rule R6). -/
abbrev halfFx : Int := 2147483648

/-- The least 64-bit integer, -2^63 (rule R8). -/
abbrev minFx : Int := -9223372036854775808

/-- The greatest 64-bit integer, 2^63 - 1 (rule R8). -/
abbrev maxFx : Int := 9223372036854775807

end Sys2Proof
end

