-- ==== Sys2Proof/Syntax.lean ====
section
/-! DEFINITION. Syntax.lean: the 36 commands of 30_encoding.md rule R75 and their operands. Operands stand in the order of
the assembler (rule R82), destination first. -/

namespace Sys2Proof

/-- A register number, 0..15 (30_encoding.md rule R71). -/
abbrev Reg := BitVec 4

/-- Envelope unit number (10_state.md rule R23): `vol` = 0, `menv` = 1. -/
inductive EnvSel where
  | vol
  | menv
deriving DecidableEq, Repr

/-- LFO unit number (10_state.md rule R26): `vib` = 0, `mlfo` = 1. -/
inductive LfoSel where
  | vib
  | mlfo
deriving DecidableEq, Repr

/-- Envelope stages in the order of their codes 0..6 (10_state.md rule R25). Code 7 is never held and has no
constructor (93_implementation_defined.md item I13; log 8). -/
inductive Stage where
  | delay
  | attack
  | hold
  | decay
  | sustain
  | release
  | finished
deriving DecidableEq, Repr

/-- Controller kind (44_modulator.md rule R172): 0 general (SF), 1 MIDI (CC). -/
inductive Kind where
  | sf
  | cc
deriving DecidableEq, Repr

/-- Width of a raw controller value, the `W` bit of `MUPD` (30_encoding.md rule R72): 0 = 7-bit, 1 = 14-bit. -/
inductive RawWidth where
  | w7
  | w14
deriving DecidableEq, Repr

/-- A table of the ROM, the `TBL` sub-field (49_rom_tables.md rule R230): 0 `T_CB`, 1 `T_K`, 2 `T_E`. -/
inductive Table where
  | cb
  | k
  | e
deriving DecidableEq, Repr

/-- The rows of the opcode map (30_encoding.md rule R75). -/
inductive Opcode where
  | nop | cb2r | k2hz | tc2s | ac2hz | joinb | tblrd
  | esetp | esetks | eupd | erel | efin | eget | estg
  | lsetd | lsetf | lupd | lget
  | mcfg | mupd | msum | mget | mmatch | rdacc | geff | rddirty | mrdd
  | li | lif | mov | fadd | fsub | fmul | i2f | f2i | vinit
deriving DecidableEq, Repr

/-- The commands of PSC, one constructor per row of the opcode table. -/
inductive Instr where
  | nop
  | cb2r (rd rs1 : Reg)
  | k2hz (rd rs1 : Reg)
  | tc2s (rd rs1 : Reg)
  | ac2hz (rd rs1 : Reg)
  | joinb (rd rs1 rs2 : Reg)
  | tblrd (rd rs1 : Reg) (tbl : Table)
  | esetp (u : EnvSel) (stg : Stage) (rs1 : Reg)
  | esetks (u : EnvSel) (stg : Stage) (rs1 rs2 rs3 : Reg)
  | eupd (u : EnvSel) (rs1 : Reg)
  | erel (u : EnvSel)
  | efin (u : EnvSel)
  | eget (rd : Reg) (u : EnvSel)
  | estg (rd : Reg) (u : EnvSel)
  | lsetd (u : LfoSel) (rs1 : Reg)
  | lsetf (u : LfoSel) (rs1 : Reg)
  | lupd (u : LfoSel) (rs1 : Reg)
  | lget (rd : Reg) (u : LfoSel)
  | mcfg (slot : BitVec 6) (rs1 : Reg)
  | mupd (kind : Kind) (width : RawWidth) (rs1 rs2 : Reg)
  | msum (gen : BitVec 6)
  | mget (rd : Reg) (slot : BitVec 6)
  | mmatch (kind : Kind) (rd rs1 : Reg) (slot : BitVec 6)
  | rdacc (rd : Reg) (gen : BitVec 6)
  | geff (rd rs1 : Reg) (gen : BitVec 6)
  | rddirty (rd : Reg)
  | mrdd (rd : Reg) (slot : BitVec 6)
  | li (rd : Reg) (imm : BitVec 20)
  | lif (rd : Reg) (imm : BitVec 20)
  | mov (rd rs1 : Reg)
  | fadd (rd rs1 rs2 : Reg)
  | fsub (rd rs1 rs2 : Reg)
  | fmul (rd rs1 rs2 : Reg)
  | i2f (rd rs1 : Reg)
  | f2i (rd rs1 : Reg)
  | vinit
deriving DecidableEq, Repr

/-- Why a command word is illegal: the six cases of 30_encoding.md rule R76, in its order. The machine's response does
not depend on the case (60_exceptions.md rule R242). -/
inductive IllegalCause where
  /-- R76 case 1: the opcode is not in the opcode map. -/
  | unknownOpcode
  /-- R76 case 2: a reserved bit is nonzero. -/
  | reservedBit
  /-- R76 case 3: `U ≥ 2`. -/
  | badUnit
  /-- R76 case 4: `STG` is 6 or 7 in `ESETP`, or not 2 or 3 in `ESETKS`. -/
  | badStage
  /-- R76 case 5: `SLOT ≥ NMOD`. -/
  | badSlot
  /-- R76 case 6: `TBL = 3`. -/
  | badTable
deriving DecidableEq, Repr

end Sys2Proof
end

