-- ==== Sys2Proof/Config.lean ====
section
/-! DEFINITION. Config.lean: what an implementation of PSC fixes (00_scope.md rule R4), and the one value the spec leaves
OPEN, the curve function of 44_modulator.md rule R177. -/

namespace Sys2Proof

/-- `LFO_SHAPE` (00_scope.md rule R4): 0 = SAW, 1 = TRIANGLE. -/
inductive LfoShape where
  | saw
  | triangle
deriving DecidableEq, Repr

/-- Polarity of a modulator input (10_state.md rule R27): 0 unipolar, 1 bipolar. -/
inductive Polarity where
  | unipolar
  | bipolar
deriving DecidableEq, Repr

/-- The two curves whose formula the spec leaves OPEN (44_modulator.md rule R177): curve 1 concave, curve 2 convex. -/
inductive OpenCurve where
  | concave
  | convex
deriving DecidableEq, Repr

/-- The parameters of one PSC instance that `PARAM` shows (00_scope.md rule R4, 10_state.md rule R35). -/
structure Params where
  /-- `NMOD`: number of modulator slots, 1..64. -/
  nmod : Nat
  /-- `KBANDS`: number of octave bands of the key-to-frequency engine, 1..20. -/
  kbands : Nat
  /-- `LFO_SHAPE`. -/
  shape : LfoShape
deriving DecidableEq, Repr

/-- The legal values of the parameters (00_scope.md rule R4). -/
abbrev Params.Legal (p : Params) : Prop :=
  1 ≤ p.nmod ∧ p.nmod ≤ 64 ∧ 1 ≤ p.kbands ∧ p.kbands ≤ 20

/-- The values this spec takes (00_scope.md rule R4). -/
def Params.spec : Params := { nmod := 64, kbands := 12, shape := .saw }

/-- FREE VALUE (44_modulator.md rule R177, 92_eei_decisions.md D51; log 5): the OPEN parameter `CURVE_FN` before the
range property is imposed on it by `Machine.curveFn`. It has no body: nothing can be proved of its values. -/
opaque Config.curveRaw : OpenCurve → Polarity → Word → Word

end Sys2Proof
end

