-- ==== Sys2Proof/WellFormed.lean ====
section
/-! DEFINITION. WellFormed.lean: the range checks of 30_encoding.md rule R76 that a term of `Instr` can fail. Cases 3
and 6 (`U ≥ 2`, `TBL = 3`) and stage code 7 cannot be written as a term; the decoder refuses them. -/

namespace Sys2Proof

/-- Case 5 of rule R76: `SLOT ≥ NMOD`. -/
def slotFault (nmod : Nat) (slot : BitVec 6) : Option IllegalCause :=
  if slot.toNat < nmod then none else some .badSlot

/-- The range check an instruction fails on an instance with `nmod` slots, if it fails one (rule R76 cases 4 and 5). -/
def Instr.rangeFault (nmod : Nat) : Instr → Option IllegalCause
  | .esetp _ stg _ => if stg = .finished then some .badStage else none
  | .esetks _ stg _ _ _ => if stg = .hold ∨ stg = .decay then none else some .badStage
  | .mcfg slot _ => slotFault nmod slot
  | .mget _ slot => slotFault nmod slot
  | .mmatch _ _ _ slot => slotFault nmod slot
  | .mrdd _ slot => slotFault nmod slot
  | .nop => none
  | .cb2r _ _ => none
  | .k2hz _ _ => none
  | .tc2s _ _ => none
  | .ac2hz _ _ => none
  | .joinb _ _ _ => none
  | .tblrd _ _ _ => none
  | .eupd _ _ => none
  | .erel _ => none
  | .efin _ => none
  | .eget _ _ => none
  | .estg _ _ => none
  | .lsetd _ _ => none
  | .lsetf _ _ => none
  | .lupd _ _ => none
  | .lget _ _ => none
  | .mupd _ _ _ _ => none
  | .msum _ => none
  | .rdacc _ _ => none
  | .geff _ _ _ => none
  | .rddirty _ => none
  | .li _ _ => none
  | .lif _ _ => none
  | .mov _ _ => none
  | .fadd _ _ _ => none
  | .fsub _ _ _ => none
  | .fmul _ _ _ => none
  | .i2f _ _ => none
  | .f2i _ _ => none
  | .vinit => none

/-- An instruction is well formed on an instance with `nmod` slots when it passes every range check of rule R76. -/
abbrev Instr.WellFormed (nmod : Nat) (i : Instr) : Prop := i.rangeFault nmod = none

end Sys2Proof
end

