-- ==== Sys2Proof/Decode.lean ====
section
/-! DEFINITION. Decode.lean: command words to instructions, total, rejecting by name (30_encoding.md rules R70 to R80),
then the encoder. -/

namespace Sys2Proof

/-! ### Fields of a command word (rules R70, R72) -/

/-- `op`, bits 31:24. -/
def opOf (w : Cmd) : BitVec 8 := w.extractLsb' 24 8

/-- `rd`, bits 23:20. -/
def rdOf (w : Cmd) : Reg := w.extractLsb' 20 4

/-- `rs1`, bits 19:16. -/
def rs1Of (w : Cmd) : Reg := w.extractLsb' 16 4

/-- `rs2`, bits 15:12. -/
def rs2Of (w : Cmd) : Reg := w.extractLsb' 12 4

/-- `rs3`, bits 11:8. -/
def rs3Of (w : Cmd) : Reg := w.extractLsb' 8 4

/-- `imm8`, bits 7:0. -/
def imm8Of (w : Cmd) : BitVec 8 := w.extractLsb' 0 8

/-- `imm20`, bits 19:0 of a format-I word. -/
def imm20Of (w : Cmd) : BitVec 20 := w.extractLsb' 0 20

/-- `U` and `TBL`, bits 1:0 of `imm8`. -/
def low2Of (b : BitVec 8) : BitVec 2 := b.extractLsb' 0 2

/-- `STG`, bits 6:4 of `imm8`. -/
def stgOf (b : BitVec 8) : BitVec 3 := b.extractLsb' 4 3

/-- `SLOT` and `GEN`, bits 5:0 of `imm8`. -/
def low6Of (b : BitVec 8) : BitVec 6 := b.extractLsb' 0 6

/-! ### Codes of the sub-fields -/

/-- The code of an envelope unit (rule R72). -/
def EnvSel.code : EnvSel → BitVec 2
  | .vol => 0
  | .menv => 1

/-- The envelope unit of a `U` field; `U ≥ 2` is illegal (rule R76 case 3). -/
def EnvSel.ofCode (u : BitVec 2) : Except IllegalCause EnvSel :=
  if u = 0 then .ok .vol else if u = 1 then .ok .menv else .error .badUnit

/-- The code of an LFO unit (rule R72). -/
def LfoSel.code : LfoSel → BitVec 2
  | .vib => 0
  | .mlfo => 1

/-- The LFO unit of a `U` field; `U ≥ 2` is illegal (rule R76 case 3). -/
def LfoSel.ofCode (u : BitVec 2) : Except IllegalCause LfoSel :=
  if u = 0 then .ok .vib else if u = 1 then .ok .mlfo else .error .badUnit

/-- The code of a stage (10_state.md rule R25). -/
def Stage.code : Stage → BitVec 3
  | .delay => 0
  | .attack => 1
  | .hold => 2
  | .decay => 3
  | .sustain => 4
  | .release => 5
  | .finished => 6

/-- The stage of a `STG` field; code 7 is no stage (10_state.md rule R25). -/
def Stage.ofCode (c : BitVec 3) : Except IllegalCause Stage :=
  if c = 0 then .ok .delay
  else if c = 1 then .ok .attack
  else if c = 2 then .ok .hold
  else if c = 3 then .ok .decay
  else if c = 4 then .ok .sustain
  else if c = 5 then .ok .release
  else if c = 6 then .ok .finished
  else .error .badStage

/-- The code of a table (rule R72). -/
def Table.code : Table → BitVec 2
  | .cb => 0
  | .k => 1
  | .e => 2

/-- The table of a `TBL` field; `TBL = 3` is illegal (rule R76 case 6). -/
def Table.ofCode (t : BitVec 2) : Except IllegalCause Table :=
  if t = 0 then .ok .cb else if t = 1 then .ok .k else if t = 2 then .ok .e else .error .badTable

/-- The code of a controller kind (rule R72). -/
def Kind.code : Kind → BitVec 1
  | .sf => 0
  | .cc => 1

/-- The controller kind of a `KIND` bit. -/
def Kind.ofCode (b : BitVec 1) : Kind := if b = 0 then .sf else .cc

/-- The code of a raw-value width (rule R72). -/
def RawWidth.code : RawWidth → BitVec 1
  | .w7 => 0
  | .w14 => 1

/-- The raw-value width of a `W` bit. -/
def RawWidth.ofCode (b : BitVec 1) : RawWidth := if b = 0 then .w7 else .w14

/-! ### The opcode map (rule R75) -/

/-- One row of rule R75: the opcode byte, and for each field whether the command uses it. A field it does not use is
reserved and must be zero (rule R74). For format I only the opcode is fixed. -/
structure OpRow where
  /-- The `op` column. -/
  code : BitVec 8
  /-- Whether the row is of format I (`rd` and `imm20`); otherwise it is of format R. -/
  formatI : Bool
  /-- Whether `rd` is used. -/
  rd : Bool
  /-- Whether `rs1` is used. -/
  rs1 : Bool
  /-- Whether `rs2` is used. -/
  rs2 : Bool
  /-- Whether `rs3` is used. -/
  rs3 : Bool
  /-- The mask of usable bits of `imm8`. -/
  imm8 : BitVec 8
deriving DecidableEq, Repr

/-- A format-R row of rule R75. -/
def rowR (code : BitVec 8) (rd rs1 rs2 rs3 : Bool) (imm8 : BitVec 8) : OpRow :=
  { code := code, formatI := false, rd := rd, rs1 := rs1, rs2 := rs2, rs3 := rs3, imm8 := imm8 }

/-- A format-I row of rule R75. -/
def rowI (code : BitVec 8) : OpRow :=
  { code := code, formatI := true, rd := true, rs1 := true, rs2 := true, rs3 := true, imm8 := 0xFF }

/-- Rule R75, row by row. -/
def Opcode.row : Opcode → OpRow
  | .nop     => rowR 0x00 false false false false 0x00
  | .cb2r    => rowR 0x01 true  true  false false 0x00
  | .k2hz    => rowR 0x02 true  true  false false 0x00
  | .tc2s    => rowR 0x03 true  true  false false 0x00
  | .ac2hz   => rowR 0x04 true  true  false false 0x00
  | .joinb   => rowR 0x05 true  true  true  false 0x00
  | .tblrd   => rowR 0x06 true  true  false false 0x03
  | .esetp   => rowR 0x10 false true  false false 0x73
  | .esetks  => rowR 0x11 false true  true  true  0x73
  | .eupd    => rowR 0x12 false true  false false 0x03
  | .erel    => rowR 0x13 false false false false 0x03
  | .efin    => rowR 0x14 false false false false 0x03
  | .eget    => rowR 0x15 true  false false false 0x03
  | .estg    => rowR 0x16 true  false false false 0x03
  | .lsetd   => rowR 0x20 false true  false false 0x03
  | .lsetf   => rowR 0x21 false true  false false 0x03
  | .lupd    => rowR 0x22 false true  false false 0x03
  | .lget    => rowR 0x23 true  false false false 0x03
  | .mcfg    => rowR 0x30 false true  false false 0x3F
  | .mupd    => rowR 0x31 false true  true  false 0x03
  | .msum    => rowR 0x32 false false false false 0x3F
  | .mget    => rowR 0x33 true  false false false 0x3F
  | .mmatch  => rowR 0x34 true  true  false false 0x7F
  | .rdacc   => rowR 0x35 true  false false false 0x3F
  | .geff    => rowR 0x36 true  true  false false 0x3F
  | .rddirty => rowR 0x37 true  false false false 0x00
  | .mrdd    => rowR 0x38 true  false false false 0x3F
  | .li      => rowI 0x40
  | .lif     => rowI 0x41
  | .mov     => rowR 0x42 true  true  false false 0x00
  | .fadd    => rowR 0x43 true  true  true  false 0x00
  | .fsub    => rowR 0x44 true  true  true  false 0x00
  | .fmul    => rowR 0x45 true  true  true  false 0x00
  | .i2f     => rowR 0x46 true  true  false false 0x00
  | .f2i     => rowR 0x47 true  true  false false 0x00
  | .vinit   => rowR 0x7F false false false false 0x00

/-- The rows of rule R75, in its order. -/
def Opcode.all : List Opcode :=
  [.nop, .cb2r, .k2hz, .tc2s, .ac2hz, .joinb, .tblrd, .esetp, .esetks, .eupd, .erel, .efin, .eget, .estg,
   .lsetd, .lsetf, .lupd, .lget, .mcfg, .mupd, .msum, .mget, .mmatch, .rdacc, .geff, .rddirty, .mrdd,
   .li, .lif, .mov, .fadd, .fsub, .fmul, .i2f, .f2i, .vinit]

/-- The row whose `op` column is the byte, if any (rule R76 case 1). -/
def Opcode.ofByte (b : BitVec 8) : Option Opcode := Opcode.all.find? fun op => op.row.code == b

/-- All ones of a width where the field is used, else zeros. -/
def usedMask (n : Nat) (used : Bool) : BitVec n := if used then BitVec.allOnes n else 0

/-- The `mask` of opcode_table.json: ones at the opcode and at every reserved bit (rule R75). -/
def OpRow.mask (r : OpRow) : Cmd :=
  0xFF#8 ++ ~~~ usedMask 4 r.rd ++ ~~~ usedMask 4 r.rs1 ++ ~~~ usedMask 4 r.rs2 ++ ~~~ usedMask 4 r.rs3 ++ ~~~ r.imm8

/-- The `match` of opcode_table.json: `op << 24` (rule R75). -/
def OpRow.matchWord (r : OpRow) : Cmd := r.code ++ 0#24

/-- Whether every reserved bit of the word is zero (rule R74). -/
def OpRow.reservedClear (r : OpRow) (w : Cmd) : Bool :=
  (r.rd || rdOf w == 0) && (r.rs1 || rs1Of w == 0) && (r.rs2 || rs2Of w == 0) && (r.rs3 || rs3Of w == 0)
    && (imm8Of w &&& ~~~ r.imm8) == 0

/-! ### Decoding (rule R80) -/

/-- The instruction of a word whose opcode is `op`, with the range checks of single sub-fields (rule R76 cases 3 and 6
and stage code 7). -/
def build (op : Opcode) (w : Cmd) : Except IllegalCause Instr :=
  match op with
  | .nop => .ok .nop
  | .cb2r => .ok (.cb2r (rdOf w) (rs1Of w))
  | .k2hz => .ok (.k2hz (rdOf w) (rs1Of w))
  | .tc2s => .ok (.tc2s (rdOf w) (rs1Of w))
  | .ac2hz => .ok (.ac2hz (rdOf w) (rs1Of w))
  | .joinb => .ok (.joinb (rdOf w) (rs1Of w) (rs2Of w))
  | .tblrd => (Table.ofCode (low2Of (imm8Of w))).map fun t => .tblrd (rdOf w) (rs1Of w) t
  | .esetp =>
    (EnvSel.ofCode (low2Of (imm8Of w))).bind fun u =>
      (Stage.ofCode (stgOf (imm8Of w))).map fun st => .esetp u st (rs1Of w)
  | .esetks =>
    (EnvSel.ofCode (low2Of (imm8Of w))).bind fun u =>
      (Stage.ofCode (stgOf (imm8Of w))).map fun st => .esetks u st (rs1Of w) (rs2Of w) (rs3Of w)
  | .eupd => (EnvSel.ofCode (low2Of (imm8Of w))).map fun u => .eupd u (rs1Of w)
  | .erel => (EnvSel.ofCode (low2Of (imm8Of w))).map fun u => .erel u
  | .efin => (EnvSel.ofCode (low2Of (imm8Of w))).map fun u => .efin u
  | .eget => (EnvSel.ofCode (low2Of (imm8Of w))).map fun u => .eget (rdOf w) u
  | .estg => (EnvSel.ofCode (low2Of (imm8Of w))).map fun u => .estg (rdOf w) u
  | .lsetd => (LfoSel.ofCode (low2Of (imm8Of w))).map fun u => .lsetd u (rs1Of w)
  | .lsetf => (LfoSel.ofCode (low2Of (imm8Of w))).map fun u => .lsetf u (rs1Of w)
  | .lupd => (LfoSel.ofCode (low2Of (imm8Of w))).map fun u => .lupd u (rs1Of w)
  | .lget => (LfoSel.ofCode (low2Of (imm8Of w))).map fun u => .lget (rdOf w) u
  | .mcfg => .ok (.mcfg (low6Of (imm8Of w)) (rs1Of w))
  | .mupd =>
    .ok (.mupd (Kind.ofCode ((imm8Of w).extractLsb' 0 1)) (RawWidth.ofCode ((imm8Of w).extractLsb' 1 1))
      (rs1Of w) (rs2Of w))
  | .msum => .ok (.msum (low6Of (imm8Of w)))
  | .mget => .ok (.mget (rdOf w) (low6Of (imm8Of w)))
  | .mmatch =>
    .ok (.mmatch (Kind.ofCode ((imm8Of w).extractLsb' 6 1)) (rdOf w) (rs1Of w) (low6Of (imm8Of w)))
  | .rdacc => .ok (.rdacc (rdOf w) (low6Of (imm8Of w)))
  | .geff => .ok (.geff (rdOf w) (rs1Of w) (low6Of (imm8Of w)))
  | .rddirty => .ok (.rddirty (rdOf w))
  | .mrdd => .ok (.mrdd (rdOf w) (low6Of (imm8Of w)))
  | .li => .ok (.li (rdOf w) (imm20Of w))
  | .lif => .ok (.lif (rdOf w) (imm20Of w))
  | .mov => .ok (.mov (rdOf w) (rs1Of w))
  | .fadd => .ok (.fadd (rdOf w) (rs1Of w) (rs2Of w))
  | .fsub => .ok (.fsub (rdOf w) (rs1Of w) (rs2Of w))
  | .fmul => .ok (.fmul (rdOf w) (rs1Of w) (rs2Of w))
  | .i2f => .ok (.i2f (rdOf w) (rs1Of w))
  | .f2i => .ok (.f2i (rdOf w) (rs1Of w))
  | .vinit => .ok .vinit

/-- An instruction that passes the range checks of rule R76 on an instance with `nmod` slots, or the check it fails. -/
def checkRange (nmod : Nat) (i : Instr) : Except IllegalCause Instr :=
  match i.rangeFault nmod with
  | none => .ok i
  | some c => .error c

/-- Decoding a command word on an instance with `nmod` slots, its checks in the order of rule R80. Every word is one row
of rule R75 or illegal (rule R78). -/
def decode (nmod : Nat) (w : Cmd) : Except IllegalCause Instr :=
  match Opcode.ofByte (opOf w) with
  | none => .error .unknownOpcode
  | some op => if op.row.reservedClear w then (build op w).bind (checkRange nmod) else .error .reservedBit

/-- The instruction this decoder reads from a row of spec/opcode_table.json: a command is one 32-bit word (rule R70) and
has no byte order of its own (20_memory.md rule R53). The instance is the spec's own, with 64 slots (log 4). -/
def decodeTableWord (nbits w : Nat) : Option Instr :=
  (decode Params.spec.nmod (BitVec.ofNat 32 (w % 2 ^ nbits))).toOption

/-! ### Encoding (rules R70, R72, R75) -/

/-- A format-R word (rule R70). -/
def encR (op : BitVec 8) (rd rs1 rs2 rs3 : Reg) (imm8 : BitVec 8) : Cmd := op ++ rd ++ rs1 ++ rs2 ++ rs3 ++ imm8

/-- A format-I word (rule R70). -/
def encI (op : BitVec 8) (rd : Reg) (imm20 : BitVec 20) : Cmd := op ++ rd ++ imm20

/-- `imm8` with a 2-bit sub-field `U` or `TBL` (rule R72). -/
def immLow2 (u : BitVec 2) : BitVec 8 := 0#6 ++ u

/-- `imm8` with `STG` and `U` (rule R72). -/
def immStage (stg : BitVec 3) (u : BitVec 2) : BitVec 8 := 0#1 ++ stg ++ 0#2 ++ u

/-- `imm8` with `SLOT` or `GEN` (rule R72). -/
def immLow6 (x : BitVec 6) : BitVec 8 := 0#2 ++ x

/-- `imm8` of `MUPD`: `W` at bit 1, `KIND` at bit 0 (rule R72). -/
def immMupd (k : BitVec 1) (w : BitVec 1) : BitVec 8 := 0#6 ++ w ++ k

/-- `imm8` of `MMATCH`: `KIND` at bit 6, `SLOT` at bits 5:0 (rule R72). -/
def immMmatch (k : BitVec 1) (slot : BitVec 6) : BitVec 8 := 0#1 ++ k ++ slot

/-- The command word of an instruction (rule R75). It is defined on ill-formed terms too: their words are the illegal
words of rule R76 cases 4 and 5. -/
def encode : Instr → Cmd
  | .nop => encR 0x00 0 0 0 0 0
  | .cb2r rd rs1 => encR 0x01 rd rs1 0 0 0
  | .k2hz rd rs1 => encR 0x02 rd rs1 0 0 0
  | .tc2s rd rs1 => encR 0x03 rd rs1 0 0 0
  | .ac2hz rd rs1 => encR 0x04 rd rs1 0 0 0
  | .joinb rd rs1 rs2 => encR 0x05 rd rs1 rs2 0 0
  | .tblrd rd rs1 t => encR 0x06 rd rs1 0 0 (immLow2 t.code)
  | .esetp u st rs1 => encR 0x10 0 rs1 0 0 (immStage st.code u.code)
  | .esetks u st rs1 rs2 rs3 => encR 0x11 0 rs1 rs2 rs3 (immStage st.code u.code)
  | .eupd u rs1 => encR 0x12 0 rs1 0 0 (immLow2 u.code)
  | .erel u => encR 0x13 0 0 0 0 (immLow2 u.code)
  | .efin u => encR 0x14 0 0 0 0 (immLow2 u.code)
  | .eget rd u => encR 0x15 rd 0 0 0 (immLow2 u.code)
  | .estg rd u => encR 0x16 rd 0 0 0 (immLow2 u.code)
  | .lsetd u rs1 => encR 0x20 0 rs1 0 0 (immLow2 u.code)
  | .lsetf u rs1 => encR 0x21 0 rs1 0 0 (immLow2 u.code)
  | .lupd u rs1 => encR 0x22 0 rs1 0 0 (immLow2 u.code)
  | .lget rd u => encR 0x23 rd 0 0 0 (immLow2 u.code)
  | .mcfg slot rs1 => encR 0x30 0 rs1 0 0 (immLow6 slot)
  | .mupd kind width rs1 rs2 => encR 0x31 0 rs1 rs2 0 (immMupd kind.code width.code)
  | .msum gen => encR 0x32 0 0 0 0 (immLow6 gen)
  | .mget rd slot => encR 0x33 rd 0 0 0 (immLow6 slot)
  | .mmatch kind rd rs1 slot => encR 0x34 rd rs1 0 0 (immMmatch kind.code slot)
  | .rdacc rd gen => encR 0x35 rd 0 0 0 (immLow6 gen)
  | .geff rd rs1 gen => encR 0x36 rd rs1 0 0 (immLow6 gen)
  | .rddirty rd => encR 0x37 rd 0 0 0 0
  | .mrdd rd slot => encR 0x38 rd 0 0 0 (immLow6 slot)
  | .li rd imm => encI 0x40 rd imm
  | .lif rd imm => encI 0x41 rd imm
  | .mov rd rs1 => encR 0x42 rd rs1 0 0 0
  | .fadd rd rs1 rs2 => encR 0x43 rd rs1 rs2 0 0
  | .fsub rd rs1 rs2 => encR 0x44 rd rs1 rs2 0 0
  | .fmul rd rs1 rs2 => encR 0x45 rd rs1 rs2 0 0
  | .i2f rd rs1 => encR 0x46 rd rs1 0 0 0
  | .f2i rd rs1 => encR 0x47 rd rs1 0 0 0
  | .vinit => encR 0x7F 0 0 0 0 0

/-- The row of an instruction. -/
def Instr.opcode : Instr → Opcode
  | .nop => .nop
  | .cb2r _ _ => .cb2r
  | .k2hz _ _ => .k2hz
  | .tc2s _ _ => .tc2s
  | .ac2hz _ _ => .ac2hz
  | .joinb _ _ _ => .joinb
  | .tblrd _ _ _ => .tblrd
  | .esetp _ _ _ => .esetp
  | .esetks _ _ _ _ _ => .esetks
  | .eupd _ _ => .eupd
  | .erel _ => .erel
  | .efin _ => .efin
  | .eget _ _ => .eget
  | .estg _ _ => .estg
  | .lsetd _ _ => .lsetd
  | .lsetf _ _ => .lsetf
  | .lupd _ _ => .lupd
  | .lget _ _ => .lget
  | .mcfg _ _ => .mcfg
  | .mupd _ _ _ _ => .mupd
  | .msum _ => .msum
  | .mget _ _ => .mget
  | .mmatch _ _ _ _ => .mmatch
  | .rdacc _ _ => .rdacc
  | .geff _ _ _ => .geff
  | .rddirty _ => .rddirty
  | .mrdd _ _ => .mrdd
  | .li _ _ => .li
  | .lif _ _ => .lif
  | .mov _ _ => .mov
  | .fadd _ _ _ => .fadd
  | .fsub _ _ _ => .fsub
  | .fmul _ _ _ => .fmul
  | .i2f _ _ => .i2f
  | .f2i _ _ => .f2i
  | .vinit => .vinit

end Sys2Proof
end

