-- ==== Sys2Proof/Machine/State.lean ====
section
/-! DEFINITION. Machine/State.lean: every piece of PSC's state (10_state.md), the host accesses it has still to serve, the
outcomes' reasons, and the state after reset (rule R38). PSC has no data memory (20_memory.md rule R50). -/

namespace Sys2Proof.Machine

/-! ### Envelopes (rules R23 to R25) and LFOs (rule R26) -/

/-- One envelope unit (rule R24). There is no `DUR[4]`. -/
structure Envelope where
  /-- `STG`: the current stage. -/
  stg : Stage
  /-- `T`: seconds spent in the current stage, FX. -/
  t : Word
  /-- `DUR[0]`: Delay duration, FX seconds. -/
  durDelay : Word
  /-- `DUR[1]`: Attack duration, FX seconds. -/
  durAttack : Word
  /-- `DUR[2]`: Hold duration, FX seconds. -/
  durHold : Word
  /-- `DUR[3]`: Decay duration, FX seconds. -/
  durDecay : Word
  /-- `DUR[5]`: Release duration, FX seconds. -/
  durRelease : Word
  /-- `SUS`: sustain level, an FX fraction. -/
  sus : Word
  /-- `RSTART`: release start level, an FX fraction. -/
  rstart : Word
deriving DecidableEq, Repr

/-- The reset value of an envelope unit (rule R38). -/
def Envelope.reset : Envelope :=
  { stg := .delay, t := 0, durDelay := 0, durAttack := 0, durHold := 0, durDecay := 0, durRelease := 0,
    sus := 0, rstart := 0 }

/-- One LFO unit (rule R26). -/
structure Lfo where
  /-- `DLY`: startup delay, FX seconds. -/
  dly : Word
  /-- `FRQ`: frequency, FX Hz. -/
  frq : Word
  /-- `TD`: time elapsed toward the delay, FX seconds. -/
  td : Word
  /-- `RUN`: set once the delay has elapsed. -/
  run : Bool
  /-- `PH`: phase accumulator, U32 fraction of a cycle. -/
  ph : BitVec 32
deriving DecidableEq, Repr

/-- The reset value of an LFO unit (rule R38). -/
def Lfo.reset : Lfo := { dly := 0, frq := 0, td := 0, run := false, ph := 0 }

/-! ### Modulator slots (rules R27, R28) -/

/-- Curve of a modulator input (rule R27): 0 linear, 1 concave, 2 convex, 3 switch. -/
inductive Curve where
  | linear
  | concave
  | convex
  | switch
deriving DecidableEq, Repr

/-- Direction of a modulator input (rule R27): 0 positive (rising), 1 negative (falling). -/
inductive Direction where
  | positive
  | negative
deriving DecidableEq, Repr

/-- The descriptor of one input of a slot, primary (`S`) or amount (`A`) (rule R27). -/
structure SlotInput where
  /-- `PRES`: whether the input is bound to a controller. -/
  pres : Bool
  /-- `KIND`. -/
  kind : Kind
  /-- `IDX`: controller index. -/
  idx : BitVec 7
  /-- `CURVE`. -/
  curve : Curve
  /-- `POL`. -/
  pol : Polarity
  /-- `DIR`. -/
  dir : Direction
deriving DecidableEq, Repr

/-- An input with every field zero (rule R28). -/
def SlotInput.empty : SlotInput :=
  { pres := false, kind := .sf, idx := 0, curve := .linear, pol := .unipolar, dir := .positive }

/-- One modulator slot: descriptor and cached values (rule R27). -/
structure Slot where
  /-- `VALID`: whether the slot holds a modulator. -/
  valid : Bool
  /-- `S`: the primary source. -/
  src : SlotInput
  /-- `A`: the amount source. -/
  amt : SlotInput
  /-- `DEST`: destination generator index. -/
  dest : BitVec 6
  /-- `AMOUNT`: signed scaling amount. -/
  amount : BitVec 16
  /-- `SRCV`: cached primary source value, FX. -/
  srcv : Word
  /-- `AMTV`: cached amount-source value, FX. -/
  amtv : Word
  /-- `CONTRIB`: cached contribution, FX. -/
  contrib : Word
deriving DecidableEq, Repr

/-- The empty slot: `VALID = 0` and every field zero (rule R28). -/
def Slot.empty : Slot :=
  { valid := false, src := .empty, amt := .empty, dest := 0, amount := 0, srcv := 0, amtv := 0, contrib := 0 }

/-! ### What the host does to PSC (20_memory.md rules R54, R60; 70_reset_and_hazards.md rule R260) -/

/-- The width of a host access, in bytes (20_memory.md rules R54, R55). -/
inductive AccessSize where
  | b1
  | b2
  | b4
  | b8
deriving DecidableEq, Repr

/-- One thing the outside does to PSC: a read or a write of the window at a byte offset, or the platform's reset input. A
write's data stands in the low bytes of its word (log 1). -/
inductive HostEvent where
  | read (off : BitVec 8) (size : AccessSize)
  | write (off : BitVec 8) (size : AccessSize) (data : Word)
  | reset
deriving DecidableEq, Repr

/-! ### The machine -/

/-- The state of one PSC (10_state.md), with the parameters of the instance and the host's side of the bus. -/
structure State where
  /-- `f0`..`f15` (rule R20). -/
  regs : Vector Word 16
  /-- `ENV[0]`, the volume envelope (rule R23). -/
  vol : Envelope
  /-- `ENV[1]`, the modulation envelope (rule R23). -/
  menv : Envelope
  /-- `LFO[0]`, vibrato (rule R26). -/
  vib : Lfo
  /-- `LFO[1]`, the modulation LFO (rule R26). -/
  mlfo : Lfo
  /-- `MOD[0]`..`MOD[63]`; those at `NMOD` and above are never loaded (rule R27; log 7). -/
  mods : Vector Slot 64
  /-- `ACC[0]`..`ACC[63]`, FX (rule R29). -/
  acc : Vector Word 64
  /-- `DIRTY` (rule R30). -/
  dirty : BitVec 64
  /-- `STATUS.ILL` (rule R31). -/
  ill : Bool
  /-- `ILLW` (rule R33). -/
  illw : BitVec 32
  /-- `CMDCNT` (rule R34). -/
  cmdcnt : BitVec 32
  /-- The parameters `PARAM` shows; no step changes them (00_scope.md rule R4, rule R35; log 4). -/
  params : Params
  /-- The MODEL's own field: what the last host read returned (log 3). -/
  rdata : Word
  /-- The MODEL's own field: the host's accesses PSC has not served, oldest first (log 1). -/
  bus : List HostEvent
deriving DecidableEq, Repr

/-- PSC never stops with a fault: it "raises no exception-like conditions" but the sticky illegal-command flag, which is a
next state (60_exceptions.md rules R240, R241). No constructor: nothing raises a fault, which is neither safe nor unsafe. -/
inductive Fault where
deriving DecidableEq, Repr

/-- Why exec gives no meaning. -/
inductive Refusal where
  /-- Raised by an arm of `exec` whose instruction has no meaning yet. No arm raises it: every command is modelled. Safe. -/
  | notModelled (mnemonic : String)
deriving DecidableEq, Repr

/-- The state right after reset (rule R38): everything zero; the spec's own parameters (00_scope.md rule R4); nothing
issued by the host (log 1) and nothing read yet (log 3). -/
def State.reset : State :=
  { regs := Vector.replicate 16 0
    vol := .reset
    menv := .reset
    vib := .reset
    mlfo := .reset
    mods := Vector.replicate 64 .empty
    acc := Vector.replicate 64 0
    dirty := 0
    ill := false
    illw := 0
    cmdcnt := 0
    params := .spec
    rdata := 0
    bus := [] }

end Sys2Proof.Machine
end

