-- ==== Sys2Proof/Machine/Operands.lean ====
section
/-! DEFINITION. Machine/Operands.lean: the forms in which a command reads an operand and writes a result: saturation and FX
arithmetic (00_scope.md rules R7 to R9), immediates (30_encoding.md rule R73), masked controller operands
(44_modulator.md rules R176, R182) and the curve function (rule R177). -/

namespace Sys2Proof.Machine

/-- `a << s` on unbounded integers (rule R7). -/
def shl (a : Int) (s : Nat) : Int := a * ((2 ^ s : Nat) : Int)

/-- `a >> s`, floored, on unbounded integers (rule R7). -/
def shr (a : Int) (s : Nat) : Int := a / ((2 ^ s : Nat) : Int)

/-- `clamp(v, lo, hi)` (rule R7). -/
def clamp (v lo hi : Int) : Int := min (max v lo) hi

/-- `sat64(v)` as an integer (rule R8). -/
def satInt (v : Int) : Int := clamp v minFx maxFx

/-- `sat64(v)` as the 64-bit pattern that is written (rule R8). -/
def sat64 (v : Int) : Word := BitVec.ofInt 64 (satInt v)

/-- `fadd(a, b)` (rule R9). -/
def fadd (a b : Int) : Int := satInt (a + b)

/-- `fsub(a, b)` (rule R9). -/
def fsub (a b : Int) : Int := satInt (a - b)

/-- `fmul(a, b)`: the exact product, floored to Q32.32, then saturated (rule R9). -/
def fmul (a b : Int) : Int := satInt (shr (a * b) 32)

/-- `fdivp(t, d)`, used only with `t ≥ 0` and `d > 0` (rule R9). -/
def fdivp (t d : Int) : Int := shl t 32 / d

/-- `I(n)`: the FX value of an integer (rule R9). -/
def fxOfInt (n : Int) : Int := shl n 32

/-- `sext_20(imm20)` as an INT pattern (30_encoding.md rule R73). -/
def immInt (imm : BitVec 20) : Word := imm.signExtend 64

/-- `sext_20(imm20) << 24` as an FX pattern (30_encoding.md rule R73). -/
def immFx (imm : BitVec 20) : Word := imm.signExtend 64 <<< 24

/-- The low 7 bits of an operand: a MIDI byte half (41_conversion.md rule R98), or `f[rs1] mod 128`, a controller index
(44_modulator.md rules R182, R187). -/
def low7 (v : Word) : BitVec 7 := v.extractLsb' 0 7

/-- `N` of rule R176: how many raw values a controller width has. -/
def rawRange : RawWidth → Int
  | .w7 => 128
  | .w14 => 16384

/-- `r <- raw mod N` (rule R176). -/
def rawOf (width : RawWidth) (raw : Int) : Int := raw % rawRange width

/-- The least value a normalised input of a polarity may take (rules R176, R177). -/
def normLow : Polarity → Int
  | .unipolar => 0
  | .bipolar => -oneFx

/-- `CURVE_FN(curve, pol, x)` (rule R177): an arbitrary function with results in `[0, ONE]` for unipolar and `[-ONE, ONE]`
for bipolar. Clamping the opaque `Config.curveRaw` gives every such function and no other (log 5). -/
def curveFn (c : OpenCurve) (pol : Polarity) (x : Int) : Int :=
  clamp (Config.curveRaw c pol (BitVec.ofInt 64 x)).toInt (normLow pol) oneFx

end Sys2Proof.Machine
end

