-- ==== Sys2Proof/Machine/Ops.lean ====
section
/-! DEFINITION. Machine/Ops.lean: the named operations over registers, units, slots and the accumulator, and the one
exception of PSC with its acknowledgement (60_exceptions.md rules R240 to R244). -/

namespace Sys2Proof.Machine

/-! ### Operand registers (10_state.md rule R20) -/

/-- `f[r]` as a pattern. -/
def State.reg (s : State) (r : Reg) : Word := s.regs[r.toNat]'(r.isLt)

/-- `f[r]` read as an INT, or as an FX value times 2^32 (00_scope.md rule R6). -/
def State.regInt (s : State) (r : Reg) : Int := (s.reg r).toInt

/-- `f[r] <- v`. -/
def State.setReg (s : State) (r : Reg) (v : Word) : State := { s with regs := s.regs.set r.toNat v r.isLt }

/-! ### Units -/

/-- `ENV[u]` (10_state.md rule R23). -/
def State.env (s : State) : EnvSel → Envelope
  | .vol => s.vol
  | .menv => s.menv

/-- Replaces `ENV[u]`. -/
def State.setEnv (s : State) : EnvSel → Envelope → State
  | .vol, e => { s with vol := e }
  | .menv, e => { s with menv := e }

/-- `LFO[u]` (10_state.md rule R26). -/
def State.lfo (s : State) : LfoSel → Lfo
  | .vib => s.vib
  | .mlfo => s.mlfo

/-- Replaces `LFO[u]`. -/
def State.setLfo (s : State) : LfoSel → Lfo → State
  | .vib, o => { s with vib := o }
  | .mlfo, o => { s with mlfo := o }

/-! ### Slots and the accumulator -/

/-- `MOD[i]` (10_state.md rule R27). -/
def State.slot (s : State) (i : BitVec 6) : Slot := s.mods[i.toNat]'(i.isLt)

/-- Replaces `MOD[i]`. -/
def State.setSlot (s : State) (i : BitVec 6) (m : Slot) : State := { s with mods := s.mods.set i.toNat m i.isLt }

/-- `ACC[g]` (10_state.md rule R29). -/
def State.accAt (s : State) (g : BitVec 6) : Word := s.acc[g.toNat]'(g.isLt)

/-- Whether `DIRTY[g]` is set (10_state.md rule R30). -/
def State.dirtyAt (s : State) (g : BitVec 6) : Bool := s.dirty.getLsbD g.toNat

/-! ### The exception (60_exceptions.md) -/

/-- `raise IllegalCommand(w)` (rule R241): the first illegal word is kept until `ILL` is cleared; nothing else changes. It
saves no other state and transfers no control (rule R244). -/
def State.raiseIllegal (s : State) (w : Cmd) : State :=
  { s with illw := if s.ill then s.illw else w, ill := true }

/-- The host's acknowledgement of IllegalCommand, its only return: `ILL` is cleared and `ILLW` stays (rule R244). -/
def State.ackIllegal (s : State) : State := { s with ill := false }

/-- The last effect of every command (10_state.md rule R34, 30_encoding.md rule R80). -/
def State.countCmd (s : State) : State := { s with cmdcnt := s.cmdcnt + 1 }

/-! ### Outcomes -/

/-- A command that completes. -/
def done (s : State) : Host.Outcome State Fault Refusal := .next s

/-- A command whose encoding has a range check (30_encoding.md rule R76 cases 4 and 5): with the check failed it is
illegal, as its word would be (rule R80; log 14); with it passed it has its effect. -/
def ifLegal (i : Instr) (s t : State) : Host.Outcome State Fault Refusal :=
  if i.WellFormed s.params.nmod then done t else done (s.raiseIllegal (encode i))

/-! ### The host's side -/

/-- Leaves what a host read returned (20_memory.md rule R54). -/
def State.setRdata (s : State) (v : Word) : State := { s with rdata := v }

/-- The state with the host's remaining accesses. -/
def State.withBus (s : State) (rest : List HostEvent) : State := { s with bus := rest }

end Sys2Proof.Machine
end

