-- ==== Sys2Proof/Machine/Rom.lean ====
section
/-! DEFINITION. Machine/Rom.lean: the table ROM, transcribed from the listings of 49_rom_tables.md (rule R235), and the two
constants held with it (rule R234). The ROM never changes and is no part of State (20_memory.md rule R66). -/

namespace Sys2Proof.Machine

/-! ### `T_CB`, unsigned Q1.32 (rule R231) -/

/-- `T_CB`, words 0 to 63 (rule R235). -/
def tCbFrom0 : List Nat := [
  0x100000000, 0x0FD11D0CC, 0x0FA2C37F0, 0x0F74F1C44, 0x0F47A64E5, 0x0F1ADF93D, 0x0EEE9C0FD, 0x0EC2DA41C,
  0x0E9798AD9, 0x0E6CD5DB7, 0x0E4290580, 0x0E18C6B40, 0x0DEF77847, 0x0DC6A1628, 0x0D9E42EB6, 0x0D765AC08,
  0x0D4EE7873, 0x0D27E7E8B, 0x0D015A924, 0x0CDB3E350, 0x0CB59185E, 0x0C90533DA, 0x0C6B8218C, 0x0C471CD75,
  0x0C23223D4, 0x0BFF91121, 0x0BDC6820B, 0x0BB9A637C, 0x0B974A295, 0x0B7552CAE, 0x0B53BEF57, 0x0B328D855,
  0x0B11BD5A2, 0x0AF14D56E, 0x0AD13C61D, 0x0AB189644, 0x0A92334B0, 0x0A733905C, 0x0A5499876, 0x0A3653C5F,
  0x0A1866BA8, 0x09FAD1610, 0x09DD92B88, 0x09C0A9C2F, 0x09A415854, 0x0987D5072, 0x096BE7532, 0x09504B76B,
  0x093500820, 0x091A0587E, 0x08FF599E1, 0x08E4FBDCD, 0x08CAEB5F1, 0x08B127427, 0x0897AEA72, 0x087E80AFE,
  0x08659C81E, 0x084D01450, 0x0834AE238, 0x081CA249F, 0x0804DCE7A, 0x07ED5D2DE, 0x07D62250B, 0x07BF2B864]

/-- `T_CB`, words 64 to 127 (rule R235). -/
def tCbFrom64 : List Nat := [
  0x07A878071, 0x0792070DF, 0x077BD7D7F, 0x0765E9A45, 0x07503BB4A, 0x073ACD4C8, 0x07259DB1C, 0x0710AC2C6,
  0x06FBF8068, 0x06E7808C3, 0x06D3450BA, 0x06BF44D53, 0x06AB7F3B1, 0x0697F3917, 0x0684A12EA, 0x0671876AC,
  0x065EA59FE, 0x064BFB29F, 0x06398766E, 0x062749B66, 0x06154179F, 0x06036E150, 0x05F1CEECA, 0x05E06367D,
  0x05CF2AEF3, 0x05BE24ED3, 0x05AD50CDF, 0x059CADFF4, 0x058C3BF09, 0x057BFA131, 0x056BE7D99, 0x055C04B86,
  0x054C50259, 0x053CC998B, 0x052D708AE, 0x051E4476C, 0x050F44D89, 0x0500712E1, 0x04F1C8F66, 0x04E34BB23,
  0x04D4F8E3B, 0x04C6D00E7, 0x04B8D0B77, 0x04AAFA651, 0x049D4C9F3, 0x048FC6EEE, 0x048268DEC, 0x047531FAA,
  0x046821CFD, 0x045B37ECB, 0x044E73E14, 0x0441D53E8, 0x04355B96C, 0x0429067DD, 0x041CD5886, 0x0410C84CB,
  0x0404DE61F, 0x03F91760C, 0x03ED72E2B, 0x03E1F082C, 0x03D68FDCE, 0x03CB508E3, 0x03C032352, 0x03B53470F]

/-- `T_CB`, words 128 to 191 (rule R235). -/
def tCbFrom128 : List Nat := [
  0x03AA56E25, 0x039F992AC, 0x0394FAED0, 0x038A7BCCC, 0x03801B6EF, 0x0375D9795, 0x036BB592D, 0x0361AF637,
  0x0357C693F, 0x034DFACE6, 0x03444BBDA, 0x033AB90D8, 0x0331426AF, 0x0327E783B, 0x031EA8067, 0x031583A2E,
  0x030C7A09B, 0x03038AEC4, 0x02FAB5FCF, 0x02F1FAEF3, 0x02E959770, 0x02E0D1497, 0x02D8621C7, 0x02D00BA6B,
  0x02C7CD9FD, 0x02BFA7C02, 0x02B799C0F, 0x02AFA35C3, 0x02A7C44CD, 0x029FFC4E6, 0x02984B1D5, 0x0290B076C,
  0x02892C18B, 0x0281BDC1D, 0x027A65319, 0x027322282, 0x026BF4666, 0x0264DBAE1, 0x025DD7C17, 0x0256E863B,
  0x02500D586, 0x024946642, 0x0242934C0, 0x023BF3D5C, 0x023567C7F, 0x022EEEE9A, 0x02288902A, 0x022235DB6,
  0x021BF53CE, 0x0215C6F0D, 0x020FAAC19, 0x0209A07A0, 0x0203A7E5B, 0x01FDC0D0C, 0x01F7EB07E, 0x01F226586,
  0x01EC72903, 0x01E6CF7DC, 0x01E13CF01, 0x01DBBAB6D, 0x01D648A22, 0x01D0E6829, 0x01CB94299, 0x01C65168C]

/-- `T_CB`, words 192 to 255 (rule R235). -/
def tCbFrom192 : List Nat := [
  0x01C11E127, 0x01BBF9F99, 0x01B6E4F15, 0x01B1DECDB, 0x01ACE762F, 0x01A7FE85F, 0x01A3240C2, 0x019E57CB3,
  0x01999999A, 0x0194E94E1, 0x019046BFE, 0x018BB1C6D, 0x01872A3B0, 0x0182AFF53, 0x017E42CE6, 0x0179E2A03,
  0x01758F449, 0x01714895F, 0x016D0E6F3, 0x0168E0ABA, 0x0164BF26D, 0x0160A9BD1, 0x015CA04AC, 0x0158A2ACE,
  0x0154B0C0B, 0x0150CA641, 0x014CEF750, 0x01491FD22, 0x01455B5A3, 0x0141A1EC9, 0x013DF368E, 0x013A4FAF2,
  0x0136B69FC, 0x0133281B6, 0x012FA4034, 0x012C2A38C, 0x0128BA9DC, 0x012555145, 0x0121F97EF, 0x011EA7C09,
  0x011B5FBC3, 0x011821558, 0x0114EC703, 0x0111C0F07, 0x010E9EBAB, 0x010B85B3C, 0x010875C0C, 0x01056EC70,
  0x010270AC4, 0x00FF7B568, 0x00FC8EAC1, 0x00F9AA938, 0x00F6CEF3C, 0x00F3FBB3F, 0x00F130BB8, 0x00EE6DF24,
  0x00EBB3403, 0x00E9008D9, 0x00E655C30, 0x00E3B2C94, 0x00E117898, 0x00DE83ED1, 0x00DBF7DD8, 0x00D97344D]

/-- `T_CB`, words 256 to 319 (rule R235). -/
def tCbFrom256 : List Nat := [
  0x00D6F60D0, 0x00D480208, 0x00D21169F, 0x00CFA9D43, 0x00CD494A6, 0x00CAEFB7D, 0x00C89D081, 0x00C651270,
  0x00C40C00B, 0x00C1CD816, 0x00BF9595A, 0x00BD642A1, 0x00BB392BB, 0x00B91487A, 0x00B6F62B6, 0x00B4DE047,
  0x00B2CC00A, 0x00B0C00E0, 0x00AEBA1AC, 0x00ACBA155, 0x00AABFEC5, 0x00A8CB8E9, 0x00A6DCEB1, 0x00A4F3F11,
  0x00A310900, 0x00A132B76, 0x009F5A571, 0x009D875F1, 0x009BB9BF6, 0x0099F1688, 0x00982E4AE, 0x009670573,
  0x0094B77E5, 0x009303B15, 0x009154E16, 0x008FAAFFF, 0x008E05FE7, 0x008C65CEB, 0x008ACA629, 0x008933AC1,
  0x0087A19D6, 0x00861428E, 0x00848B411, 0x008306D8B, 0x008186E27, 0x00800B516, 0x007E9418A, 0x007D212B7,
  0x007BB27D3, 0x007A48017, 0x0078E1ABF, 0x00777F708, 0x007621432, 0x0074C717E, 0x007370E31, 0x00721E991,
  0x0070D02E6, 0x006F8597B, 0x006E3EC9C, 0x006CFBB97, 0x006BBC5BE, 0x006A80A63, 0x0069488DA, 0x00681407B]

/-- `T_CB`, words 320 to 383 (rule R235). -/
def tCbFrom320 : List Nat := [
  0x0066E309D, 0x0065B589B, 0x00648B7D1, 0x006364D9E, 0x006241961, 0x006121A7D, 0x006005055, 0x005EEBA4E,
  0x005DD57D0, 0x005CC2844, 0x005BB2B15, 0x005AA5FAE, 0x00599C57E, 0x005895BF5, 0x005792285, 0x00569189F,
  0x005593DBA, 0x00549914A, 0x0053A12C9, 0x0052AC1AF, 0x0051B9D78, 0x0050CA59F, 0x004FDD9A4, 0x004EF3905,
  0x004E0C343, 0x004D277E0, 0x004C45662, 0x004B65E4B, 0x004A88F25, 0x0049AE876, 0x0048D69C7, 0x0048012A4,
  0x00472E299, 0x00465D933, 0x00458F601, 0x0044C3894, 0x0043FA07B, 0x004332D4A, 0x00426DE95, 0x0041AB3F1,
  0x0040EACF4, 0x00402C936, 0x003F7084F, 0x003EB69DA, 0x003DFED71, 0x003D492B0, 0x003C95936, 0x003BE409F,
  0x003B3488D, 0x003A870A0, 0x0039DB87A, 0x003931FBC, 0x00388A60D, 0x0037E4B0F, 0x003740E6B, 0x00369EFC5,
  0x0035FEEC8, 0x003560B1B, 0x0034C4469, 0x003429A5D, 0x003390CA3, 0x0032F9AE8, 0x0032644D9, 0x0031D0A27]

/-- `T_CB`, words 384 to 447 (rule R235). -/
def tCbFrom384 : List Nat := [
  0x00313EA80, 0x0030AE596, 0x00301FB1A, 0x002F92ABE, 0x002F07437, 0x002E7D737, 0x002DF5376, 0x002D6E8A8,
  0x002CE9684, 0x002C65CC2, 0x002BE3B1C, 0x002B63149, 0x002AE3F05, 0x002A6640A, 0x0029EA013, 0x00296F2DF,
  0x0028F5C29, 0x00287DBB0, 0x002807133, 0x002791C71, 0x00271DD2B, 0x0026AB322, 0x002639E17, 0x0025C9DCD,
  0x00255B207, 0x0024EDA8A, 0x002481718, 0x002416779, 0x0023ACB71, 0x0023442C8, 0x0022DCD44, 0x002276AAE,
  0x002211ACE, 0x0021ADD6D, 0x00214B255, 0x0020E9950, 0x00208922A, 0x002029CAE, 0x001FCB8A8, 0x001F6E5E5,
  0x001F12433, 0x001EB735F, 0x001E5D338, 0x001E0438E, 0x001DAC430, 0x001D554ED, 0x001CFF598, 0x001CAA601,
  0x001C565FA, 0x001C03556, 0x001BB13E7, 0x001B60181, 0x001B0FDF8, 0x001AC0920, 0x001A722CE, 0x001A24AD8,
  0x0019D8114, 0x00198C557, 0x00194177A, 0x0018F7752, 0x0018AE4B9, 0x001865F86, 0x00181E792, 0x0017D7CB7]

/-- `T_CB`, words 448 to 511 (rule R235). -/
def tCbFrom448 : List Nat := [
  0x001791ECD, 0x00174CDAF, 0x001708938, 0x0016C5142, 0x0016825A9, 0x001640648, 0x0015FF2FC, 0x0015BEBA1,
  0x00157F015, 0x001540034, 0x001501BDD, 0x0014C42ED, 0x001487544, 0x00144B2C0, 0x00140FB40, 0x0013D4EA5,
  0x00139ACCE, 0x00136159C, 0x0013288EF, 0x0012F06AA, 0x0012B8EAC, 0x0012820D9, 0x00124BD12, 0x00121633A,
  0x0011E1334, 0x0011ACCE3, 0x00117902B, 0x001145CEF, 0x001113314, 0x0010E127E, 0x0010AFB12, 0x00107ECB5,
  0x00104E74D, 0x00101EABF, 0x000FEF6F2, 0x000FC0BCB, 0x000F92932, 0x000F64F0E, 0x000F37D45, 0x000F0B3BF,
  0x000EDF264, 0x000EB391C, 0x000E887CF, 0x000E5DE66, 0x000E33CCA, 0x000E0A2E4, 0x000DE109E, 0x000DB85E0,
  0x000D90295, 0x000D686A8, 0x000D41202, 0x000D1A48E, 0x000CF3E37, 0x000CCDEE9, 0x000CA868E, 0x000C83512,
  0x000C5EA62, 0x000C3A669, 0x000C16913, 0x000BF324E, 0x000BD0205, 0x000BAD826, 0x000B8B49F, 0x000B6975B]

/-- `T_CB`, words 512 to 575 (rule R235). -/
def tCbFrom512 : List Nat := [
  0x000B4804A, 0x000B26F59, 0x000B06476, 0x000AE5F8F, 0x000AC6093, 0x000AA6770, 0x000A87416, 0x000A68673,
  0x000A49E76, 0x000A2BC0F, 0x000A0DF2F, 0x0009F07C3, 0x0009D35BD, 0x0009B690D, 0x00099A1A2, 0x00097DF6E,
  0x000962262, 0x000946A6D, 0x00092B782, 0x000910991, 0x0008F608D, 0x0008DBC65, 0x0008C1D0D, 0x0008A8276,
  0x00088EC93, 0x000875B54, 0x00085CEAE, 0x000844692, 0x00082C2F2, 0x0008143C3, 0x0007FC8F7, 0x0007E5280,
  0x0007CE053, 0x0007B7263, 0x0007A08A3, 0x00078A308, 0x000774184, 0x00075E40C, 0x000748A94, 0x000733510,
  0x00071E376, 0x0007095B8, 0x0006F4BCD, 0x0006E05A8, 0x0006CC33F, 0x0006B8487, 0x0006A4975, 0x0006911FF,
  0x00067DE18, 0x00066ADB9, 0x0006580D5, 0x000645763, 0x000633158, 0x000620EAB, 0x00060EF52, 0x0005FD343,
  0x0005EBA75, 0x0005DA4DD, 0x0005C9273, 0x0005B832C, 0x0005A7701, 0x000596DE8, 0x0005867D7, 0x0005764C7]

/-- `T_CB`, words 576 to 639 (rule R235). -/
def tCbFrom576 : List Nat := [
  0x0005664AE, 0x000556783, 0x000546D3E, 0x0005375D6, 0x000528143, 0x000518F7E, 0x00050A07C, 0x0004FB437,
  0x0004ECAA6, 0x0004DE3C2, 0x0004CFF83, 0x0004C1DE0, 0x0004B3ED2, 0x0004A6252, 0x000498859, 0x00048B0DE,
  0x00047DBDA, 0x000470947, 0x00046391C, 0x000456B54, 0x000449FE7, 0x00043D6CE, 0x000431002, 0x000424B7D,
  0x000418937, 0x00040C92B, 0x000400B52, 0x0003F4FA5, 0x0003E961E, 0x0003DDEB7, 0x0003D2969, 0x0003C762E,
  0x0003BC501, 0x0003B15DB, 0x0003A68B6, 0x00039BD8C, 0x000391458, 0x000386D14, 0x00037C7BA, 0x000372445,
  0x0003682AE, 0x00035E2F1, 0x000354508, 0x00034A8EE, 0x000340E9E, 0x000337611, 0x00032DF44, 0x000324A31,
  0x00031B6D2, 0x000312523, 0x00030951F, 0x0003006C1, 0x0002F7A05, 0x0002EEEE5, 0x0002E655C, 0x0002DDD66,
  0x0002D56FF, 0x0002CD222, 0x0002C4ECA, 0x0002BCCF3, 0x0002B4C99, 0x0002ACDB6, 0x0002A5048, 0x00029D449]

/-- `T_CB`, words 640 to 703 (rule R235). -/
def tCbFrom640 : List Nat := [
  0x0002959B5, 0x00028E089, 0x0002868BF, 0x00027F255, 0x000277D46, 0x00027098D, 0x000269728, 0x000262612,
  0x00025B648, 0x0002547C5, 0x00024DA86, 0x000246E87, 0x0002403C4, 0x000239A3A, 0x0002331E6, 0x00022CAC3,
  0x0002264CF, 0x000220005, 0x000219C63, 0x0002139E5, 0x00020D887, 0x000207846, 0x000201920, 0x0001FBB10,
  0x0001F5E15, 0x0001F0229, 0x0001EA74B, 0x0001E4D77, 0x0001DF4AB, 0x0001D9CE3, 0x0001D461B, 0x0001CF053,
  0x0001C9B85, 0x0001C47B0, 0x0001BF4D1, 0x0001BA2E5, 0x0001B51E8, 0x0001B01D9, 0x0001AB2B5, 0x0001A6478,
  0x0001A1721, 0x00019CAAD, 0x000197F18, 0x000193461, 0x00018EA85, 0x00018A181, 0x000185954, 0x0001811F9,
  0x00017CB70, 0x0001785B6, 0x0001740C8, 0x00016FCA4, 0x00016B947, 0x0001676B0, 0x0001634DD, 0x00015F3CA,
  0x00015B375, 0x0001573DE, 0x000153500, 0x00014F6DB, 0x00014B96C, 0x000147CB1, 0x0001440A8, 0x00014054F]

/-- `T_CB`, words 704 to 767 (rule R235). -/
def tCbFrom704 : List Nat := [
  0x00013CAA3, 0x0001390A4, 0x00013574F, 0x000131EA1, 0x00012E69A, 0x00012AF37, 0x000127876, 0x000124256,
  0x000120CD4, 0x00011D7EF, 0x00011A3A5, 0x000116FF5, 0x000113CDC, 0x000110A58, 0x00010D869, 0x00010A70B,
  0x00010763F, 0x000104602, 0x000101651, 0x0000FE72D, 0x0000FB893, 0x0000F8A81, 0x0000F5CF7, 0x0000F2FF1,
  0x0000F0370, 0x0000ED771, 0x0000EABF3, 0x0000E80F5, 0x0000E5674, 0x0000E2C71, 0x0000E02E8, 0x0000DD9D9,
  0x0000DB142, 0x0000D8922, 0x0000D6178, 0x0000D3A42, 0x0000D137F, 0x0000CED2D, 0x0000CC74C, 0x0000CA1DA,
  0x0000C7CD5, 0x0000C583D, 0x0000C3410, 0x0000C104E, 0x0000BECF4, 0x0000BCA01, 0x0000BA775, 0x0000B854E,
  0x0000B638C, 0x0000B422C, 0x0000B212E, 0x0000B0091, 0x0000AE053, 0x0000AC074, 0x0000AA0F2, 0x0000A81CD,
  0x0000A6302, 0x0000A4492, 0x0000A267C, 0x0000A08BD, 0x00009EB56, 0x00009CE44, 0x00009B188, 0x000099520]

/-- `T_CB`, words 768 to 831 (rule R235). -/
def tCbFrom768 : List Nat := [
  0x00009790C, 0x000095D49, 0x0000941D8, 0x0000926B8, 0x000090BE7, 0x00008F164, 0x00008D72F, 0x00008BD47,
  0x00008A3AB, 0x000088A5A, 0x000087153, 0x000085895, 0x000084020, 0x0000827F3, 0x00008100C, 0x00007F86C,
  0x00007E111, 0x00007C9FA, 0x00007B327, 0x000079C96, 0x000078648, 0x00007703B, 0x000075A6F, 0x0000744E3,
  0x000072F96, 0x000071A87, 0x0000705B6, 0x00006F122, 0x00006DCCA, 0x00006C8AE, 0x00006B4CD, 0x00006A126,
  0x000068DB9, 0x000067A84, 0x000066788, 0x0000654C4, 0x000064236, 0x000062FDF, 0x000061DBE, 0x000060BD1,
  0x00005FA1A, 0x00005E896, 0x00005D745, 0x00005C628, 0x00005B53C, 0x00005A482, 0x0000593F9, 0x0000583A0,
  0x000057378, 0x00005637F, 0x0000553B4, 0x000054418, 0x0000534A9, 0x000052568, 0x000051654, 0x00005076B,
  0x00004F8AF, 0x00004EA1D, 0x00004DBB6, 0x00004CD7A, 0x00004BF67, 0x00004B17D, 0x00004A3BC, 0x000049624]

/-- `T_CB`, words 832 to 895 (rule R235). -/
def tCbFrom832 : List Nat := [
  0x0000488B3, 0x000047B6A, 0x000046E47, 0x00004614C, 0x000045476, 0x0000447C5, 0x000043B3A, 0x000042ED4,
  0x000042292, 0x000041674, 0x000040A7A, 0x00003FEA2, 0x00003F2ED, 0x00003E75B, 0x00003DBEA, 0x00003D09B,
  0x00003C56E, 0x00003BA60, 0x00003AF74, 0x00003A4A7, 0x0000399FA, 0x000038F6C, 0x0000384FD, 0x000037AAD,
  0x00003707B, 0x000036667, 0x000035C70, 0x000035297, 0x0000348DA, 0x000033F3A, 0x0000335B6, 0x000032C4E,
  0x000032302, 0x0000319D1, 0x0000310BB, 0x0000307BF, 0x00002FEDE, 0x00002F617, 0x00002ED69, 0x00002E4D5,
  0x00002DC5A, 0x00002D3F8, 0x00002CBAF, 0x00002C37D, 0x00002BB64, 0x00002B363, 0x00002AB78, 0x00002A3A6,
  0x000029BEA, 0x000029444, 0x000028CB6, 0x00002853D, 0x000027DDA, 0x00002768D, 0x000026F55, 0x000026833,
  0x000026125, 0x000025A2C, 0x000025347, 0x000024C77, 0x0000245BA, 0x000023F12, 0x00002387C, 0x0000231FB]

/-- `T_CB`, words 896 to 959 (rule R235). -/
def tCbFrom896 : List Nat := [
  0x000022B8C, 0x000022530, 0x000021EE6, 0x0000218AF, 0x00002128B, 0x000020C78, 0x000020677, 0x000020088,
  0x00001FAAA, 0x00001F4DD, 0x00001EF21, 0x00001E977, 0x00001E3DC, 0x00001DE52, 0x00001D8D9, 0x00001D36F,
  0x00001CE15, 0x00001C8CB, 0x00001C391, 0x00001BE65, 0x00001B949, 0x00001B43C, 0x00001AF3E, 0x00001AA4E,
  0x00001A56D, 0x00001A09A, 0x000019BD5, 0x00001971E, 0x000019275, 0x000018DDA, 0x00001894C, 0x0000184CB,
  0x000018058, 0x000017BF2, 0x000017798, 0x00001734C, 0x000016F0C, 0x000016AD8, 0x0000166B1, 0x000016296,
  0x000015E87, 0x000015A83, 0x00001568C, 0x0000152A0, 0x000014EC0, 0x000014AEB, 0x000014721, 0x000014363,
  0x000013FAF, 0x000013C06, 0x000013868, 0x0000134D5, 0x00001314C, 0x000012DCD, 0x000012A59, 0x0000126EE,
  0x00001238E, 0x000012038, 0x000011CEB, 0x0000119A8, 0x00001166F, 0x00001133F, 0x000011018, 0x000010CFB]

/-- `T_CB`, words 960 to 1023 (rule R235). -/
def tCbFrom960 : List Nat := [
  0x0000109E7, 0x0000106DB, 0x0000103D9, 0x0000100E0, 0x00000FDEF, 0x00000FB07, 0x00000F827, 0x00000F550,
  0x00000F281, 0x00000EFBB, 0x00000ECFC, 0x00000EA46, 0x00000E797, 0x00000E4F0, 0x00000E252, 0x00000DFBA,
  0x00000DD2B, 0x00000DAA3, 0x00000D822, 0x00000D5A9, 0x00000D336, 0x00000D0CB, 0x00000CE68, 0x00000CC0B,
  0x00000C9B5, 0x00000C766, 0x00000C51D, 0x00000C2DC, 0x00000C0A1, 0x00000BE6C, 0x00000BC3E, 0x00000BA17,
  0x00000B7F5, 0x00000B5DA, 0x00000B3C5, 0x00000B1B7, 0x00000AFAE, 0x00000ADAB, 0x00000ABAE, 0x00000A9B7,
  0x00000A7C6, 0x00000A5DA, 0x00000A3F4, 0x00000A214, 0x00000A039, 0x000009E63, 0x000009C93, 0x000009AC8,
  0x000009903, 0x000009742, 0x000009587, 0x0000093D1, 0x000009220, 0x000009073, 0x000008ECC, 0x000008D2A,
  0x000008B8C, 0x0000089F3, 0x00000885F, 0x0000086CF, 0x000008544, 0x0000083BE, 0x00000823C, 0x0000080BE]

/-- `T_CB`, words 1024 to 1087 (rule R235). -/
def tCbFrom1024 : List Nat := [
  0x000007F45, 0x000007DD0, 0x000007C5F, 0x000007AF3, 0x00000798A, 0x000007826, 0x0000076C6, 0x00000756A,
  0x000007412, 0x0000072BE, 0x00000716E, 0x000007021, 0x000006ED9, 0x000006D94, 0x000006C53, 0x000006B15,
  0x0000069DB, 0x0000068A5, 0x000006773, 0x000006643, 0x000006518, 0x0000063EF, 0x0000062CB, 0x0000061A9,
  0x00000608B, 0x000005F70, 0x000005E58, 0x000005D44, 0x000005C33, 0x000005B24, 0x000005A19, 0x000005911,
  0x00000580C, 0x00000570A, 0x00000560B, 0x00000550F, 0x000005416, 0x00000531F, 0x00000522C, 0x00000513B,
  0x00000504D, 0x000004F62, 0x000004E79, 0x000004D93, 0x000004CB0, 0x000004BCF, 0x000004AF1, 0x000004A15,
  0x00000493C, 0x000004866, 0x000004791, 0x0000046C0, 0x0000045F0, 0x000004523, 0x000004459, 0x000004391,
  0x0000042CB, 0x000004207, 0x000004145, 0x000004086, 0x000003FC9, 0x000003F0E, 0x000003E55, 0x000003D9F]

/-- `T_CB`, words 1088 to 1151 (rule R235). -/
def tCbFrom1088 : List Nat := [
  0x000003CEA, 0x000003C38, 0x000003B87, 0x000003AD9, 0x000003A2C, 0x000003982, 0x0000038D9, 0x000003833,
  0x00000378E, 0x0000036EB, 0x00000364A, 0x0000035AB, 0x00000350E, 0x000003472, 0x0000033D9, 0x000003341,
  0x0000032AB, 0x000003216, 0x000003183, 0x0000030F2, 0x000003063, 0x000002FD5, 0x000002F49, 0x000002EBE,
  0x000002E35, 0x000002DAE, 0x000002D28, 0x000002CA4, 0x000002C21, 0x000002BA0, 0x000002B20, 0x000002AA1,
  0x000002A24, 0x0000029A9, 0x00000292F, 0x0000028B6, 0x00000283F, 0x0000027C9, 0x000002754, 0x0000026E1,
  0x00000266F, 0x0000025FF, 0x00000258F, 0x000002521, 0x0000024B4, 0x000002449, 0x0000023DE, 0x000002375,
  0x00000230D, 0x0000022A7, 0x000002241, 0x0000021DD, 0x00000217A, 0x000002117, 0x0000020B7, 0x000002057,
  0x000001FF8, 0x000001F9A, 0x000001F3E, 0x000001EE2, 0x000001E88, 0x000001E2E, 0x000001DD6, 0x000001D7E]

/-- `T_CB`, words 1152 to 1215 (rule R235). -/
def tCbFrom1152 : List Nat := [
  0x000001D28, 0x000001CD2, 0x000001C7E, 0x000001C2A, 0x000001BD8, 0x000001B86, 0x000001B36, 0x000001AE6,
  0x000001A97, 0x000001A49, 0x0000019FC, 0x0000019B0, 0x000001965, 0x00000191A, 0x0000018D1, 0x000001888,
  0x000001840, 0x0000017F9, 0x0000017B3, 0x00000176D, 0x000001729, 0x0000016E5, 0x0000016A2, 0x00000165F,
  0x00000161E, 0x0000015DD, 0x00000159D, 0x00000155E, 0x00000151F, 0x0000014E1, 0x0000014A4, 0x000001467,
  0x00000142C, 0x0000013F1, 0x0000013B6, 0x00000137C, 0x000001343, 0x00000130B, 0x0000012D3, 0x00000129C,
  0x000001265, 0x00000122F, 0x0000011FA, 0x0000011C5, 0x000001191, 0x00000115E, 0x00000112B, 0x0000010F9,
  0x0000010C7, 0x000001096, 0x000001065, 0x000001035, 0x000001006, 0x000000FD7, 0x000000FA8, 0x000000F7A,
  0x000000F4D, 0x000000F20, 0x000000EF4, 0x000000EC8, 0x000000E9D, 0x000000E72, 0x000000E48, 0x000000E1E]

/-- `T_CB`, words 1216 to 1279 (rule R235). -/
def tCbFrom1216 : List Nat := [
  0x000000DF4, 0x000000DCC, 0x000000DA3, 0x000000D7B, 0x000000D54, 0x000000D2D, 0x000000D06, 0x000000CE0,
  0x000000CBA, 0x000000C95, 0x000000C70, 0x000000C4B, 0x000000C27, 0x000000C04, 0x000000BE1, 0x000000BBE,
  0x000000B9B, 0x000000B79, 0x000000B58, 0x000000B37, 0x000000B16, 0x000000AF5, 0x000000AD5, 0x000000AB5,
  0x000000A96, 0x000000A77, 0x000000A58, 0x000000A3A, 0x000000A1C, 0x0000009FE, 0x0000009E1, 0x0000009C4,
  0x0000009A7, 0x00000098B, 0x00000096F, 0x000000954, 0x000000938, 0x00000091D, 0x000000903, 0x0000008E8,
  0x0000008CE, 0x0000008B4, 0x00000089B, 0x000000882, 0x000000869, 0x000000850, 0x000000838, 0x000000820,
  0x000000808, 0x0000007F0, 0x0000007D9, 0x0000007C2, 0x0000007AB, 0x000000795, 0x00000077E, 0x000000769,
  0x000000753, 0x00000073D, 0x000000728, 0x000000713, 0x0000006FE, 0x0000006EA, 0x0000006D6, 0x0000006C2]

/-- `T_CB`, words 1280 to 1343 (rule R235). -/
def tCbFrom1280 : List Nat := [
  0x0000006AE, 0x00000069A, 0x000000687, 0x000000674, 0x000000661, 0x00000064E, 0x00000063C, 0x000000629,
  0x000000617, 0x000000606, 0x0000005F4, 0x0000005E2, 0x0000005D1, 0x0000005C0, 0x0000005AF, 0x00000059F,
  0x00000058E, 0x00000057E, 0x00000056E, 0x00000055E, 0x00000054E, 0x00000053F, 0x00000052F, 0x000000520,
  0x000000511, 0x000000502, 0x0000004F4, 0x0000004E5, 0x0000004D7, 0x0000004C9, 0x0000004BA, 0x0000004AD,
  0x00000049F, 0x000000491, 0x000000484, 0x000000477, 0x00000046A, 0x00000045D, 0x000000450, 0x000000443,
  0x000000437, 0x00000042A, 0x00000041E, 0x000000412, 0x000000406, 0x0000003FA, 0x0000003EF, 0x0000003E3,
  0x0000003D8, 0x0000003CD, 0x0000003C2, 0x0000003B7, 0x0000003AC, 0x0000003A1, 0x000000396, 0x00000038C,
  0x000000381, 0x000000377, 0x00000036D, 0x000000363, 0x000000359, 0x00000034F, 0x000000345, 0x00000033C]

/-- `T_CB`, words 1344 to 1407 (rule R235). -/
def tCbFrom1344 : List Nat := [
  0x000000332, 0x000000329, 0x000000320, 0x000000317, 0x00000030E, 0x000000305, 0x0000002FC, 0x0000002F3,
  0x0000002EA, 0x0000002E2, 0x0000002D9, 0x0000002D1, 0x0000002C9, 0x0000002C1, 0x0000002B9, 0x0000002B1,
  0x0000002A9, 0x0000002A1, 0x000000299, 0x000000292, 0x00000028A, 0x000000283, 0x00000027B, 0x000000274,
  0x00000026D, 0x000000266, 0x00000025F, 0x000000258, 0x000000251, 0x00000024A, 0x000000243, 0x00000023D,
  0x000000236, 0x000000230, 0x000000229, 0x000000223, 0x00000021D, 0x000000217, 0x000000210, 0x00000020A,
  0x000000204, 0x0000001FE, 0x0000001F9, 0x0000001F3, 0x0000001ED, 0x0000001E7, 0x0000001E2, 0x0000001DC,
  0x0000001D7, 0x0000001D2, 0x0000001CC, 0x0000001C7, 0x0000001C2, 0x0000001BD, 0x0000001B8, 0x0000001B2,
  0x0000001AD, 0x0000001A9, 0x0000001A4, 0x00000019F, 0x00000019A, 0x000000195, 0x000000191, 0x00000018C]

/-- `T_CB`, words 1408 to 1440 (rule R235). -/
def tCbFrom1408 : List Nat := [
  0x000000188, 0x000000183, 0x00000017F, 0x00000017A, 0x000000176, 0x000000172, 0x00000016E, 0x000000169,
  0x000000165, 0x000000161, 0x00000015D, 0x000000159, 0x000000155, 0x000000151, 0x00000014D, 0x00000014A,
  0x000000146, 0x000000142, 0x00000013E, 0x00000013B, 0x000000137, 0x000000134, 0x000000130, 0x00000012D,
  0x000000129, 0x000000126, 0x000000122, 0x00000011F, 0x00000011C, 0x000000119, 0x000000115, 0x000000112,
  0x00000010F]

/-! ### `T_K`, unsigned Q4.32 (rule R232) -/

/-- `T_K`, words 0 to 63 (rule R235). -/
def tKFrom0 : List Nat := [
  0x06E0000000, 0x06E104542F, 0x06E208CEDF, 0x06E30D7017, 0x06E41237DC, 0x06E5172633, 0x06E61C3B23, 0x06E72176B1,
  0x06E826D8E3, 0x06E92C61BF, 0x06EA321149, 0x06EB37E789, 0x06EC3DE484, 0x06ED44083F, 0x06EE4A52C0, 0x06EF50C40D,
  0x06F0575C2B, 0x06F15E1B21, 0x06F26500F4, 0x06F36C0DAA, 0x06F4734149, 0x06F57A9BD6, 0x06F6821D58, 0x06F789C5D3,
  0x06F891954E, 0x06F9998BCE, 0x06FAA1A959, 0x06FBA9EDF6, 0x06FCB259A9, 0x06FDBAEC79, 0x06FEC3A66B, 0x06FFCC8786,
  0x0700D58FCE, 0x0701DEBF4A, 0x0702E815FF, 0x0703F193F4, 0x0704FB392E, 0x07060505B3, 0x07070EF989, 0x07081914B5,
  0x070923573D, 0x070A2DC128, 0x070B38527B, 0x070C430B3B, 0x070D4DEB70, 0x070E58F31E, 0x070F64224B, 0x07106F78FD,
  0x07117AF73B, 0x0712869D09, 0x0713926A6E, 0x07149E5F70, 0x0715AA7C14, 0x0716B6C060, 0x0717C32C5B, 0x0718CFC00A,
  0x0719DC7B73, 0x071AE95E9B, 0x071BF66989, 0x071D039C43, 0x071E10F6CE, 0x071F1E7931, 0x07202C2371, 0x072139F594]

/-- `T_K`, words 64 to 127 (rule R235). -/
def tKFrom64 : List Nat := [
  0x072247EFA0, 0x072356119B, 0x0724645B8A, 0x072572CD75, 0x0726816760, 0x0727902952, 0x07289F1350, 0x0729AE2561,
  0x072ABD5F8A, 0x072BCCC1D2, 0x072CDC4C3D, 0x072DEBFED3, 0x072EFBD999, 0x07300BDC95, 0x07311C07CD, 0x07322C5B47,
  0x07333CD709, 0x07344D7B18, 0x07355E477C, 0x07366F3C39, 0x0737805956, 0x0738919ED9, 0x0739A30CC8, 0x073AB4A328,
  0x073BC66200, 0x073CD84955, 0x073DEA592E, 0x073EFC9191, 0x07400EF283, 0x0741217C0B, 0x0742342E2F, 0x07434708F4,
  0x07445A0C61, 0x07456D387C, 0x0746808D4A, 0x0747940AD2, 0x0748A7B119, 0x0749BB8027, 0x074ACF7800, 0x074BE398AB,
  0x074CF7E22E, 0x074E0C548F, 0x074F20EFD3, 0x075035B402, 0x07514AA121, 0x07525FB736, 0x075374F647, 0x07548A5E5A,
  0x07559FEF75, 0x0756B5A99F, 0x0757CB8CDD, 0x0758E19936, 0x0759F7CEAF, 0x075B0E2D4F, 0x075C24B51C, 0x075D3B661B,
  0x075E524054, 0x075F6943CB, 0x0760807088, 0x076197C690, 0x0762AF45E9, 0x0763C6EE9A, 0x0764DEC0A8, 0x0765F6BC1A]

/-- `T_K`, words 128 to 191 (rule R235). -/
def tKFrom128 : List Nat := [
  0x07670EE0F6, 0x0768272F41, 0x07693FA703, 0x076A584841, 0x076B711301, 0x076C8A074A, 0x076DA32521, 0x076EBC6C8E,
  0x076FD5DD95, 0x0770EF783D, 0x0772093C8C, 0x0773232A89, 0x07743D4239, 0x07755783A3, 0x077671EECD, 0x07778C83BD,
  0x0778A74279, 0x0779C22B08, 0x077ADD3D6F, 0x077BF879B5, 0x077D13DFE0, 0x077E2F6FF6, 0x077F4B29FE, 0x0780670DFD,
  0x0781831BFA, 0x07829F53FB, 0x0783BBB606, 0x0784D84222, 0x0785F4F855, 0x078711D8A4, 0x07882EE316, 0x07894C17B2,
  0x078A69767D, 0x078B86FF7F, 0x078CA4B2BC, 0x078DC2903C, 0x078EE09804, 0x078FFECA1B, 0x07911D2687, 0x07923BAD4E,
  0x07935A5E77, 0x0794793A08, 0x0795984007, 0x0796B7707B, 0x0797D6CB69, 0x0798F650D9, 0x079A1600CF, 0x079B35DB53,
  0x079C55E06B, 0x079D76101D, 0x079E966A70, 0x079FB6EF69, 0x07A0D79F10, 0x07A1F8796A, 0x07A3197E7D, 0x07A43AAE51,
  0x07A55C08EB, 0x07A67D8E51, 0x07A79F3E8B, 0x07A8C1199E, 0x07A9E31F91, 0x07AB055069, 0x07AC27AC2E, 0x07AD4A32E6]

/-- `T_K`, words 192 to 255 (rule R235). -/
def tKFrom192 : List Nat := [
  0x07AE6CE497, 0x07AF8FC147, 0x07B0B2C8FD, 0x07B1D5FBC0, 0x07B2F95994, 0x07B41CE282, 0x07B540968F, 0x07B66475C1,
  0x07B7888020, 0x07B8ACB5B1, 0x07B9D1167B, 0x07BAF5A284, 0x07BC1A59D2, 0x07BD3F3C6D, 0x07BE644A59, 0x07BF89839F,
  0x07C0AEE844, 0x07C1D4784F, 0x07C2FA33C5, 0x07C4201AAE, 0x07C5462D10, 0x07C66C6AF2, 0x07C792D459, 0x07C8B9694C,
  0x07C9E029D2, 0x07CB0715F1, 0x07CC2E2DAF, 0x07CD557114, 0x07CE7CE025, 0x07CFA47AE9, 0x07D0CC4166, 0x07D1F433A3,
  0x07D31C51A6, 0x07D4449B76, 0x07D56D111A, 0x07D695B297, 0x07D7BE7FF4, 0x07D8E77938, 0x07DA109E6A, 0x07DB39EF8F,
  0x07DC636CAE, 0x07DD8D15CE, 0x07DEB6EAF5, 0x07DFE0EC2A, 0x07E10B1973, 0x07E23572D7, 0x07E35FF85C, 0x07E48AAA09,
  0x07E5B587E4, 0x07E6E091F5, 0x07E80BC840, 0x07E9372ACE, 0x07EA62B9A4, 0x07EB8E74C9, 0x07ECBA5C44, 0x07EDE6701B,
  0x07EF12B055, 0x07F03F1CF8, 0x07F16BB60B, 0x07F2987B94, 0x07F3C56D9B, 0x07F4F28C25, 0x07F61FD739, 0x07F74D4EDE]

/-- `T_K`, words 256 to 319 (rule R235). -/
def tKFrom256 : List Nat := [
  0x07F87AF31A, 0x07F9A8C3F4, 0x07FAD6C173, 0x07FC04EB9D, 0x07FD334279, 0x07FE61C60D, 0x07FF907660, 0x0800BF5379,
  0x0801EE5D5E, 0x08031D9416, 0x08044CF7A8, 0x08057C8819, 0x0806AC4571, 0x0807DC2FB7, 0x08090C46F1, 0x080A3C8B25,
  0x080B6CFC5B, 0x080C9D9A99, 0x080DCE65E5, 0x080EFF5E47, 0x08103083C5, 0x081161D666, 0x081293562F, 0x0813C50329,
  0x0814F6DD5A, 0x081628E4C8, 0x08175B197A, 0x08188D7B77, 0x0819C00AC6, 0x081AF2C76C, 0x081C25B172, 0x081D58C8DD,
  0x081E8C0DB4, 0x081FBF7FFF, 0x0820F31FC3, 0x082226ED08, 0x08235AE7D4, 0x08248F102E, 0x0825C3661D, 0x0826F7E9A7,
  0x08282C9AD3, 0x08296179A8, 0x082A96862D, 0x082BCBC069, 0x082D012861, 0x082E36BE1E, 0x082F6C81A5, 0x0830A272FE,
  0x0831D8922F, 0x08330EDF40, 0x0834455A36, 0x08357C0318, 0x0836B2D9EF, 0x0837E9DEBF, 0x0839211190, 0x083A58726A,
  0x083B900152, 0x083CC7BE4F, 0x083DFFA969, 0x083F37C2A6, 0x0840700A0C, 0x0841A87FA4, 0x0842E12373, 0x084419F581]

/-- `T_K`, words 320 to 383 (rule R235). -/
def tKFrom320 : List Nat := [
  0x084552F5D3, 0x08468C2472, 0x0847C58164, 0x0848FF0CB0, 0x084A38C65C, 0x084B72AE70, 0x084CACC4F2, 0x084DE709EA,
  0x084F217D5D, 0x08505C1F54, 0x085196EFD5, 0x0852D1EEE6, 0x08540D1C8F, 0x08554878D6, 0x08568403C3, 0x0857BFBD5D,
  0x0858FBA5A9, 0x085A37BCB0, 0x085B740278, 0x085CB07707, 0x085DED1A66, 0x085F29EC9B, 0x086066EDAC, 0x0861A41DA1,
  0x0862E17C80, 0x08641F0A51, 0x08655CC71B, 0x08669AB2E4, 0x0867D8CDB3, 0x0869171790, 0x086A559081, 0x086B94388E,
  0x086CD30FBC, 0x086E121614, 0x086F514B9C, 0x087090B05B, 0x0871D04459, 0x087310079B, 0x08744FFA2A, 0x0875901C0C,
  0x0876D06D48, 0x087810EDE5, 0x0879519DEA, 0x087A927D5F, 0x087BD38C49, 0x087D14CAB1, 0x087E56389D, 0x087F97D614,
  0x0880D9A31E, 0x08821B9FC1, 0x08835DCC04, 0x0884A027EE, 0x0885E2B387, 0x0887256ED6, 0x08886859E1, 0x0889AB74B0,
  0x088AEEBF49, 0x088C3239B4, 0x088D75E3F8, 0x088EB9BE1C, 0x088FFDC827, 0x0891420220, 0x0892866C0E, 0x0893CB05F9]

/-- `T_K`, words 384 to 447 (rule R235). -/
def tKFrom384 : List Nat := [
  0x08950FCFE7, 0x089654C9DF, 0x089799F3E9, 0x0898DF4E0B, 0x089A24D84D, 0x089B6A92B7, 0x089CB07D4E, 0x089DF6981A,
  0x089F3CE323, 0x08A0835E6F, 0x08A1CA0A05, 0x08A310E5EE, 0x08A457F22F, 0x08A59F2ED0, 0x08A6E69BD8, 0x08A82E394F,
  0x08A976073B, 0x08AABE05A4, 0x08AC063490, 0x08AD4E9408, 0x08AE972411, 0x08AFDFE4B4, 0x08B128D5F8, 0x08B271F7E3,
  0x08B3BB4A7E, 0x08B504CDCE, 0x08B64E81DC, 0x08B79866AE, 0x08B8E27C4C, 0x08BA2CC2BD, 0x08BB773A09, 0x08BCC1E235,
  0x08BE0CBB4B, 0x08BF57C550, 0x08C0A3004C, 0x08C1EE6C47, 0x08C33A0947, 0x08C485D755, 0x08C5D1D676, 0x08C71E06B3,
  0x08C86A6812, 0x08C9B6FA9C, 0x08CB03BE56, 0x08CC50B349, 0x08CD9DD97C, 0x08CEEB30F6, 0x08D038B9BE, 0x08D18673DB,
  0x08D2D45F56, 0x08D4227C35, 0x08D570CA7F, 0x08D6BF4A3C, 0x08D80DFB74, 0x08D95CDE2C, 0x08DAABF26E, 0x08DBFB3840,
  0x08DD4AAFA9, 0x08DE9A58B1, 0x08DFEA335F, 0x08E13A3FBA, 0x08E28A7DCB, 0x08E3DAED97, 0x08E52B8F27, 0x08E67C6282]

/-- `T_K`, words 448 to 511 (rule R235). -/
def tKFrom448 : List Nat := [
  0x08E7CD67AF, 0x08E91E9EB6, 0x08EA70079D, 0x08EBC1A26D, 0x08ED136F2D, 0x08EE656DE4, 0x08EFB79E99, 0x08F10A0155,
  0x08F25C961E, 0x08F3AF5CFB, 0x08F50255F4, 0x08F6558112, 0x08F7A8DE5A, 0x08F8FC6DD4, 0x08FA502F88, 0x08FBA4237E,
  0x08FCF849BC, 0x08FE4CA24A, 0x08FFA12D30, 0x0900F5EA74, 0x09024ADA1F, 0x09039FFC39, 0x0904F550C7, 0x09064AD7D2,
  0x0907A09162, 0x0908F67D7D, 0x090A4C9C2B, 0x090BA2ED75, 0x090CF97160, 0x090E5027F5, 0x090FA7113B, 0x0910FE2D3A,
  0x0912557BFA, 0x0913ACFD80, 0x091504B1D7, 0x09165C9903, 0x0917B4B30E, 0x09190CFFFF, 0x091A657FDD, 0x091BBE32B0,
  0x091D17187F, 0x091E703152, 0x091FC97D31, 0x092122FC23, 0x09227CAE2F, 0x0923D6935D, 0x092530ABB5, 0x09268AF73E,
  0x0927E57600, 0x0929402802, 0x092A9B0D4D, 0x092BF625E6, 0x092D5171D8, 0x092EACF127, 0x093008A3DD, 0x0931648A01,
  0x0932C0A39B, 0x09341CF0B2, 0x093579714D, 0x0936D62575, 0x0938330D31, 0x0939902889, 0x093AED7784, 0x093C4AFA29]

/-- `T_K`, words 512 to 575 (rule R235). -/
def tKFrom512 : List Nat := [
  0x093DA8B082, 0x093F069A94, 0x094064B869, 0x0941C30A07, 0x0943218F76, 0x09448048BE, 0x0945DF35E6, 0x09473E56F7,
  0x09489DABF8, 0x0949FD34F0, 0x094B5CF1E7, 0x094CBCE2E5, 0x094E1D07F2, 0x094F7D6115, 0x0950DDEE56, 0x09523EAFBD,
  0x09539FA551, 0x095500CF1B, 0x0956622D21, 0x0957C3BF6C, 0x0959258604, 0x095A8780EF, 0x095BE9B036, 0x095D4C13E1,
  0x095EAEABF7, 0x0960117880, 0x0961747984, 0x0962D7AF0B, 0x09643B191C, 0x09659EB7BF, 0x0967028AFC, 0x09686692DB,
  0x0969CACF63, 0x096B2F409C, 0x096C93E68E, 0x096DF8C142, 0x096F5DD0BE, 0x0970C3150A, 0x0972288E2F, 0x09738E3C33,
  0x0974F41F20, 0x09765A36FC, 0x0977C083D0, 0x09792705A3, 0x097A8DBC7E, 0x097BF4A868, 0x097D5BC968, 0x097EC31F88,
  0x09802AAACE, 0x0981926B42, 0x0982FA60ED, 0x0984628BD6, 0x0985CAEC05, 0x0987338182, 0x09889C4C55, 0x098A054C86,
  0x098B6E821D, 0x098CD7ED21, 0x098E418D9A, 0x098FAB6391, 0x0991156F0D, 0x09927FB016, 0x0993EA26B5, 0x099554D2F0]

/-- `T_K`, words 576 to 639 (rule R235). -/
def tKFrom576 : List Nat := [
  0x0996BFB4D1, 0x09982ACC5E, 0x09999619A0, 0x099B019C9F, 0x099C6D5563, 0x099DD943F4, 0x099F456859, 0x09A0B1C29A,
  0x09A21E52C1, 0x09A38B18D3, 0x09A4F814DB, 0x09A66546DF, 0x09A7D2AEE7, 0x09A9404CFC, 0x09AAAE2125, 0x09AC1C2B6B,
  0x09AD8A6BD5, 0x09AEF8E26C, 0x09B0678F37, 0x09B1D6723F, 0x09B3458B8B, 0x09B4B4DB24, 0x09B6246112, 0x09B7941D5C,
  0x09B904100B, 0x09BA743926, 0x09BBE498B7, 0x09BD552EC4, 0x09BEC5FB56, 0x09C036FE75, 0x09C1A83829, 0x09C319A87A,
  0x09C48B4F70, 0x09C5FD2D13, 0x09C76F416C, 0x09C8E18C83, 0x09CA540E5E, 0x09CBC6C708, 0x09CD39B687, 0x09CEACDCE4,
  0x09D0203A27, 0x09D193CE58, 0x09D3079980, 0x09D47B9BA5, 0x09D5EFD4D1, 0x09D764450C, 0x09D8D8EC5D, 0x09DA4DCACE,
  0x09DBC2E065, 0x09DD382D2C, 0x09DEADB12A, 0x09E0236C68, 0x09E1995EED, 0x09E30F88C2, 0x09E485E9EF, 0x09E5FC827D,
  0x09E7735273, 0x09E8EA59DA, 0x09EA6198B9, 0x09EBD90F1A, 0x09ED50BD03, 0x09EEC8A27F, 0x09F040BF94, 0x09F1B9144B]

/-- `T_K`, words 640 to 703 (rule R235). -/
def tKFrom640 : List Nat := [
  0x09F331A0AC, 0x09F4AA64BF, 0x09F623608D, 0x09F79C941E, 0x09F915FF7A, 0x09FA8FA2AA, 0x09FC097DB5, 0x09FD8390A4,
  0x09FEFDDB7F, 0x0A00785E4E, 0x0A01F3191B, 0x0A036E0BEC, 0x0A04E936CA, 0x0A066499BE, 0x0A07E034D0, 0x0A095C0808,
  0x0A0AD8136F, 0x0A0C54570C, 0x0A0DD0D2E8, 0x0A0F4D870C, 0x0A10CA7380, 0x0A1247984B, 0x0A13C4F577, 0x0A15428B0C,
  0x0A16C05912, 0x0A183E5F91, 0x0A19BC9E92, 0x0A1B3B161D, 0x0A1CB9C63A, 0x0A1E38AEF3, 0x0A1FB7D04E, 0x0A21372A56,
  0x0A22B6BD11, 0x0A24368889, 0x0A25B68CC5, 0x0A2736C9CF, 0x0A28B73FAE, 0x0A2A37EE6B, 0x0A2BB8D60F, 0x0A2D39F6A1,
  0x0A2EBB502B, 0x0A303CE2B4, 0x0A31BEAE46, 0x0A3340B2E8, 0x0A34C2F0A3, 0x0A3645677F, 0x0A37C81785, 0x0A394B00BE,
  0x0A3ACE2331, 0x0A3C517EE7, 0x0A3DD513EA, 0x0A3F58E240, 0x0A40DCE9F3, 0x0A42612B0B, 0x0A43E5A591, 0x0A456A598D,
  0x0A46EF4708, 0x0A48746E0A, 0x0A49F9CE9B, 0x0A4B7F68C5, 0x0A4D053C8F, 0x0A4E8B4A03, 0x0A50119128, 0x0A51981207]

/-- `T_K`, words 704 to 767 (rule R235). -/
def tKFrom704 : List Nat := [
  0x0A531ECCAA, 0x0A54A5C117, 0x0A562CEF59, 0x0A57B45777, 0x0A593BF97A, 0x0A5AC3D56A, 0x0A5C4BEB51, 0x0A5DD43B36,
  0x0A5F5CC523, 0x0A60E58920, 0x0A626E8735, 0x0A63F7BF6B, 0x0A658131CB, 0x0A670ADE5D, 0x0A6894C52A, 0x0A6A1EE63A,
  0x0A6BA94197, 0x0A6D33D748, 0x0A6EBEA757, 0x0A7049B1CB, 0x0A71D4F6AE, 0x0A73607609, 0x0A74EC2FE3, 0x0A76782446,
  0x0A7804533A, 0x0A7990BCC8, 0x0A7B1D60F9, 0x0A7CAA3FD5, 0x0A7E375964, 0x0A7FC4ADB1, 0x0A81523CC2, 0x0A82E006A2,
  0x0A846E0B58, 0x0A85FC4AEE, 0x0A878AC56B, 0x0A89197ADA, 0x0A8AA86B42, 0x0A8C3796AC, 0x0A8DC6FD21, 0x0A8F569EAA,
  0x0A90E67B4F, 0x0A9276931A, 0x0A9406E612, 0x0A95977441, 0x0A97283DB0, 0x0A98B94267, 0x0A9A4A826E, 0x0A9BDBFDD0,
  0x0A9D6DB494, 0x0A9EFFA6C3, 0x0AA091D466, 0x0AA2243D87, 0x0AA3B6E22C, 0x0AA549C261, 0x0AA6DCDE2D, 0x0AA8703598,
  0x0AAA03C8AD, 0x0AAB979774, 0x0AAD2BA1F5, 0x0AAEBFE839, 0x0AB0546A4A, 0x0AB1E92830, 0x0AB37E21F4, 0x0AB513579F]

/-- `T_K`, words 768 to 831 (rule R235). -/
def tKFrom768 : List Nat := [
  0x0AB6A8C939, 0x0AB83E76CC, 0x0AB9D46060, 0x0ABB6A85FF, 0x0ABD00E7B0, 0x0ABE97857E, 0x0AC02E5F71, 0x0AC1C57591,
  0x0AC35CC7E9, 0x0AC4F45680, 0x0AC68C215F, 0x0AC8242890, 0x0AC9BC6C1C, 0x0ACB54EC0A, 0x0ACCEDA865, 0x0ACE86A135,
  0x0AD01FD684, 0x0AD1B94859, 0x0AD352F6BF, 0x0AD4ECE1BD, 0x0AD687095D, 0x0AD8216DA9, 0x0AD9BC0EA8, 0x0ADB56EC64,
  0x0ADCF206E6, 0x0ADE8D5E37, 0x0AE028F25F, 0x0AE1C4C369, 0x0AE360D15C, 0x0AE4FD1C42, 0x0AE699A425, 0x0AE836690B,
  0x0AE9D36B00, 0x0AEB70AA0C, 0x0AED0E2638, 0x0AEEABDF8D, 0x0AF049D614, 0x0AF1E809D6, 0x0AF3867ADC, 0x0AF5252930,
  0x0AF6C414DA, 0x0AF8633DE3, 0x0AFA02A454, 0x0AFBA24838, 0x0AFD422996, 0x0AFEE24877, 0x0B0082A4E6, 0x0B02233EEA,
  0x0B03C4168D, 0x0B05652BD9, 0x0B07067ED6, 0x0B08A80F8D, 0x0B0A49DE08, 0x0B0BEBEA4F, 0x0B0D8E346C, 0x0B0F30BC69,
  0x0B10D3824D, 0x0B12768622, 0x0B1419C7F2, 0x0B15BD47C6, 0x0B176105A6, 0x0B1905019D, 0x0B1AA93BB2, 0x0B1C4DB3F0]

/-- `T_K`, words 832 to 895 (rule R235). -/
def tKFrom832 : List Nat := [
  0x0B1DF26A5F, 0x0B1F975F09, 0x0B213C91F7, 0x0B22E20332, 0x0B2487B2C3, 0x0B262DA0B4, 0x0B27D3CD0E, 0x0B297A37DA,
  0x0B2B20E121, 0x0B2CC7C8EC, 0x0B2E6EEF45, 0x0B30165436, 0x0B31BDF7C6, 0x0B3365DA00, 0x0B350DFAED, 0x0B36B65A96,
  0x0B385EF904, 0x0B3A07D640, 0x0B3BB0F255, 0x0B3D5A4D4B, 0x0B3F03E72C, 0x0B40ADC000, 0x0B4257D7D1, 0x0B44022EA9,
  0x0B45ACC490, 0x0B47579991, 0x0B4902ADB4, 0x0B4AAE0103, 0x0B4C599387, 0x0B4E056549, 0x0B4FB17654, 0x0B515DC6AF,
  0x0B530A5665, 0x0B54B7257F, 0x0B56643406, 0x0B58118204, 0x0B59BF0F82, 0x0B5B6CDC89, 0x0B5D1AE923, 0x0B5EC9355A,
  0x0B6077C136, 0x0B62268CC1, 0x0B63D59805, 0x0B6584E30A, 0x0B67346DDB, 0x0B68E43881, 0x0B6A944305, 0x0B6C448D70,
  0x0B6DF517CD, 0x0B6FA5E224, 0x0B7156EC80, 0x0B730836E9, 0x0B74B9C168, 0x0B766B8C09, 0x0B781D96D3, 0x0B79CFE1D1,
  0x0B7B826D0B, 0x0B7D35388D, 0x0B7EE8445E, 0x0B809B9088, 0x0B824F1D16, 0x0B8402EA10, 0x0B85B6F780, 0x0B876B456F]

/-- `T_K`, words 896 to 959 (rule R235). -/
def tKFrom896 : List Nat := [
  0x0B891FD3E8, 0x0B8AD4A2F3, 0x0B8C89B29B, 0x0B8E3F02E8, 0x0B8FF493E5, 0x0B91AA659B, 0x0B93607813, 0x0B9516CB57,
  0x0B96CD5F70, 0x0B98843469, 0x0B9A3B4A4B, 0x0B9BF2A11F, 0x0B9DAA38EF, 0x0B9F6211C5, 0x0BA11A2BAA, 0x0BA2D286A8,
  0x0BA48B22C9, 0x0BA6440015, 0x0BA7FD1E98, 0x0BA9B67E5A, 0x0BAB701F64, 0x0BAD2A01C2, 0x0BAEE4257C, 0x0BB09E8A9C,
  0x0BB259312C, 0x0BB4141935, 0x0BB5CF42C1, 0x0BB78AADDB, 0x0BB9465A8A, 0x0BBB0248DA, 0x0BBCBE78D4, 0x0BBE7AEA81,
  0x0BC0379DEB, 0x0BC1F4931D, 0x0BC3B1CA1F, 0x0BC56F42FC, 0x0BC72CFDBE, 0x0BC8EAFA6D, 0x0BCAA93914, 0x0BCC67B9BC,
  0x0BCE267C70, 0x0BCFE58139, 0x0BD1A4C820, 0x0BD3645130, 0x0BD5241C73, 0x0BD6E429F2, 0x0BD8A479B6, 0x0BDA650BCB,
  0x0BDC25E039, 0x0BDDE6F70A, 0x0BDFA85049, 0x0BE169EBFF, 0x0BE32BCA35, 0x0BE4EDEAF7, 0x0BE6B04E4C, 0x0BE872F441,
  0x0BEA35DCDD, 0x0BEBF9082C, 0x0BEDBC7636, 0x0BEF802707, 0x0BF1441AA7, 0x0BF3085121, 0x0BF4CCCA7E, 0x0BF69186C9]

/-- `T_K`, words 960 to 1023 (rule R235). -/
def tKFrom960 : List Nat := [
  0x0BF856860A, 0x0BFA1BC84E, 0x0BFBE14D9C, 0x0BFDA715FF, 0x0BFF6D2181, 0x0C0133702C, 0x0C02FA020A, 0x0C04C0D725,
  0x0C0687EF86, 0x0C084F4B38, 0x0C0A16EA45, 0x0C0BDECCB6, 0x0C0DA6F295, 0x0C0F6F5BEE, 0x0C113808C8, 0x0C1300F92F,
  0x0C14CA2D2D, 0x0C1693A4CB, 0x0C185D6013, 0x0C1A275F10, 0x0C1BF1A1CC, 0x0C1DBC2850, 0x0C1F86F2A6, 0x0C215200D9,
  0x0C231D52F3, 0x0C24E8E8FD, 0x0C26B4C302, 0x0C2880E10C, 0x0C2A4D4324, 0x0C2C19E956, 0x0C2DE6D3AA, 0x0C2FB4022B,
  0x0C318174E4, 0x0C334F2BDE, 0x0C351D2723, 0x0C36EB66BD, 0x0C38B9EAB7, 0x0C3A88B31A, 0x0C3C57BFF2, 0x0C3E271147,
  0x0C3FF6A724, 0x0C41C68193, 0x0C4396A09F, 0x0C45670451, 0x0C4737ACB3, 0x0C490899D0, 0x0C4AD9CBB2, 0x0C4CAB4264,
  0x0C4E7CFDEE, 0x0C504EFE5C, 0x0C522143B8, 0x0C53F3CE0B, 0x0C55C69D60, 0x0C5799B1C2, 0x0C596D0B3A, 0x0C5B40A9D3,
  0x0C5D148D96, 0x0C5EE8B68F, 0x0C60BD24C7, 0x0C6291D849, 0x0C6466D11E, 0x0C663C0F52, 0x0C681192EE, 0x0C69E75BFC]

/-- `T_K`, words 1024 to 1087 (rule R235). -/
def tKFrom1024 : List Nat := [
  0x0C6BBD6A88, 0x0C6D93BE9B, 0x0C6F6A583F, 0x0C7141377F, 0x0C73185C65, 0x0C74EFC6FB, 0x0C76C7774C, 0x0C789F6D62,
  0x0C7A77A947, 0x0C7C502B06, 0x0C7E28F2A9, 0x0C8002003A, 0x0C81DB53C3, 0x0C83B4ED50, 0x0C858ECCEA, 0x0C8768F29C,
  0x0C89435E70, 0x0C8B1E1070, 0x0C8CF908A7, 0x0C8ED4471F, 0x0C90AFCBE3, 0x0C928B96FD, 0x0C9467A877, 0x0C9644005C,
  0x0C98209EB6, 0x0C99FD8390, 0x0C9BDAAEF4, 0x0C9DB820ED, 0x0C9F95D984, 0x0CA173D8C5, 0x0CA3521EBA, 0x0CA530AB6C,
  0x0CA70F7EE8, 0x0CA8EE9937, 0x0CAACDFA64, 0x0CACADA279, 0x0CAE8D9180, 0x0CB06DC785, 0x0CB24E4491, 0x0CB42F08B0,
  0x0CB61013EB, 0x0CB7F1664E, 0x0CB9D2FFE2, 0x0CBBB4E0B3, 0x0CBD9708CA, 0x0CBF797833, 0x0CC15C2EF7, 0x0CC33F2D22,
  0x0CC52272BE, 0x0CC705FFD6, 0x0CC8E9D474, 0x0CCACDF0A2, 0x0CCCB2546C, 0x0CCE96FFDC, 0x0CD07BF2FC, 0x0CD2612DD7,
  0x0CD446B078, 0x0CD62C7AEA, 0x0CD8128D36, 0x0CD9F8E768, 0x0CDBDF898A, 0x0CDDC673A7, 0x0CDFADA5CA, 0x0CE1951FFC]

/-- `T_K`, words 1088 to 1151 (rule R235). -/
def tKFrom1088 : List Nat := [
  0x0CE37CE24A, 0x0CE564ECBD, 0x0CE74D3F60, 0x0CE935DA3E, 0x0CEB1EBD62, 0x0CED07E8D5, 0x0CEEF15CA4, 0x0CF0DB18D8,
  0x0CF2C51D7D, 0x0CF4AF6A9D, 0x0CF69A0042, 0x0CF884DE78, 0x0CFA700549, 0x0CFC5B74C0, 0x0CFE472CE8, 0x0D00332DCB,
  0x0D021F7774, 0x0D040C09EF, 0x0D05F8E545, 0x0D07E60981, 0x0D09D376AF, 0x0D0BC12CD9, 0x0D0DAF2C0A, 0x0D0F9D744D,
  0x0D118C05AC, 0x0D137AE032, 0x0D156A03EB, 0x0D175970E0, 0x0D1949271E, 0x0D1B3926AE, 0x0D1D296F9B, 0x0D1F1A01F1,
  0x0D210ADDBA, 0x0D22FC0301, 0x0D24ED71D1, 0x0D26DF2A34, 0x0D28D12C37, 0x0D2AC377E3, 0x0D2CB60D43, 0x0D2EA8EC63,
  0x0D309C154D, 0x0D328F880C, 0x0D348344AC, 0x0D36774B36, 0x0D386B9BB6, 0x0D3A603638, 0x0D3C551AC5, 0x0D3E4A4969,
  0x0D403FC22F, 0x0D42358521, 0x0D442B924B, 0x0D4621E9B8, 0x0D48188B73, 0x0D4A0F7786, 0x0D4C06ADFD, 0x0D4DFE2EE2,
  0x0D4FF5FA42, 0x0D51EE1026, 0x0D53E67099, 0x0D55DF1BA7, 0x0D57D8115C, 0x0D59D151C0, 0x0D5BCADCE1, 0x0D5DC4B2C9]

/-- `T_K`, words 1152 to 1199 (rule R235). -/
def tKFrom1152 : List Nat := [
  0x0D5FBED383, 0x0D61B93F19, 0x0D63B3F598, 0x0D65AEF70A, 0x0D67AA437B, 0x0D69A5DAF4, 0x0D6BA1BD82, 0x0D6D9DEB30,
  0x0D6F9A6409, 0x0D71972817, 0x0D73943766, 0x0D75919201, 0x0D778F37F4, 0x0D798D2948, 0x0D7B8B660B, 0x0D7D89EE46,
  0x0D7F88C204, 0x0D8187E152, 0x0D83874C3A, 0x0D858702C7, 0x0D87870505, 0x0D898752FF, 0x0D8B87ECBF, 0x0D8D88D252,
  0x0D8F8A03C2, 0x0D918B811A, 0x0D938D4A66, 0x0D958F5FB2, 0x0D9791C107, 0x0D99946E73, 0x0D9B9767FF, 0x0D9D9AADB7,
  0x0D9F9E3FA6, 0x0DA1A21DD8, 0x0DA3A64858, 0x0DA5AABF30, 0x0DA7AF826E, 0x0DA9B4921B, 0x0DABB9EE43, 0x0DADBF96F2,
  0x0DAFC58C32, 0x0DB1CBCE0F, 0x0DB3D25C94, 0x0DB5D937CE, 0x0DB7E05FC6, 0x0DB9E7D488, 0x0DBBEF9621, 0x0DBDF7A49A]

/-! ### `T_E`, unsigned Q1.62 (rule R233) -/

/-- `T_E`, words 0 to 63 (rule R235). -/
def tEFrom0 : List Nat := [
  0x4000000000000000, 0x4009776CC2374C30, 0x4012F03FF9DE62FD, 0x401C6A79DBFAABA2, 0x4025E61A9D99650A, 0x402F632273CFA6FF, 0x4038E19193BA634E, 0x40426168327E66F3,
  0x404BE2A685485B41, 0x4055654CC14CC70B, 0x405EE95B1BC80FD2, 0x40686ED1C9FE7AE9, 0x4071F5B1013C2EA4, 0x407B7DF8F6D53380, 0x408507A9E025754E, 0x408E92C3F290C45F,
  0x40981F476382D6AB, 0x40A1AD34686F4901, 0x40AB3C8B36D1A02F, 0x40B4CD4C042D4A2D, 0x40BE5F77060D9F4D, 0x40C7F30C7205E361, 0x40D1880C7DB146E9, 0x40DB1E775EB2E841,
  0x40E4B64D4AB5D4CC, 0x40EE4F8E776D0A1D, 0x40F7EA3B1A93772B, 0x4101865369EBFD76, 0x410B23D79B41723B, 0x4114C2C7E4669F99, 0x411E63247B3645C7, 0x412804ED95931C3A,
  0x4131A8236967D2D9, 0x413B4CC62CA71326, 0x4144F2D6154B816D, 0x414E9A535957BDF4, 0x4158433E2ED66628, 0x4161ED96CBDA15CD, 0x416B995D667D6828, 0x4175469234E2F935,
  0x417EF5356D3566D0, 0x4188A54745A751E6, 0x419256C7F4735FA8, 0x419C09B7AFDC3AB5, 0x41A5BE16AE2C944B, 0x41AF73E525B7257B, 0x41B92B234CD6B055, 0x41C2E3D159EE0118,
  0x41CC9DEF8367EF65, 0x41D6597DFFB75F70, 0x41E0167D0557432D, 0x41E9D4ECCACA9B84, 0x41F394CD869C7981, 0x41FD561F6F5FFF86, 0x420718E2BBB0627C, 0x4210DD17A230EB06,
  0x421AA2BE598CF6AF, 0x422469D71877F921, 0x422E326215AD7D54, 0x4237FC5F87F126C2, 0x4241C7CFA60EB299, 0x424B94B2A6D9F8EA, 0x42556308C12EEDE5, 0x425F32D22BF1A303]

/-- `T_E`, words 64 to 127 (rule R235). -/
def tEFrom64 : List Nat := [
  0x4269040F1E0E483D, 0x4272D6BFCE792D41, 0x427CAAE4742EC2A1, 0x4286807D46339B0D, 0x4290578A7B946C81, 0x429A300C4B66117E, 0x42A40A02ECC58A39, 0x42ADE56E96D7FDD6,
  0x42B7C24F80CABB97, 0x42C1A0A5E1D33C14, 0x42CB8071F12F226F, 0x42D561B3E6243D8A, 0x42DF446BF800893C, 0x42E9289A5E1A2F84, 0x42F30E3F4FCF89C4, 0x42FCF55B048721F4,
  0x4306DDEDB3AFB3D5, 0x4310C7F794C02E2E, 0x431AB378DF37B3FE, 0x4324A071CA9D9DB2, 0x432E8EE28E817A60, 0x43387ECB627B10FA, 0x4342702C7E2A6187, 0x434C63061937A659,
  0x435657586B535547, 0x43604D23AC3620E4, 0x436A446813A0F9B3, 0x43743D25D95D0F66, 0x437E375D353BD210, 0x4388330E5F16F361, 0x439230398ED067DF, 0x439C2EDEFC52681A,
  0x43A62EFEDF8F71ED, 0x43B03099708249AE, 0x43BA33AEE72DFB70, 0x43C4383F7B9DDC35, 0x43CE3E4B65E58B2F, 0x43D845D2DE20F2F4, 0x43E24ED61C744AB9, 0x43EC5955590C1790,
  0x43F66550CC1D2DA0, 0x440072C8ADE4B15D, 0x440A81BD36A818C7, 0x4414922E9EB52CA4, 0x441EA41D1E6209BA, 0x4428B788EE0D220A, 0x4432CC72461D3E0D, 0x443CE2D95F017DF0,
  0x4446FABE71315ACF, 0x44511421B52CA7EF, 0x445B2F03637B93FE, 0x44654B63B4AEAA4F, 0x446F6942E15ED414, 0x447988A1222D599B, 0x4483A97EAFC3E38F, 0x448DCBDBC2D47C32,
  0x4497EFB894199099, 0x44A215155C55F1EC, 0x44AC3BF25454D6A5, 0x44B6644FB4E9DBC9, 0x44C08E2DB6F1062D, 0x44CAB98C934EC3AB, 0x44D4E66C82EFEC6C, 0x44DF14CDBEC9C41C]

/-- `T_E`, words 128 to 191 (rule R235). -/
def tEFrom128 : List Nat := [
  0x44E944B07FD9FB2F, 0x44F37614FF26B01E, 0x44FDA8FB75BE70A8, 0x4507DD641CB83B0D, 0x4512134F2D337F54, 0x451C4ABCE0582084, 0x452683AD6F5675E9, 0x4530BE2113674C53,
  0x453AFA1805CBE754, 0x454537927FCE0284, 0x454F7690BABFD2BD, 0x4559B712EFFC0762, 0x4563F91958E5CB9A, 0x456E3CA42EE8C795, 0x457881B3AB7921CF, 0x4582C84808138049,
  0x458D10617E3D09D7, 0x45975A0047836759, 0x45A1A5249D7CC4FF, 0x45ABF1CEB9C7D38E, 0x45B63FFED60BC99F, 0x45C08FB52BF864E7, 0x45CAE0F1F545EB73, 0x45D533B56BB52CF1,
  0x45DF87FFC90F83EE, 0x45E9DDD14726D71F, 0x45F4352A1FD59AA1, 0x45FE8E0A8CFED13D, 0x4608E872C88E0DB0, 0x461344630C7773E7, 0x461DA1DB92B7BA4D, 0x462800DC95542B09,
  0x463261664E5AA546, 0x463CC378F7E19E74, 0x46472714CC082394, 0x46518C3A04F5DA77, 0x465BF2E8DCDB0305, 0x46665B218DF07886, 0x4670C4E45277B2E4, 0x467B303164BAC7F4,
  0x46859D08FF0C6CB7, 0x46900B6B5BC7F6AA, 0x469A7B58B5515D03, 0x46A4ECD1461539FD, 0x46AF5FD54888CC1E, 0x46B9D464F729F77E, 0x46C44A808C7F470E, 0x46CEC2284317EDE2,
  0x46D93B5C558BC875, 0x46E3B61CFE7B5DF4, 0x46EE326A788FE184, 0x46F8B044FE7B338D, 0x47032FACCAF7E300, 0x470DB0A218C92EA1, 0x4718332522BB0651, 0x4722B73623A20C53,
  0x472D3CD5565B969A, 0x4737C402F5CDB012, 0x47424CBF3CE719E5, 0x474CD70A669F4CCB, 0x475762E4ADF67A51, 0x4761F04E4DF58E22, 0x476C7F4781AE2F54, 0x47770FD0843AC1B2]

/-- `T_E`, words 192 to 255 (rule R235). -/
def tEFrom192 : List Nat := [
  0x4781A1E990BE6706, 0x478C3592E2650066, 0x4796CACCB4632F7C, 0x47A1619741F657D3, 0x47ABF9F2C664A025, 0x47B693DF7CFCF3A2, 0x47C12F5DA1170341, 0x47CBCC6D6E134708,
  0x47D66B0F1F5AFF5B, 0x47E10B42F0603648, 0x47EBAD091C9DC0D2, 0x47F65061DF974041, 0x4800F54D74D9236D, 0x480B9BCC17F8A80C, 0x481643DE0493DBFF, 0x4820ED8376519EA0,
  0x482B98BCA8E1A212, 0x48364589D7FC6C8B, 0x4840F3EB3F6359A4, 0x484BA3E11AE09BAB, 0x4856556BA6473CEB, 0x4861088B1D732102, 0x486BBD3FBC490629, 0x48767389BEB6868A,
  0x48812B6960B2198A, 0x488BE4DEDE3B151C, 0x48969FEA7359AF11, 0x48A15C8C5C1EFE65, 0x48AC1AC4D4A4FC91, 0x48B6DA94190E86DD, 0x48C19BFA65875FAE, 0x48CC5EF7F6442FD8,
  0x48D7238D078287F0, 0x48E1E9B9D588E19B, 0x48ECB17E9CA6A0E1, 0x48F77ADB9934157E, 0x490245D107927C35, 0x490D125F242C001F, 0x4917E0862B73BC00, 0x4922B04659E5BB9A,
  0x492D819FEC06FCFC, 0x493854931E6571D9, 0x494329202D9800D5, 0x494DFF47563E86E1, 0x4958D708D501D885, 0x4963B064E693C33B, 0x496E8B5BC7AF0EBD, 0x497967EDB5177E5E,
  0x4984461AEB99D25B, 0x498F25E3A80BC92E, 0x499A0748274C20E8, 0x49A4EA48A6429880, 0x49AFCEE561DFF12A, 0x49BAB51E971DEFAF, 0x49C59CF482FF5DBD, 0x49D0866762900B41,
  0x49DB717772E4CFB9, 0x49E65E24F11B8B8D, 0x49F14C701A5B2965, 0x49FC3C592BD39F7C, 0x4A072DE062BDF0FC, 0x4A122105FC5C2F4D, 0x4A1D15CA35F97B75, 0x4A280C2D4CEA0767]

/-- `T_E`, words 256 to 319 (rule R235). -/
def tEFrom256 : List Nat := [
  0x4A33042F7E8B1760, 0x4A3DFDD10843033C, 0x4A48F912278137CC, 0x4A53F5F319BE3833, 0x4A5EF4741C7B9F38, 0x4A69F4956D4420A3, 0x4A74F65749AB8A94, 0x4A7FF9B9EF4EC6DA,
  0x4A8AFEBD9BD3DC4E, 0x4A9605628CE9F02D, 0x4AA10DA90049476D, 0x4AAC179133B3481B, 0x4AB7231B64F27AB3, 0x4AC23047D1DA8B79, 0x4ACD3F16B8484BD3, 0x4AD84F885621B3A6,
  0x4AE3619CE955E2AE, 0x4AEE7554AFDD21DA, 0x4AF98AAFE7B8E4A3, 0x4B04A1AECEF3CA70, 0x4B0FBA51A3A19FE5, 0x4B1AD498A3DF604B, 0x4B25F0840DD336E3, 0x4B310E141FAC8043,
  0x4B3C2D4917A3CBB7, 0x4B474E2333FADC99, 0x4B5270A2B2FCABAD, 0x4B5D94C7D2FD6882, 0x4B68BA92D25A7AC9, 0x4B73E203EF7A83B8, 0x4B7F0B1B68CD5F64, 0x4B8A35D97CCC261C,
  0x4B95623E69F92DCE, 0x4BA0904A6EE00B5F, 0x4BABBFFDCA159409, 0x4BB6F158BA37DEBE, 0x4BC2245B7DEE4583, 0x4BCD590653E966CC, 0x4BD88F597AE326E3, 0x4BE3C755319EB13F,
  0x4BEF00F9B6E879E8, 0x4BFA3C4749963ED4, 0x4C05793E2887094B, 0x4C10B7DE92A32F40, 0x4C1BF828C6DC54B8, 0x4C273A1D042D6D24, 0x4C327DBB899ABCC9, 0x4C3DC3049631DA19,
  0x4C4909F86909AF1A, 0x4C54529741427AC4, 0x4C5F9CE15E05D262, 0x4C6AE8D6FE86A2F6, 0x4C76367862013299, 0x4C8185C5C7BB21DE, 0x4C8CD6BF6F036D31, 0x4C98296597326E40,
  0x4CA37DB87FA9DD57, 0x4CAED3B867D4D2C4, 0x4CBA2B658F27C83F, 0x4CC584C035209A47, 0x4CD0DFC899468988, 0x4CDC3C7EFB2A3C3F, 0x4CE79AE39A65BF9E, 0x4CF2FAF6B69C892F]

/-- `T_E`, words 320 to 383 (rule R235). -/
def tEFrom320 : List Nat := [
  0x4CFE5CB88F7B7838, 0x4D09C02964B8D71F, 0x4D15254976145CD4, 0x4D208C1903572E2C, 0x4D2BF4984C53DF4F, 0x4D375EC790E67519, 0x4D42CAA710F46681, 0x4D4E38370C6C9DFD,
  0x4D59A777C3477AE8, 0x4D6518697586D2EB, 0x4D708B0C6335F361, 0x4D7BFF60CC69A2BC, 0x4D877566F14021EF, 0x4D92ED1F11E12DD2, 0x4D9E66896E7E008C, 0x4DA9E1A6475152F9,
  0x4DB55E75DC9F5E0E, 0x4DC0DCF86EB5DC48, 0x4DCC5D2E3DEC0B0F, 0x4DD7DF178AA2AC1D, 0x4DE362B4954406EC, 0x4DEEE8059E43EA18, 0x4DFA6F0AE61FACCD, 0x4E05F7C4AD5E302D,
  0x4E118233348FE0BB, 0x4E1D0E56BC4EB7C1, 0x4E289C2F853E3CC0, 0x4E342BBDD00B86D2, 0x4E3FBD01DD6D3E1C, 0x4E4B4FFBEE239D30, 0x4E56E4AC42F8727F, 0x4E627B131CBF21BF,
  0x4E6E1330BC54A557, 0x4E79AD05629F8FCC, 0x4E85489150900D28, 0x4E90E5D4C71FE46A, 0x4E9C84D0075278EF, 0x4EA825835234CBDF, 0x4EB3C7EEE8DD7D9A, 0x4EBF6C130C6CCF21,
  0x4ECB11EFFE0CA387, 0x4ED6B985FEF0815A, 0x4EE262D550559411, 0x4EEE0DDE3382AD7C, 0x4EF9BAA0E9C8472E, 0x4F05691DB48083EB, 0x4F111954D50F3118, 0x4F1CCB468CE1C825,
  0x4F287EF31D6F7001, 0x4F34345AC838FE84, 0x4F3FEB7DCEC8F9DD, 0x4F4BA45C72B39A06, 0x4F575EF6F596CA2F, 0x4F631B4D991A2A2C, 0x4F6ED9609EEF0FE9, 0x4F7A993048D088D7,
  0x4F865ABCD8835B5C, 0x4F921E068FD60844, 0x4F9DE30DB0A0CC31, 0x4FA9A9D27CC5A10B, 0x4FB5725536303F71, 0x4FC13C961ED6202C, 0x4FCD089578B67D9B, 0x4FD8D65385DA552C]

/-- `T_E`, words 384 to 447 (rule R235). -/
def tEFrom384 : List Nat := [
  0x4FE4A5D0885468C7, 0x4FF0770CC2414043, 0x4FFC4A0875C72AD8, 0x50081EC3E5164090, 0x5013F53F526863BB, 0x501FCD7B00014261, 0x502BA777302E57B4, 0x503783342546ED85,
  0x504360B221AC1DB7, 0x504F3FF167C8D3AF, 0x505B20F23A11CDCF, 0x506703B4DB059EE2, 0x5072E8398D2CAF97, 0x507ECE8093193FF0, 0x508AB68A2F6768BB, 0x5096A056A4BD1D03,
  0x50A28BE635CA2B89, 0x50AE793925484035, 0x50BA684FB5FAE591, 0x50C6592A2AAF8638, 0x50D24BC8C63D6E52, 0x50DE402BCB85CD07, 0x50EA36537D73B5F5, 0x50F62E401EFC22A8,
  0x510227F1F31DF411, 0x510E23693CE1F3FD, 0x511A20A63F5AD689, 0x51261FA93DA53BA0, 0x513220727AE7B06A, 0x513E23023A52B0CC, 0x514A2758BF20A8DD, 0x51562D764C95F65C,
  0x5162355B2600EA2C, 0x516E3F078EB9C9CB, 0x517A4A7BCA22D0CB, 0x518657B81BA8324C, 0x519266BCC6C01A75, 0x519E778A0EEAAFED, 0x51AA8A2037B21557, 0x51B69E7F84AA6AC7,
  0x51C2B4A83971CF44, 0x51CECC9A99B0623C, 0x51DAE656E9184500, 0x51E701DD6B659C44, 0x51F31F2E645E9191, 0x51FF3E4A17D354C8, 0x520B5F30C99E1D9C, 0x521781E2BDA32D0C,
  0x5223A66037D0CEDE, 0x522FCCA97C1F5B20, 0x523BF4BECE9137A1, 0x52481EA07332D96E, 0x52544A4EAE1AC64D, 0x526077C9C3699641, 0x526CA711F749F500, 0x5278D8278DF0A372,
  0x52850B0ACB9C7933, 0x52913FBBF496660D, 0x529D763B4D317377, 0x52A9AE8919CAC614, 0x52B5E8A59EC99F32, 0x52C22491209F5E48, 0x52CE624BE3C78274, 0x52DAA1D62CC7AC00]

/-- `T_E`, words 448 to 511 (rule R235). -/
def tEFrom448 : List Nat := [
  0x52E6E330402F9DDA, 0x52F3265A62993F17, 0x52FF6B54D8A89C75, 0x530BB21FE70BE9D9, 0x5317FABBD27B83D1, 0x53244528DFB9F110, 0x533091675393E3F6, 0x533CDF7772E03C0D,
  0x53492F5982800789, 0x5355810DC75E84CE, 0x5361D494867123EE, 0x536E29EE04B7882C, 0x537A811A873B8980, 0x5386DA1A53113616, 0x539334EDAD56D3D4, 0x539F9194DB34E1DB,
  0x53ABF01021DE1A0C, 0x53B8505FC68F7288, 0x53C4B2840E901F37, 0x53D1167D3F31934B, 0x53DD7C4B9DCF82C1, 0x53E9E3EF6FCFE3E9, 0x53F64D68FAA2F0EB, 0x5402B8B883C32948,
  0x540F25DE50B5535F, 0x541B94DAA7087DF8, 0x542805ADCC5601C2, 0x54347858064182DE, 0x5440ECD99A78F261, 0x544D6332CEB48FDC, 0x5459DB63E8B6EAE3, 0x5466556D2E4CE493,
  0x5472D14EE54DB116, 0x547F4F09539AD92D, 0x548BCE9CBF203BB8, 0x549850096DD40F39, 0x54A4D34FA5B6E361, 0x54B1586FACD3A293, 0x54BDDF69C93F9370, 0x54CA683E411A5A5C,
  0x54D6F2ED5A8DFB0A, 0x54E37F775BCEDA02, 0x54F00DDC8B1BBE29, 0x54FC9E1D2EBDD250, 0x550930398D08A6B6, 0x5515C431EC5A3296, 0x55225A06931AD5B2, 0x552EF1B7C7BD59D8,
  0x553B8B45D0BEF473, 0x554826B0F4A7480F, 0x5554C3F97A0865E8, 0x5561631FA77ECF76, 0x556E0423C3B177F2, 0x557AA7061551C5EA, 0x55874BC6E31B94C6, 0x5593F26673D53657,
  0x55A09AE50E4F7461, 0x55AD4542F965922C, 0x55B9F1807BFD4E0B, 0x55C69F9DDD06E2ED, 0x55D34F9B637D09E7, 0x55E001795664FBC4, 0x55ECB537FCCE7290, 0x55F96AD79DD3AB2A]

/-- `T_E`, words 512 to 575 (rule R235). -/
def tEFrom512 : List Nat := [
  0x56062258809966CD, 0x5612DBBAEC4EEC9F, 0x561F96FF282E0B45, 0x562C54257B7B1A69, 0x5639132E2D84FC52, 0x5645D41985A51F6A, 0x565296E7CB3F7FD7, 0x565F5B9945C2A901,
  0x566C222E3CA7B72B, 0x5678EAA6F77258FA, 0x5685B503BDB0D10D, 0x56928144D6FBF78A, 0x569F4F6A8AF73BAF, 0x56AC1F752150A563, 0x56B8F164E1C0D6C8, 0x56C5C53A140B0DCC,
  0x56D29AF4FFFD25BA, 0x56DF7295ED6F98CE, 0x56EC4C1D244581C3, 0x56F9278AEC6C9D6C, 0x570604DF8DDD4C3F, 0x5712E41B509A93EF, 0x571FC53E7CB220FA, 0x572CA8495A3C483F,
  0x57398D3C315C088F, 0x574674174A3F0C45, 0x57535CDAED1DAAD5, 0x57604787623AEA64, 0x576D341CF1E4815C, 0x577A229BE472D800, 0x57871304824909FE, 0x5794055713D4E80C,
  0x57A0F993E18EF974, 0x57ADEFBB33FA7DB2, 0x57BAE7CD53A56E03, 0x57C7E1CA89287F01, 0x57D4DDB31D272235, 0x57E1DB87584F87B0, 0x57EEDB47835A9FA1, 0x57FBDCF3E70C1BED,
  0x5808E08CCC3271C4, 0x5815E6127BA6DB3B, 0x5822ED853E4D58E3, 0x582FF6E55D14B360, 0x583D023320F67D04, 0x584A0F6ED2F71363, 0x58571E98BC25A0F1, 0x58642FB1259C1E96,
  0x587142B8587F554C, 0x587E57AE9DFEDFB3, 0x588B6E943F552BB0, 0x5898876985C77C05, 0x58A5A22EBAA5E9E7, 0x58B2BEE4274B66A0, 0x58BFDD8A151DBD23, 0x58CCFE20CD8D93AC,
  0x58DA20A89A166D57, 0x58E74521C43EABBE, 0x58F46B8C95979091, 0x590193E957BD3F37, 0x590EBE385456BE67, 0x591BEA79D515F9C5, 0x592918AE23B7C37B, 0x593648D58A03D5DE]

/-- `T_E`, words 576 to 639 (rule R235). -/
def tEFrom576 : List Nat := [
  0x59437AF051CCD501, 0x5950AEFEC4F0505C, 0x595DE5012D56C460, 0x596B1CF7D4F39C1D, 0x597856E305C532DA, 0x598592C309D4D5B6, 0x5992D0982B36C548, 0x59A01062B40A3739,
  0x59AD5222EE7957E6, 0x59BA95D924B94C01, 0x59C7DB85A10A322A, 0x59D52328ADB72497, 0x59E26CC295163AAC, 0x59EFB853A1888AA1, 0x59FD05DC1D7A2B1F, 0x5A0A555C536234E2,
  0x5A17A6D48DC2C45B, 0x5A24FA451728FB4B, 0x5A324FAE3A2D026E, 0x5A3FA71041720B15, 0x5A4D006B77A650C9, 0x5A5A5BC027831AF1, 0x5A67B90E9BCCBE70, 0x5A7518571F529F49,
  0x5A827999FCEF3242, 0x5A8FDCD77F87FE87, 0x5A9D420FF20D9F4D, 0x5AAAA9439F7BC575, 0x5AB81272D2D93932, 0x5AC57D9DD737DBA9, 0x5AD2EAC4F7B4A898, 0x5AE059E87F77B7FB,
  0x5AEDCB08B9B43FB0, 0x5AFB3E25F1A89519, 0x5B08B340729E2EC6, 0x5B162A5887E9A619, 0x5B23A36E7CEAB8E8, 0x5B311E829D0C4B27, 0x5B3E9B9533C4688F, 0x5B4C1AA68C94463F,
  0x5B599BB6F3084469, 0x5B671EC6B2B7EFF4, 0x5B74A3D617460425, 0x5B822AE56C606C48, 0x5B8FB3F4FDC04555, 0x5B9D3F051729DF9A, 0x5BAACC16046CC060, 0x5BB85B281163A396,
  0x5BC5EC3B89F47D7C, 0x5BD37F50BA107C44, 0x5BE11467EDB409C5, 0x5BEEAB8170E6CD1B, 0x5BFC449D8FBBAC58, 0x5C09DFBC9650CE29, 0x5C177CDED0CF9B83, 0x5C251C048B6CC14C,
  0x5C32BD2E12683204, 0x5C40605BB20D2773, 0x5C4E058DB6B22455, 0x5C5BACC46CB8F5FE, 0x5C695600208EB60E, 0x5C7701411EABCC19, 0x5C84AE87B393EF52, 0x5C925DD42BD6283B]

/-- `T_E`, words 640 to 703 (rule R235). -/
def tEFrom640 : List Nat := [
  0x5CA00F26D40CD24C, 0x5CADC27FF8DD9DA6, 0x5CBB77DFE6F990BB, 0x5CC92F46EB1D09FF, 0x5CD6E8B5520FC194, 0x5CE4A42B68A4CAF6, 0x5CF261A97BBA96AB, 0x5D00212FD83AF3F4,
  0x5D0DE2BECB1B1274, 0x5D1BA656A15B83E8, 0x5D296BF7A8083DCD, 0x5D3733A22C389B18, 0x5D44FD567B0F5DDD, 0x5D52C914E1BAB107, 0x5D6096DDAD742A00, 0x5D6E66B12B80CA6A,
  0x5D7C388FA93101C6, 0x5D8A0C7973E0AF2D, 0x5D97E26ED8F722FC, 0x5DA5BA7025E72088, 0x5DB3947DA82EDFCE, 0x5DC17097AD580F25, 0x5DCF4EBE82F7D4F0, 0x5DDD2EF276AED152,
  0x5DEB1133D6291FDD, 0x5DF8F582EF1E5949, 0x5E06DBE00F519524, 0x5E14C44B84916B86, 0x5E22AEC59CB7F6C4, 0x5E309B4EA5AAD526, 0x5E3E89E6ED5B2A9A, 0x5E4C7A8EC1C5A266,
  0x5E5A6D4670F270DF, 0x5E68620E48F5551E, 0x5E7658E697ED9AB4, 0x5E8451CFAC061B5F, 0x5E924CC9D37540C1, 0x5EA049D55C7D0614, 0x5EAE48F2956AF9E1, 0x5EBC4A21CC983FB7,
  0x5ECA4D63506991E2, 0x5ED852B76F4F431E, 0x5EE65A1E77C54052, 0x5EF46398B8531246, 0x5F026F267F8BDF5D, 0x5F107CC81C0E6D46, 0x5F1E8C7DDC8522BD, 0x5F2C9E480FA6093B,
  0x5F3AB2270432CEB7, 0x5F48C81B08F8C756, 0x5F56E0246CD0EF2C, 0x5F64FA437E9FEBF0, 0x5F7316788D560EB8, 0x5F8134C3E7EF55B2, 0x5F8F5525DD736DDF, 0x5F9D779EBCF5B4CD,
  0x5FAB9C2ED5953A51, 0x5FB9C2D6767CC243, 0x5FC7EB95EEE2C638, 0x5FD6166D8E097740, 0x5FE4435DA33EBF9B, 0x5FF272667DDC4480, 0x6000A3886D4767CC, 0x600ED6C3C0F149CB]

/-- `T_E`, words 704 to 767 (rule R235). -/
def tEFrom704 : List Nat := [
  0x601D0C18C856CAEC, 0x602B4387D3008D80, 0x60397D113082F77B, 0x6047B8B5307E342B, 0x6055F674229E35FD, 0x6064364E569AB833, 0x607278441C3740AB, 0x6080BC55C3432195,
  0x608F02839B997B37, 0x609D4ACDF5213DAC, 0x60AB95351FCD2AA0, 0x60B9E1B96B9BD713, 0x60C8305B2897AD17, 0x60D6811AA6D6ED8E, 0x60E4D3F8367BB1F0, 0x60F328F427B3EE06,
  0x6101800ECAB971AE, 0x610FD9486FD1EA9B, 0x611E34A1674EE615, 0x612C921A018DD2BE, 0x613AF1B28EF80251, 0x6149536B6002AB64, 0x6157B744C52EEB2C, 0x61661D3F0F09C741,
  0x6174855A8E2C2F5B, 0x6182EF97933AFF1D, 0x61915BF66EE6FFD1, 0x619FCA7771ECEA32, 0x61AE3B1AED15682B, 0x61BCADE13135169E, 0x61CB22CA8F2C8729, 0x61D999D757E841E7,
  0x61E81307DC60C73A, 0x61F68E5C6D9A918B, 0x62050BD55CA61715, 0x62138B72FA9FCBA6, 0x62220D3598B02269, 0x6230911D880B8FA7, 0x623F172B19F28A94, 0x624D9F5E9FB18F12,
  0x625C29B86AA11F77, 0x626AB638CC25C65A, 0x627944E015B01852, 0x6287D5AE98BCB5C6, 0x629668A4A6D44CB1, 0x62A4FDC2918B9A6A, 0x62B39508AA836D6F, 0x62C22E774368A72C,
  0x62D0CA0EADF43DC6, 0x62DF67CF3BEB3DE3, 0x62EE07B93F1ECC74, 0x62FCA9CD096C287E, 0x630B4E0AECBCACE6, 0x6319F4733B05D23D, 0x63289D0646493086, 0x633747C460948104,
  0x6345F4ADDC01A007, 0x6354A3C30AB68EB3, 0x636355043EE574D0, 0x63720871CACCA294, 0x6380BE0C00B69270, 0x638F75D332F9EADD, 0x639E2FC7B3F98027, 0x63ACEBE9D624563E]

/-- `T_E`, words 768 to 831 (rule R235). -/
def tEFrom768 : List Nat := [
  0x63BBAA39EBF5A27F, 0x63CA6AB847F4CD85, 0x63D92D653CB574F4, 0x63E7F2411CD76D4C, 0x63F6B94C3B06C3B0, 0x64058286E9FBBFBF, 0x64144DF17C7AE558, 0x64231B8C4554F671,
  0x6431EB579766F4E5, 0x6440BD53C59A2440, 0x644F918122E40B97, 0x645E67E00246774E, 0x646D4070B6CF7AF1, 0x647C1B3393997303, 0x648AF828EBCB06CD, 0x6499D75112972A2F,
  0x64A8B8AC5B3D1F77, 0x64B79C3B1908792C, 0x64C681FD9F511BE7, 0x64D569F4417B401E, 0x64E4541F52F77400, 0x64F3407F27429D3F, 0x65022F1411E5FAE9, 0x65111FDE6677273A,
  0x652012DE78981970, 0x652F08149BF7279E, 0x653DFF81244F0884, 0x654CF9246566D55F, 0x655BF4FEB3120BBF, 0x656AF31061308F61, 0x6579F359C3AEABFD, 0x6588F5DB2E851723,
  0x6597FA94F5B8F20B, 0x65A701876D5BCB6F, 0x65B60AB2E98BA162, 0x65C51617BE72E323, 0x65D423B6404872F7, 0x65E3338EC34FA802, 0x65F245A19BD8501B, 0x660159EF1E3EB1A6,
  0x661070779EEB8D6B, 0x661F893B72542071, 0x662EA43AECFA25D3, 0x663DC176636BD89E, 0x664CE0EE2A43F5A4, 0x665C02A29629BD5C, 0x666B2693FBD0F5B7, 0x667A4CC2AFF9EBFD,
  0x6689752F077176A6, 0x66989FD95710F736, 0x66A7CCC1F3BE5C16, 0x66B6FBE9326C2271, 0x66C62D4F6819580E, 0x66D560F4E9D19D2E, 0x66E496DA0CAD2665, 0x66F3CEFF25D0BE79,
  0x670309648A6DC83E, 0x6712460A8FC24072, 0x672184F18B18BF9A, 0x6730C619D1C87BE2, 0x67400983B9354AF6, 0x674F4F2F96CFA3E6, 0x675E971DC014A0FE, 0x676DE14E8A8E01A9]

/-- `T_E`, words 832 to 895 (rule R235). -/
def tEFrom832 : List Nat := [
  0x677D2DC24BD22C4F, 0x678C7C7959843033, 0x679BCD740953C752, 0x67AB20B2B0FD5845, 0x67BA7635A649F81F, 0x67C9CDFD3F0F6C4B, 0x67D92809D1302C74, 0x67E8845BB29B645D,
  0x67F7E2F3394CF5C8, 0x680743D0BB4D7A53, 0x6816A6F48EB2455F, 0x68260C5F099D65EB, 0x68357410823DA87C, 0x6844DE094ECE98FE, 0x68544A49C59884A4, 0x6863B8D23CF07BCE,
  0x687329A30B3853EB, 0x68829CBC86DEA95B, 0x6892121F065EE159, 0x68A189CAE0412BD6, 0x68B103C06B1A8563, 0x68C07FFFFD8CB918, 0x68CFFE89EE466271, 0x68DF7F5E9402EF3A,
  0x68EF027E458AA174, 0x68FE87E959B29135, 0x690E0FA0275CAE97, 0x691D99A30577C395, 0x692D25F24AFF75F9, 0x693CB48E4EFC493F, 0x694C45776883A07D, 0x695BD8ADEEB7C04D,
  0x696B6E3238C7D0AE, 0x697B06049DEFDEF5, 0x698AA0257578DFAD, 0x699A3C9516B8B087, 0x69A9DB53D9121A3C, 0x69B97C6213F4D27C, 0x69C91FC01EDD7DD3, 0x69D8C56E5155B194,
  0x69E86D6D02F3F5C7, 0x69F817BC8B5BC70D, 0x6A07C45D423D988D, 0x6A17734F7F56D5E1, 0x6A2724939A71E4FF, 0x6A36D829EB662825, 0x6A468E12CA17FFC4, 0x6A56464E8E78CC6D,
  0x6A6600DD9086F0BB, 0x6A75BDC0284DD346, 0x6A857CF6ADE5E086, 0x6A953E8179748CC8, 0x6AA50260E32C5619, 0x6AB4C895434CC633, 0x6AC4911EF222746B, 0x6AD45BFE480707A1,
  0x6AE429339D61382B, 0x6AF3F8BF4AA4D1C8, 0x6B03CAA1A852B58E, 0x6B139EDB0EF8DBD7, 0x6B23756BD7325632, 0x6B334E5459A75156, 0x6B432994EF0D170C, 0x6B53072DF0261027]

/-- `T_E`, words 896 to 959 (rule R235). -/
def tEFrom896 : List Nat := [
  0x6B62E71FB5C1C66E, 0x6B72C96A98BCE692, 0x6B82AE0EF201421D, 0x6B92950D1A85D164, 0x6BA27E656B4EB57A, 0x6BB26A183D6D3A21, 0x6BC25825E9FFD7BE, 0x6BD2488ECA323549,
  0x6BE23B53373D2A45, 0x6BF230738A66C0B0, 0x6C0227F01D0236F4, 0x6C1221C9487001E3, 0x6C221DFF661DCEA4, 0x6C321C92CF8684AB, 0x6C421D83DE3247AC, 0x6C5220D2EBB67994,
  0x6C62268051B5BC79, 0x6C722E8C69DFF493, 0x6C8238F78DF24A34, 0x6C9245C217B72BB8, 0x6CA254EC61064F82, 0x6CB26676C3C4B5F1, 0x6CC27A6199E4AB55, 0x6CD290AD3D65C9E7,
  0x6CE2A95A0854FBC6, 0x6CF2C46854CC7CE7, 0x6D02E1D87CF3DD14, 0x6D1301AADB0001DF, 0x6D2323DFC93328A1, 0x6D334877A1DCE86E, 0x6D436F72BF5A3413, 0x6D5398D17C155C0B,
  0x6D63C4943286107D, 0x6D73F2BB3D316335, 0x6D842346F6A9C99E, 0x6D945637B98F1EBF, 0x6DA48B8DE08EA535, 0x6DB4C349C663092C, 0x6DC4FD6BC5D46261, 0x6DD539F439B83619,
  0x6DE578E37CF1791E, 0x6DF5BA39EA7091C0, 0x6E05FDF7DD3359CC, 0x6E16441DB045208C, 0x6E268CABBEBEACC9, 0x6E36D7A263C63EC0, 0x6E472501FA8F9227, 0x6E5774CADE5BE02B,
  0x6E67C6FD6A79E16B, 0x6E781B99FA45CFFB, 0x6E8872A0E9296960, 0x6E98CC12929BF095, 0x6EA927EF52223005, 0x6EB98637834E7B8E, 0x6EC9E6EB81C0B282, 0x6EDA4A0BA92641A8,
  0x6EEAAF98553A253B, 0x6EFB1791E1C4EAEF, 0x6F0B81F8AA9CB3F0, 0x6F1BEECD0BA536E3, 0x6F2C5E0F60CFC1ED, 0x6F3CCFC0061B3CB2, 0x6F4D43DF57942A58, 0x6F5DBA6DB154AB8D]

/-- `T_E`, words 960 to 1023 (rule R235). -/
def tEFrom960 : List Nat := [
  0x6F6E336B6F848085, 0x6F7EAED8EE590B07, 0x6F8F2CB68A155066, 0x6F9FAD049F09FB90, 0x6FB02FC389955F0B, 0x6FC0B4F3A62376FD, 0x6FD13C95512DEB33, 0x6FE1C6A8E73C1124,
  0x6FF2532EC4E2EDF7, 0x7002E22746C5388C, 0x70137392C9935B80, 0x70240771AA0B7733, 0x70349DC444F963D2, 0x7045368AF736B35D, 0x7055D1C61DAAB3B0, 0x70666F76154A7089,
  0x70770F9B3B18B58F, 0x7087B235EC261060, 0x709857468590D296, 0x70A8FECD648513D1, 0x70B9A8CAE63CB3C0, 0x70CA553F67FF5C2C, 0x70DB042B47228302, 0x70EBB58EE1096C5C,
  0x70FC696A93252C8F, 0x710D1FBEBAF4AA31, 0x711DD88BB604A02A, 0x712E93D1E1EF9FBA, 0x713F51919C5E128B, 0x715011CB43063CB9, 0x7160D47F33AC3EDE, 0x717199ADCC221823,
  0x718261576A47A849, 0x71932B7C6C0AB1BB, 0x71A3F81D2F66DB95, 0x71B4C73A1265B3B9, 0x71C598D3731EB0DA, 0x71D66CE9AFB7348B, 0x71E7437D26628D4E, 0x71F81C8E3561F8A3,
  0x7208F81D3B04A51B, 0x7219D62A95A7B460, 0x722AB6B6A3B63D50, 0x723B99C1C3A94E03, 0x724C7F4C5407EDE3, 0x725D6756B3671FBB, 0x726E51E14069E3C7, 0x727F3EEC59C139C7,
  0x72902E785E2C2311, 0x72A12085AC77A4A6, 0x72B21514A37EC93D, 0x72C30C25A22AA360, 0x72D405B907724F76, 0x72E501CF325AF5DE, 0x72F6006881F7CCFF, 0x73070185556A1B5C,
  0x731805260BE139AA, 0x73290B4B049A94E4, 0x733A13F49EE1B060, 0x734B1F233A1027E7, 0x735C2CD7358DB1C7, 0x736D3D10F0D020E9, 0x737E4FD0CB5B66EB, 0x738F651724C19635]

/-- `T_E`, words 1024 to 1087 (rule R235). -/
def tEFrom1024 : List Nat := [
  0x73A07CE45CA2E40F, 0x73B19738D2ADAAB7, 0x73C2B414E69E6B7E, 0x73D3D378F83FD0D9, 0x73E4F565676AB080, 0x73F619DA94060D7F, 0x740740D8DE071A56, 0x74186A60A5713B0F,
  0x742996724A560756, 0x743AC50E2CD54C95, 0x744BF634AD1D100D, 0x745D29E62B6990F3, 0x746E602308054A85, 0x747F98EBA348F62A, 0x7490D4405D9B8D8D, 0x74A2122197724CB5,
  0x74B3528FB150B426, 0x74C4958B0BC88AF8, 0x74D5DB140779E0F8, 0x74E7232B051310C2, 0x74F86DD06550C1DF, 0x7509BB0488FDEAE5, 0x751B0AC7D0F3D38F, 0x752C5D1A9E1A16E2,
  0x753DB1FD5166A546, 0x754F09704BDDC6A8, 0x75606373EE921C97, 0x7571C0089AA4A465, 0x75831F2EB144B946, 0x759480E693B01670, 0x75A5E530A332D93A, 0x75B74C0D41278341,
  0x75C8B57CCEF6FC83, 0x75DA217FAE189584, 0x75EB901640120970, 0x75FD0140E677803B, 0x760E750002EB90C3, 0x761FEB53F71F42F5, 0x7631643D24D211ED, 0x7642DFBBEDD1EE1C,
  0x76545DD0B3FB3F67, 0x7665DE7BD938E752, 0x767761BDBF84431B, 0x7688E796C8E52DE8, 0x769A7007577202E4, 0x76ABFB0FCD4F9F67, 0x76BD88B08CB1651D, 0x76CF18E9F7D93C2A,
  0x76E0ABBC7117954F, 0x76F241285ACB6C11, 0x7703D92E176248E4, 0x771573CE09584349, 0x77271108933803FD, 0x7738B0DE179AC71F, 0x774A534EF9285E55, 0x775BF85B9A9732F7,
  0x776DA0045EAC4837, 0x777F4A49A83B3D48, 0x7790F72BDA264F8B, 0x77A2A6AB575E5CB5, 0x77B458C882E2E4FB, 0x77C60D83BFC20D3A, 0x77D7C4DD7118A125, 0x77E97ED5FA12156B]

/-- `T_E`, words 1088 to 1151 (rule R235). -/
def tEFrom1088 : List Nat := [
  0x77FB3B6DBDE889E7, 0x780CFAA51FE4CBC7, 0x781EBC7C835E57BD, 0x783080F44BBB5C25, 0x7842480CDC70BB36, 0x785411C699020D2C, 0x7865DE21E501A277, 0x7877AD1F241085E9,
  0x78897EBEB9DE7EDF, 0x789B53010A2A1376, 0x78AD29E678C08AB2, 0x78BF036F697DEEB2, 0x78D0DF9C404D0EDE, 0x78E2BE6D61278215, 0x78F49FE33015A8DC, 0x790683FE112EAF91,
  0x79186ABE68989098, 0x792A54249A88168E, 0x793C40310B40DE78, 0x794E2EE41F1559F5, 0x7960203E3A66D172, 0x7972143FC1A56657, 0x79840AE91950153D, 0x7996043AA5F4B820,
  0x79A80034CC300890, 0x79B9FED7F0ADA1E7, 0x79CC002478280379, 0x79DE041AC76892CB, 0x79F00ABB43479DC7, 0x7A02140650AC5CEE, 0x7A141FFC548CF58E, 0x7A262E9DB3EE7BFA,
  0x7A383FEAD3E4F5B9, 0x7A4A53E419935BC5, 0x7A5C6A89EA2B9CB7, 0x7A6E83DCAAEE9F05, 0x7A809FDCC12C4335, 0x7A92BE8A92436616, 0x7AA4DFE683A1E2F7, 0x7AB703F0FAC495DE,
  0x7AC92AAA5D375DBF, 0x7ADB541310951EB9, 0x7AED802B7A87C449, 0x7AFFAEF400C84389, 0x7B11E06D091E9D62, 0x7B241496F961E0CE, 0x7B364B7237782D0B, 0x7B4884FF2956B3DB,
  0x7B5AC13E3501BBBA, 0x7B6D002FC08CA21D, 0x7B7F41D43219DDA9, 0x7B91862BEFDB0075, 0x7BA3CD376010BA3F, 0x7BB616F6E90ADAAF, 0x7BC8636AF128538C, 0x7BDAB293DED73B03,
  0x7BED04721894CDDA, 0x7BFF590604ED71B6, 0x7C11B0500A7CB753, 0x7C240A508FED5CC7, 0x7C366707FBF94FBE, 0x7C48C676B569AFB9, 0x7C5B289D2316D04E, 0x7C6D8D7BABE83B6A]

/-- `T_E`, words 1152 to 1199 (rule R235). -/
def tEFrom1152 : List Nat := [
  0x7C7FF512B6D4B38D, 0x7C925F62AAE2360B, 0x7CA4CC6BEF25FD51, 0x7CB73C2EEAC4831F, 0x7CC9AEAC04F182D0, 0x7CDC23E3A4EFFB99, 0x7CEE9BD6321232CA, 0x7D01168413B9B610,
  0x7D1393EDB1575DBB, 0x7D261413726B4EFF, 0x7D3896F5BE84FE36, 0x7D4B1C94FD433127, 0x7D5DA4F196540146, 0x7D70300BF174DDFC, 0x7D82BDE476728EE9, 0x7D954E7B8D29362C,
  0x7DA7E1D19D8452A4, 0x7DBA77E70F7EC23B, 0x7DCD10BC4B22C428, 0x7DDFAC51B889FB36, 0x7DF24AA7BFDD700E, 0x7E04EBBEC9559378, 0x7E178F973D3A40A9, 0x7E2A363183E2BF87,
  0x7E3CDF8E05B5C6F0, 0x7E4F8BAD2B297F06, 0x7E623A8F5CC38374, 0x7E74EC350318E5BB, 0x7E87A09E86CE2F79, 0x7E9A57CC509764B1, 0x7EAD11BEC938061B, 0x7EBFCE7659831366,
  0x7ED28DF36A5B0D8B, 0x7EE5503664B1F913, 0x7EF8153FB1896064, 0x7F0ADD0FB9F2560E, 0x7F1DA7A6E70D7715, 0x7F307505A20AED3E, 0x7F43452C542A715C, 0x7F56181B66BB4D9E,
  0x7F68EDD3431C5FDD, 0x7F7BC65452BC1BE6, 0x7F8EA19EFF188DCC, 0x7FA17FB3B1BF5C36, 0x7FB46092D44DCAAE, 0x7FC7443CD070BBEB, 0x7FDA2AB20FE4B42B, 0x7FED13F2FC75DB78]

/-! ### The ROM (rule R230) -/

/-- `T_CB`: 1441 words, `T_CB[i]` nearest to `10^(-i/200) × 2^32` (rule R231). -/
def tCb : List Nat := List.flatten
  [tCbFrom0, tCbFrom64, tCbFrom128, tCbFrom192, tCbFrom256, tCbFrom320, tCbFrom384, tCbFrom448, tCbFrom512,
   tCbFrom576, tCbFrom640, tCbFrom704, tCbFrom768, tCbFrom832, tCbFrom896, tCbFrom960, tCbFrom1024,
   tCbFrom1088, tCbFrom1152, tCbFrom1216, tCbFrom1280, tCbFrom1344, tCbFrom1408]

/-- `T_K`: 1200 words, `T_K[i]` nearest to `6.875 × 2^(i/1200) × 2^32` (rule R232). -/
def tK : List Nat := List.flatten
  [tKFrom0, tKFrom64, tKFrom128, tKFrom192, tKFrom256, tKFrom320, tKFrom384, tKFrom448, tKFrom512, tKFrom576,
   tKFrom640, tKFrom704, tKFrom768, tKFrom832, tKFrom896, tKFrom960, tKFrom1024, tKFrom1088, tKFrom1152]

/-- `T_E`: 1200 words, `T_E[r]` nearest to `2^(r/1200) × 2^62` (rule R233). -/
def tE : List Nat := List.flatten
  [tEFrom0, tEFrom64, tEFrom128, tEFrom192, tEFrom256, tEFrom320, tEFrom384, tEFrom448, tEFrom512, tEFrom576,
   tEFrom640, tEFrom704, tEFrom768, tEFrom832, tEFrom896, tEFrom960, tEFrom1024, tEFrom1088, tEFrom1152]

/-- The words of a table (rule R230). -/
def romTable : Table → List Nat
  | .cb => tCb
  | .k => tK
  | .e => tE

/-- The number of words of a table (rule R230). -/
def romLength : Table → Nat
  | .cb => 1441
  | .k => 1200
  | .e => 1200

/-- `ROM(t, i)` as an unsigned integer (rule R230). No command reads outside a table; there it would be 0. -/
def rom (t : Table) (i : Nat) : Nat := (romTable t).getD i 0

/-- `A_LN`, nearest to `2^64 × ln 2 / 1200` (rule R234). -/
def aLn : Int := 0x25DAE664A7A3BA

/-- `K8176`, nearest to `8.176 × 2^32` (rule R234). -/
def k8176 : Int := 0x82D0E5604

end Sys2Proof.Machine
end

