-- ==== Sys2Proof/Machine/Conversion.lean ====
section
/-! DEFINITION. Machine/Conversion.lean: the conversion engines (41_conversion.md). No command here has a flag or an exception
by value (rules R90, R99). -/

namespace Sys2Proof.Machine

/-- `centibelToRatio` (rule R91). -/
def centibelToRatio (x : Int) : Int :=
  if x ≤ 0 then oneFx
  else if fxOfInt 1441 ≤ x then 0
  else (rom .cb (shr x 32).toNat : Int)

/-- The octave band of a number of cents (rule R92). -/
def keyBand (c : Int) : Int := if c < 900 then 0 else (c - 900) / 1200 + 1

/-- The table index within the band (rule R92). -/
def keyIndex (c : Int) : Int := c + 300 - 1200 * keyBand c

/-- Whole cents of an FX key (rule R93). -/
def keyCents (x : Int) : Int := shr (x * 100) 32

/-- `keyToHeltz` with `kbands` octave bands (rule R93). -/
def keyToHeltz (kbands : Nat) (x : Int) : Int :=
  if x < 0 then oneFx
  else if (kbands : Int) ≤ keyBand (keyCents x) then oneFx
  else shl (rom .k (keyIndex (keyCents x)).toNat : Int) (keyBand (keyCents x)).toNat

/-- `u` of rule R94: the fraction of a cent times ln 2 / 1200, in Q0.64. -/
def expFraction (f : Int) : Int := shr (aLn * f) 32

/-- `P` of rule R94: the second-degree polynomial of the fraction, in Q1.64. -/
def expPoly (u : Int) : Int := shl 1 64 + u + shr (u * u) 65

/-- `N` of rule R94, the exact product `M × P × S`. -/
def expProduct (x scale : Int) : Int :=
  (rom .e ((shr x 32) % 1200).toNat : Int) * expPoly (expFraction (x % 4294967296)) * scale

/-- `s` of rule R94. -/
def expShift (x : Int) : Int := 126 - (shr x 32) / 1200

/-- `exp2c(x, S)` (rule R94). -/
def exp2c (x scale : Int) : Int :=
  if expShift x ≤ 0 then satInt (shl (expProduct x scale) (-expShift x).toNat)
  else satInt (shr (expProduct x scale + shl 1 (expShift x - 1).toNat) (expShift x).toNat)

/-- `CB2R fd, fs` (rule R91). -/
def execCb2r (rd rs1 : Reg) (s : State) : Host.Outcome State Fault Refusal :=
  done (s.setReg rd (sat64 (centibelToRatio (s.regInt rs1))))

/-- `K2HZ fd, fs` (rule R93). -/
def execK2hz (rd rs1 : Reg) (s : State) : Host.Outcome State Fault Refusal :=
  done (s.setReg rd (sat64 (keyToHeltz s.params.kbands (s.regInt rs1))))

/-- `TC2S fd, fs` (rule R96). -/
def execTc2s (rd rs1 : Reg) (s : State) : Host.Outcome State Fault Refusal :=
  done (s.setReg rd (sat64 (exp2c (s.regInt rs1) oneFx)))

/-- `AC2HZ fd, fs` (rule R97). -/
def execAc2hz (rd rs1 : Reg) (s : State) : Host.Outcome State Fault Refusal :=
  done (s.setReg rd (sat64 (exp2c (s.regInt rs1) k8176)))

/-- `joinBytes` (rule R98). -/
def joinBytes (msb lsb : Word) : Word := ((low7 msb).setWidth 64 <<< 7) + (low7 lsb).setWidth 64

/-- `JOINB fd, fmsb, flsb` (rule R98). -/
def execJoinb (rd rs1 rs2 : Reg) (s : State) : Host.Outcome State Fault Refusal :=
  done (s.setReg rd (joinBytes (s.reg rs1) (s.reg rs2)))

/-- The table word of an INT index; out of range reads 0 (rule R100). -/
def tableRead (t : Table) (i : Int) : Word :=
  if 0 ≤ i ∧ i < romLength t then BitVec.ofNat 64 (rom t i.toNat) else 0

/-- `TBLRD fd, fi, t` (rule R100). -/
def execTblrd (rd rs1 : Reg) (t : Table) (s : State) : Host.Outcome State Fault Refusal :=
  done (s.setReg rd (tableRead t (s.regInt rs1)))

end Sys2Proof.Machine
end

