-- ==== Sys2Proof/Machine/Envelope.lean ====
section
/-! DEFINITION. Machine/Envelope.lean: the envelope state machine (42_envelope.md). -/

namespace Sys2Proof.Machine

/-! ### Parameters -/

/-- `DUR[STG]` (10_state.md rule R24). Sustain and Finished carry no duration; 0 stands there and no rule reads it
(log 18). -/
def Envelope.dur (e : Envelope) : Stage → Word
  | .delay => e.durDelay
  | .attack => e.durAttack
  | .hold => e.durHold
  | .decay => e.durDecay
  | .release => e.durRelease
  | .sustain => 0
  | .finished => 0

/-- `DUR[STG] <- v` (10_state.md rule R24). Sustain and Finished have no duration to write. -/
def Envelope.setDur (e : Envelope) (v : Word) : Stage → Envelope
  | .delay => { e with durDelay := v }
  | .attack => { e with durAttack := v }
  | .hold => { e with durHold := v }
  | .decay => { e with durDecay := v }
  | .release => { e with durRelease := v }
  | .sustain => e
  | .finished => e

/-- `setParameter(stage, value)` (rule R122): a level is clamped to `[0, ONE]`, a negative duration is read as 0. -/
def Envelope.setParam (e : Envelope) (stg : Stage) (v : Int) : Envelope :=
  if stg = .sustain then { e with sus := sat64 (clamp v 0 oneFx) } else e.setDur (sat64 (max v 0)) stg

/-- `kstime(tc, coef, key)`: key-scaled seconds (rule R123). -/
def kstime (tc coef key : Int) : Int := exp2c (fadd tc (fmul coef (fsub (fxOfInt 60) key))) oneFx

/-! ### Time -/

/-- The successor of a timed stage (rule R125); Sustain and Finished have none and stay. -/
def stageSucc : Stage → Stage
  | .delay => .attack
  | .attack => .hold
  | .hold => .decay
  | .decay => .sustain
  | .release => .finished
  | .sustain => .sustain
  | .finished => .finished

/-- Stages 0, 1, 2, 3 and 5 are timed (rule R125). -/
def stageTimed : Stage → Bool
  | .sustain => false
  | .finished => false
  | .delay => true
  | .attack => true
  | .hold => true
  | .decay => true
  | .release => true

/-- Leaving the current stage (rule R125): the excess is carried into the next stage, except that Sustain and Finished hold
no time (log 17). -/
def Envelope.leaveStage (e : Envelope) : Envelope :=
  if stageTimed (stageSucc e.stg) then
    { e with t := sat64 (e.t.toInt - (e.dur e.stg).toInt), stg := stageSucc e.stg }
  else { e with t := 0, stg := stageSucc e.stg }

/-- The loop of rule R125, at most `n` stages long. -/
def Envelope.settle : Nat → Envelope → Envelope
  | 0, e => e
  | n + 1, e =>
    if stageTimed e.stg ∧ (e.dur e.stg).toInt ≤ e.t.toInt then Envelope.settle n e.leaveStage else e

/-- `advance(e, dt)` (rule R125). The loop passes at most four stages, Delay to Sustain, so a bound of 4 cuts nothing off. -/
def Envelope.advance (e : Envelope) (dt : Int) : Envelope :=
  Envelope.settle 4 { e with t := sat64 (e.t.toInt + dt) }

/-- `update(deltaTime)` (rule R126). -/
def Envelope.update (e : Envelope) (dt : Int) : Envelope :=
  if dt ≤ 0 ∨ e.stg = .sustain ∨ e.stg = .finished then e else e.advance dt

/-! ### Output -/

/-- `prog(t, d)` (rule R131). -/
def prog (t d : Int) : Int := if d ≤ 0 then oneFx else min oneFx (fdivp t d)

/-- `eval(e)`: the value of a unit (rule R131). -/
def Envelope.eval (e : Envelope) : Int :=
  match e.stg with
  | .delay => 0
  | .attack => prog e.t.toInt e.durAttack.toInt
  | .hold => oneFx
  | .decay => oneFx - fmul (oneFx - e.sus.toInt) (prog e.t.toInt e.durDecay.toInt)
  | .sustain => e.sus.toInt
  | .release => e.rstart.toInt - fmul e.rstart.toInt (prog e.t.toInt e.durRelease.toInt)
  | .finished => 0

/-- `release()` (rule R128): from Delay, Attack, Hold, Decay or Sustain into Release, keeping the value as its start. -/
def Envelope.doRelease (e : Envelope) : Envelope :=
  if e.stg = .release ∨ e.stg = .finished then e
  else { e with rstart := sat64 e.eval, stg := .release, t := 0 }

/-- `finish()` (rule R130). -/
def Envelope.finish (e : Envelope) : Envelope := { e with stg := .finished, t := 0 }

/-! ### Commands -/

/-- `ESETP unit, stage, fs` (rule R122). -/
def execEsetp (u : EnvSel) (stg : Stage) (rs1 : Reg) (s : State) : Host.Outcome State Fault Refusal :=
  ifLegal (.esetp u stg rs1) s (s.setEnv u ((s.env u).setParam stg (s.regInt rs1)))

/-- `ESETKS unit, hold|decay, ftc, fcoef, fkey` (rule R124). -/
def execEsetks (u : EnvSel) (stg : Stage) (rs1 rs2 rs3 : Reg) (s : State) : Host.Outcome State Fault Refusal :=
  ifLegal (.esetks u stg rs1 rs2 rs3) s
    (s.setEnv u ((s.env u).setDur (sat64 (kstime (s.regInt rs1) (s.regInt rs2) (s.regInt rs3))) stg))

/-- `EUPD unit, fdt` (rule R126). -/
def execEupd (u : EnvSel) (rs1 : Reg) (s : State) : Host.Outcome State Fault Refusal :=
  done (s.setEnv u ((s.env u).update (s.regInt rs1)))

/-- `EREL unit` (rule R128). -/
def execErel (u : EnvSel) (s : State) : Host.Outcome State Fault Refusal :=
  done (s.setEnv u (s.env u).doRelease)

/-- `EFIN unit` (rule R130). -/
def execEfin (u : EnvSel) (s : State) : Host.Outcome State Fault Refusal :=
  done (s.setEnv u (s.env u).finish)

/-- `EGET fd, unit` (rule R132). -/
def execEget (rd : Reg) (u : EnvSel) (s : State) : Host.Outcome State Fault Refusal :=
  done (s.setReg rd (sat64 (s.env u).eval))

/-- `ESTG fd, unit` (rule R134). -/
def execEstg (rd : Reg) (u : EnvSel) (s : State) : Host.Outcome State Fault Refusal :=
  done (s.setReg rd ((s.env u).stg.code.setWidth 64))

end Sys2Proof.Machine
end

