-- ==== Sys2Proof/Machine/Lfo.lean ====
section
/-! DEFINITION. Machine/Lfo.lean: the LFO delay and oscillator (43_lfo.md). -/

namespace Sys2Proof.Machine

/-- The sawtooth of rule R151. -/
def waveSaw (p : BitVec 32) : Int := 2 * ((p + 2147483648#32).toNat : Int) - 4294967296

/-- The triangle of rule R151. -/
def waveTriangle (p : BitVec 32) : Int :=
  if (p.toNat : Int) < 1073741824 then 4 * (p.toNat : Int)
  else if (p.toNat : Int) < 3221225472 then 8589934592 - 4 * (p.toNat : Int)
  else 4 * (p.toNat : Int) - 17179869184

/-- `wave(p)` of the instance's `LFO_SHAPE` (rule R151). -/
def wave (shape : LfoShape) (p : BitVec 32) : Int :=
  match shape with
  | .saw => waveSaw p
  | .triangle => waveTriangle p

/-- The phase after `eff` FX seconds at `FRQ` (rule R156): whole cycles are dropped, the phase wraps. -/
def Lfo.turn (o : Lfo) (eff : Int) : BitVec 32 := BitVec.ofInt 32 ((o.ph.toNat : Int) + shr (o.frq.toInt * eff) 32)

/-- A tick of a unit still in its delay (rule R156): only the part of the tick past the delay advances the phase. -/
def Lfo.updateDelayed (o : Lfo) (dt : Int) : Lfo :=
  if satInt (o.td.toInt + dt) < o.dly.toInt then { o with td := sat64 (o.td.toInt + dt) }
  else
    { o with
      td := sat64 (o.td.toInt + dt)
      run := true
      ph := o.turn (satInt (o.td.toInt + dt) - o.dly.toInt) }

/-- `update(deltaTime)` (rule R156). -/
def Lfo.update (o : Lfo) (dt : Int) : Lfo :=
  if dt ≤ 0 then o
  else if o.run then { o with ph := o.turn dt }
  else o.updateDelayed dt

/-- `getValue()` (rule R158): 0 until the delay has elapsed. -/
def Lfo.value (o : Lfo) (shape : LfoShape) : Int := if o.run then wave shape o.ph else 0

/-- `LSETD unit, fs` (rule R152). -/
def execLsetd (u : LfoSel) (rs1 : Reg) (s : State) : Host.Outcome State Fault Refusal :=
  done (s.setLfo u { s.lfo u with dly := sat64 (max (s.regInt rs1) 0) })

/-- `LSETF unit, fs` (rule R154). -/
def execLsetf (u : LfoSel) (rs1 : Reg) (s : State) : Host.Outcome State Fault Refusal :=
  done (s.setLfo u { s.lfo u with frq := s.reg rs1 })

/-- `LUPD unit, fdt` (rule R156). -/
def execLupd (u : LfoSel) (rs1 : Reg) (s : State) : Host.Outcome State Fault Refusal :=
  done (s.setLfo u ((s.lfo u).update (s.regInt rs1)))

/-- `LGET fd, unit` (rule R158). -/
def execLget (rd : Reg) (u : LfoSel) (s : State) : Host.Outcome State Fault Refusal :=
  done (s.setReg rd (sat64 ((s.lfo u).value s.params.shape)))

end Sys2Proof.Machine
end

