-- ==== Sys2Proof/Machine/Modulator.lean ====
section
/-! DEFINITION. Machine/Modulator.lean: descriptors, normalisation, contribution and summation (44_modulator.md). -/

namespace Sys2Proof.Machine

/-! ### Descriptor word (rule R171) -/

/-- The code of a curve (rule R171). -/
def Curve.code : Curve → BitVec 2
  | .linear => 0
  | .concave => 1
  | .convex => 2
  | .switch => 3

/-- The curve of a 2-bit code (rule R171). -/
def Curve.ofCode (c : BitVec 2) : Curve :=
  if c = 0 then .linear else if c = 1 then .concave else if c = 2 then .convex else .switch

/-- The code of a polarity (rule R171). -/
def polCode : Polarity → BitVec 1
  | .unipolar => 0
  | .bipolar => 1

/-- The polarity of a bit (rule R171). -/
def polOf (b : BitVec 1) : Polarity := if b = 0 then .unipolar else .bipolar

/-- The code of a direction (rule R171). -/
def Direction.code : Direction → BitVec 1
  | .positive => 0
  | .negative => 1

/-- The direction of a bit (rule R171). -/
def Direction.ofCode (b : BitVec 1) : Direction := if b = 0 then .positive else .negative

/-- One input from the 13 bits of its part of the descriptor (rule R171): `IDX` 6:0, `KIND` 7, `CURVE` 9:8, `POL` 10, `DIR`
11, `PRES` 12. -/
def SlotInput.ofBits (b : BitVec 13) : SlotInput :=
  { pres := b.getLsbD 12
    kind := Kind.ofCode (b.extractLsb' 7 1)
    idx := b.extractLsb' 0 7
    curve := Curve.ofCode (b.extractLsb' 8 2)
    pol := polOf (b.extractLsb' 10 1)
    dir := Direction.ofCode (b.extractLsb' 11 1) }

/-- The 13 bits of one input (rule R171). -/
def SlotInput.toBits (x : SlotInput) : BitVec 13 :=
  BitVec.ofBool x.pres ++ x.dir.code ++ polCode x.pol ++ x.curve.code ++ x.kind.code ++ x.idx

/-- The descriptor word of a slot (rule R171), reserved bits 0. -/
def Slot.descriptor (m : Slot) : Word :=
  m.amount ++ 0#8 ++ BitVec.ofBool m.valid ++ 0#1 ++ m.dest ++ 0#3 ++ m.amt.toBits ++ 0#3 ++ m.src.toBits

/-! ### Matching, normalisation, contribution -/

/-- `matchX(m, kind, idx)` for an input of a slot with the given `VALID` (rule R175). -/
def inputMatches (valid : Bool) (x : SlotInput) (kind : Kind) (idx : BitVec 7) : Bool :=
  valid && x.pres && x.kind == kind && x.idx == idx

/-- `matchS` (rule R175). -/
def Slot.matchesSrc (m : Slot) (kind : Kind) (idx : BitVec 7) : Bool := inputMatches m.valid m.src kind idx

/-- `matchA` (rule R175). -/
def Slot.matchesAmt (m : Slot) (kind : Kind) (idx : BitVec 7) : Bool := inputMatches m.valid m.amt kind idx

/-- `match` (rule R175). -/
def Slot.matchesCtl (m : Slot) (kind : Kind) (idx : BitVec 7) : Bool :=
  m.matchesSrc kind idx || m.matchesAmt kind idx

/-- `x` of rule R176 before the direction: the raw value over `N - 1`, floored. -/
def rawFraction (width : RawWidth) (raw : Int) : Int := shl (rawOf width raw) 32 / (rawRange width - 1)

/-- `x` of rule R176 after the direction. -/
def directed (dir : Direction) (x : Int) : Int :=
  match dir with
  | .positive => x
  | .negative => oneFx - x

/-- `g` or `2g - ONE` by polarity (rule R176). -/
def polarised (pol : Polarity) (g : Int) : Int :=
  match pol with
  | .unipolar => g
  | .bipolar => 2 * g - oneFx

/-- A directed value through the curve and polarity (rules R176, R177). -/
def curved (curve : Curve) (pol : Polarity) (x : Int) : Int :=
  match curve with
  | .linear => polarised pol x
  | .switch => polarised pol (if halfFx ≤ x then oneFx else 0)
  | .concave => curveFn .concave pol x
  | .convex => curveFn .convex pol x

/-- `norm(curve, pol, dir, raw, W)` of an input (rule R176). -/
def SlotInput.norm (x : SlotInput) (width : RawWidth) (raw : Int) : Int :=
  curved x.curve x.pol (directed x.dir (rawFraction width raw))

/-- `mac(m)`: source × amount source, floored, times the integer amount, saturated (rule R179). -/
def Slot.mac (m : Slot) : Word := sat64 (fmul m.srcv.toInt m.amtv.toInt * m.amount.toInt)

/-- The slot with its contribution computed anew (rule R179). -/
def Slot.withContrib (m : Slot) : Slot := { m with contrib := m.mac }

/-! ### Configuration -/

/-- The slot a descriptor word loads (rule R180); `VALID = 0` gives the empty slot, reserved bits are ignored. -/
def Slot.ofDescriptor (d : Word) : Slot :=
  if d.getLsbD 39 then
    Slot.withContrib
      { valid := true
        src := SlotInput.ofBits (d.extractLsb' 0 13)
        amt := SlotInput.ofBits (d.extractLsb' 16 13)
        dest := d.extractLsb' 32 6
        amount := d.extractLsb' 48 16
        srcv := if d.getLsbD 12 then 0 else sat64 oneFx
        amtv := sat64 oneFx
        contrib := 0 }
  else Slot.empty

/-! ### Summation -/

/-- The slots of the instance that are valid and bound to `g` (rule R183). -/
def State.boundTo (s : State) (g : BitVec 6) : List Slot :=
  (s.mods.toList.take s.params.nmod).filter fun m => m.valid && m.dest == g

/-- The exact sum of rule R183, before saturation. -/
def State.sumExact (s : State) (g : BitVec 6) : Int := ((s.boundTo g).map fun m => m.contrib.toInt).sum

/-- `SUM(g)` (rule R183). -/
def State.sumAt (s : State) (g : BitVec 6) : Word := sat64 (s.sumExact g)

/-- The generator index of a position of `ACC`. -/
def genOf (i : Fin 64) : BitVec 6 := BitVec.ofNat 6 i.val

/-- `for g in D: resolve(g)` (rules R182, R183), `D` being the bits of a mask: `ACC[g] <- SUM(g)` and `DIRTY[g] <- 1` for
every `g` of `D`. No `SUM` reads `ACC`, so the order does not matter. -/
def State.resolveAll (s : State) (d : BitVec 64) : State :=
  { s with
    acc := Vector.ofFn fun i : Fin 64 => if d.getLsbD i.val then s.sumAt (genOf i) else s.acc[i]
    dirty := s.dirty ||| d }

/-- The mask of one generator. -/
def genMask (g : BitVec 6) : BitVec 64 := 1#64 <<< g.toNat

/-- `resolve(g)` (rule R183). -/
def State.resolve (s : State) (g : BitVec 6) : State := s.resolveAll (genMask g)

/-! ### Controller notification -/

/-- What `MUPD` does to one slot (rule R182): each matching input takes the normalised value, and a slot with a matching
input recomputes its contribution. -/
def Slot.notify (m : Slot) (kind : Kind) (idx : BitVec 7) (width : RawWidth) (raw : Int) : Slot :=
  if m.matchesCtl kind idx then
    Slot.withContrib
      { m with
        srcv := if m.matchesSrc kind idx then sat64 (m.src.norm width raw) else m.srcv
        amtv := if m.matchesAmt kind idx then sat64 (m.amt.norm width raw) else m.amtv }
  else m

/-- Every slot of the instance notified (rule R182). -/
def State.notifyAll (s : State) (kind : Kind) (idx : BitVec 7) (width : RawWidth) (raw : Int) : State :=
  { s with
    mods := Vector.ofFn fun i : Fin 64 =>
      if i.val < s.params.nmod then s.mods[i].notify kind idx width raw else s.mods[i] }

/-- `D` of rule R182 as a mask: the destinations of the instance's slots that match. -/
def State.affected (s : State) (kind : Kind) (idx : BitVec 7) : BitVec 64 :=
  (s.mods.toList.take s.params.nmod).foldr
    (fun m d => if m.matchesCtl kind idx then genMask m.dest ||| d else d) 0

/-- The whole of `MUPD` (rule R182): notify the slots, then resolve the affected destinations. -/
def State.notifyCtl (s : State) (kind : Kind) (idx : BitVec 7) (width : RawWidth) (raw : Int) : State :=
  (s.notifyAll kind idx width raw).resolveAll (s.affected kind idx)

/-! ### Commands -/

/-- `MCFG slot, fs` (rule R180). -/
def execMcfg (slot : BitVec 6) (rs1 : Reg) (s : State) : Host.Outcome State Fault Refusal :=
  ifLegal (.mcfg slot rs1) s (s.setSlot slot (Slot.ofDescriptor (s.reg rs1)))

/-- `MUPD.sf|.cc[.w] fidx, fval` (rule R182). -/
def execMupd (kind : Kind) (width : RawWidth) (rs1 rs2 : Reg) (s : State) : Host.Outcome State Fault Refusal :=
  done (s.notifyCtl kind (low7 (s.reg rs1)) width (s.regInt rs2))

/-- `MSUM gen` (rule R184). -/
def execMsum (gen : BitVec 6) (s : State) : Host.Outcome State Fault Refusal :=
  done (s.resolve gen)

/-- `MGET fd, slot` (rule R186). -/
def execMget (rd : Reg) (slot : BitVec 6) (s : State) : Host.Outcome State Fault Refusal :=
  ifLegal (.mget rd slot) s (s.setReg rd (s.slot slot).contrib)

/-- `MMATCH.sf|.cc fd, fidx, slot` (rule R187). -/
def execMmatch (kind : Kind) (rd rs1 : Reg) (slot : BitVec 6) (s : State) : Host.Outcome State Fault Refusal :=
  ifLegal (.mmatch kind rd rs1 slot) s
    (s.setReg rd (if (s.slot slot).matchesCtl kind (low7 (s.reg rs1)) then 1 else 0))

/-- `RDACC fd, gen` (rule R188). -/
def execRdacc (rd : Reg) (gen : BitVec 6) (s : State) : Host.Outcome State Fault Refusal :=
  done (s.setReg rd (s.accAt gen))

/-- `GEFF fd, fs, gen` (rule R189). -/
def execGeff (rd rs1 : Reg) (gen : BitVec 6) (s : State) : Host.Outcome State Fault Refusal :=
  done (s.setReg rd (sat64 (fadd (s.regInt rs1) (s.accAt gen).toInt)))

/-- `RDDIRTY fd` (rule R190): reads and clears in one step. -/
def execRddirty (rd : Reg) (s : State) : Host.Outcome State Fault Refusal :=
  done { s.setReg rd s.dirty with dirty := 0 }

/-- `MRDD fd, slot` (rule R191). -/
def execMrdd (rd : Reg) (slot : BitVec 6) (s : State) : Host.Outcome State Fault Refusal :=
  ifLegal (.mrdd rd slot) s
    (s.setReg rd (if (s.slot slot).valid then (s.slot slot).descriptor else 0))

end Sys2Proof.Machine
end

