-- ==== Sys2Proof/Machine/Utility.lean ====
section
/-! DEFINITION. Machine/Utility.lean: the utility commands (45_utility.md). -/

namespace Sys2Proof.Machine

/-- `NOP` (rule R210): nothing; the command counter is counted with every command. -/
def execNop (s : State) : Host.Outcome State Fault Refusal := done s

/-- `LI fd, imm` (rule R212). -/
def execLi (rd : Reg) (imm : BitVec 20) (s : State) : Host.Outcome State Fault Refusal :=
  done (s.setReg rd (immInt imm))

/-- `LIF fd, imm` (rule R213). -/
def execLif (rd : Reg) (imm : BitVec 20) (s : State) : Host.Outcome State Fault Refusal :=
  done (s.setReg rd (immFx imm))

/-- `MOV fd, fs` (rule R214). -/
def execMov (rd rs1 : Reg) (s : State) : Host.Outcome State Fault Refusal :=
  done (s.setReg rd (s.reg rs1))

/-- `FADD fd, fa, fb` (rule R215). -/
def execFadd (rd rs1 rs2 : Reg) (s : State) : Host.Outcome State Fault Refusal :=
  done (s.setReg rd (sat64 (fadd (s.regInt rs1) (s.regInt rs2))))

/-- `FSUB fd, fa, fb` (rule R216). -/
def execFsub (rd rs1 rs2 : Reg) (s : State) : Host.Outcome State Fault Refusal :=
  done (s.setReg rd (sat64 (fsub (s.regInt rs1) (s.regInt rs2))))

/-- `FMUL fd, fa, fb` (rule R217). -/
def execFmul (rd rs1 rs2 : Reg) (s : State) : Host.Outcome State Fault Refusal :=
  done (s.setReg rd (sat64 (fmul (s.regInt rs1) (s.regInt rs2))))

/-- `I2F fd, fs` (rule R218). -/
def execI2f (rd rs1 : Reg) (s : State) : Host.Outcome State Fault Refusal :=
  done (s.setReg rd (sat64 (fxOfInt (s.regInt rs1))))

/-- `F2I fd, fs` (rule R219): floor toward minus infinity. -/
def execF2i (rd rs1 : Reg) (s : State) : Host.Outcome State Fault Refusal :=
  done (s.setReg rd (sat64 (shr (s.regInt rs1) 32)))

/-- The voice state at its reset values, the rest kept (rule R220). -/
def State.initVoice (s : State) : State :=
  { s with
    vol := .reset
    menv := .reset
    vib := .reset
    mlfo := .reset
    mods := Vector.replicate 64 .empty
    acc := Vector.replicate 64 0
    dirty := 0 }

/-- `VINIT` (rule R220). -/
def execVinit (s : State) : Host.Outcome State Fault Refusal := done s.initVoice

end Sys2Proof.Machine
end

