-- ==== Sys2Proof/Machine/Dispatch.lean ====
section
/-! DEFINITION. Machine/Dispatch.lean: one arm per command of 30_encoding.md rule R75. -/

namespace Sys2Proof.Machine

def exec (i : Instr) (s : State) : Host.Outcome State Fault Refusal :=
  match i with
  | .nop => Sys2Proof.Machine.execNop s
  | .cb2r rd rs1 => Sys2Proof.Machine.execCb2r rd rs1 s
  | .k2hz rd rs1 => Sys2Proof.Machine.execK2hz rd rs1 s
  | .tc2s rd rs1 => Sys2Proof.Machine.execTc2s rd rs1 s
  | .ac2hz rd rs1 => Sys2Proof.Machine.execAc2hz rd rs1 s
  | .joinb rd rs1 rs2 => Sys2Proof.Machine.execJoinb rd rs1 rs2 s
  | .tblrd rd rs1 t => Sys2Proof.Machine.execTblrd rd rs1 t s
  | .esetp u stg rs1 => Sys2Proof.Machine.execEsetp u stg rs1 s
  | .esetks u stg rs1 rs2 rs3 => Sys2Proof.Machine.execEsetks u stg rs1 rs2 rs3 s
  | .eupd u rs1 => Sys2Proof.Machine.execEupd u rs1 s
  | .erel u => Sys2Proof.Machine.execErel u s
  | .efin u => Sys2Proof.Machine.execEfin u s
  | .eget rd u => Sys2Proof.Machine.execEget rd u s
  | .estg rd u => Sys2Proof.Machine.execEstg rd u s
  | .lsetd u rs1 => Sys2Proof.Machine.execLsetd u rs1 s
  | .lsetf u rs1 => Sys2Proof.Machine.execLsetf u rs1 s
  | .lupd u rs1 => Sys2Proof.Machine.execLupd u rs1 s
  | .lget rd u => Sys2Proof.Machine.execLget rd u s
  | .mcfg slot rs1 => Sys2Proof.Machine.execMcfg slot rs1 s
  | .mupd kind width rs1 rs2 => Sys2Proof.Machine.execMupd kind width rs1 rs2 s
  | .msum gen => Sys2Proof.Machine.execMsum gen s
  | .mget rd slot => Sys2Proof.Machine.execMget rd slot s
  | .mmatch kind rd rs1 slot => Sys2Proof.Machine.execMmatch kind rd rs1 slot s
  | .rdacc rd gen => Sys2Proof.Machine.execRdacc rd gen s
  | .geff rd rs1 gen => Sys2Proof.Machine.execGeff rd rs1 gen s
  | .rddirty rd => Sys2Proof.Machine.execRddirty rd s
  | .mrdd rd slot => Sys2Proof.Machine.execMrdd rd slot s
  | .li rd imm => Sys2Proof.Machine.execLi rd imm s
  | .lif rd imm => Sys2Proof.Machine.execLif rd imm s
  | .mov rd rs1 => Sys2Proof.Machine.execMov rd rs1 s
  | .fadd rd rs1 rs2 => Sys2Proof.Machine.execFadd rd rs1 rs2 s
  | .fsub rd rs1 rs2 => Sys2Proof.Machine.execFsub rd rs1 rs2 s
  | .fmul rd rs1 rs2 => Sys2Proof.Machine.execFmul rd rs1 rs2 s
  | .i2f rd rs1 => Sys2Proof.Machine.execI2f rd rs1 s
  | .f2i rd rs1 => Sys2Proof.Machine.execF2i rd rs1 s
  | .vinit => Sys2Proof.Machine.execVinit s

end Sys2Proof.Machine
end

