-- ==== Sys2Proof/Machine/Flags.lean ====
section
/-! DEFINITION. Machine/Flags.lean: the status and constant registers a host reads (10_state.md rules R31 to R36). PSC has no
arithmetic flags (rule R22): these are all there are. -/

namespace Sys2Proof.Machine

/-- `STATUS.VFIN` (rules R31, R32): the volume envelope is Finished. -/
def State.vfin (s : State) : Bool := s.vol.stg == .finished

/-- `STATUS.MFIN` (rule R31): the modulation envelope is Finished. -/
def State.mfin (s : State) : Bool := s.menv.stg == .finished

/-- `STATUS.DNZ` (rule R31): some destination waits to be dispatched. -/
def State.dnz (s : State) : Bool := s.dirty != 0

/-- `STATUS` (rule R31): bits 5 to 0 are `LRUN1`, `LRUN0`, `DNZ`, `MFIN`, `VFIN`, `ILL`; bits 31 to 6 read 0. -/
def statusWord (s : State) : BitVec 32 :=
  0#26 ++ BitVec.ofBool s.mlfo.run ++ BitVec.ofBool s.vib.run ++ BitVec.ofBool s.dnz
    ++ BitVec.ofBool s.mfin ++ BitVec.ofBool s.vfin ++ BitVec.ofBool s.ill

/-- The code of `LFO_SHAPE` (00_scope.md rule R4). -/
def shapeCode : LfoShape → BitVec 1
  | .saw => 0
  | .triangle => 1

/-- `PARAM` (rule R35): `NMOD` at 7:0, `KBANDS` at 15:8, `LFO_SHAPE` at 16, the rest 0. -/
def paramWord (p : Params) : BitVec 32 :=
  0#15 ++ shapeCode p.shape ++ BitVec.ofNat 8 p.kbands ++ BitVec.ofNat 8 p.nmod

/-- `ID` (rule R36): ASCII "PSC" and version 1. -/
def idWord : BitVec 32 := 0x50534301

end Sys2Proof.Machine
end

