-- ==== Sys2Proof/Machine/Window.lean ====
section
/-! DEFINITION. Machine/Window.lean: the host window (20_memory.md rules R52 to R58), the issue of a command (rule R60,
30_encoding.md rule R80) and the platform's reset input (70_reset_and_hazards.md rule R260). -/

namespace Sys2Proof.Machine

/-! ### Issuing a command -/

/-- An outcome with the command counted (30_encoding.md rule R80). -/
def counted (o : Host.Outcome State Fault Refusal) : Host.Outcome State Fault Refusal :=
  match o with
  | .next t => .next t.countCmd
  | .fault r => .fault r
  | .refused r => .refused r

/-- `execute(w)` (30_encoding.md rule R80): an illegal word raises IllegalCommand, a legal one has its effect, and either is
counted. -/
def issue (w : Cmd) (s : State) : Host.Outcome State Fault Refusal :=
  match decode s.params.nmod w with
  | .error _ => counted (done (s.raiseIllegal w))
  | .ok i => counted (exec i s)

/-! ### The window -/

/-- The supported accesses (rule R54): an aligned 64-bit access below `0x080`, an aligned 32-bit access anywhere. Every other
is unsupported (rule R55). -/
def supported (off : BitVec 8) (size : AccessSize) : Bool :=
  match size with
  | .b8 => decide (off.toNat < 0x80) && off.toNat % 8 == 0
  | .b4 => off.toNat % 4 == 0
  | .b2 => false
  | .b1 => false

/-- The register `f<i>` that holds a byte offset below `0x080` (rule R52). -/
def regAt (off : BitVec 8) : Reg := off.extractLsb' 3 4

/-- Whether an offset is in the high half of its register (rule R53). -/
def inHighHalf (off : BitVec 8) : Bool := off.getLsbD 2

/-- A 32-bit half of a register (rule R53): low word at `8i`, high word at `8i + 4`. -/
def halfOf (high : Bool) (v : Word) : BitVec 32 := if high then v.extractLsb' 32 32 else v.extractLsb' 0 32

/-- A register with one half replaced, the other unchanged (rule R54). -/
def setHalf (high : Bool) (v : Word) (x : BitVec 32) : Word :=
  if high then x ++ v.extractLsb' 0 32 else v.extractLsb' 32 32 ++ x

/-- The 32-bit register at an offset at or above `0x080` (rules R52, R58): 0 for `CMD` and reserved offsets. -/
def controlReg (s : State) (off : BitVec 8) : BitVec 32 :=
  if off = 0x84 then statusWord s
  else if off = 0x88 then s.illw
  else if off = 0x8C then s.cmdcnt
  else if off = 0x90 then idWord
  else if off = 0x94 then paramWord s.params
  else 0

/-- `MemRead(off, n)` (rule R54), zero-extended; an unsupported read returns 0 (rule R55; log 6). -/
def windowRead (s : State) (off : BitVec 8) (size : AccessSize) : Word :=
  if supported off size then
    if off.toNat < 0x80 then
      match size with
      | .b8 => s.reg (regAt off)
      | .b4 => (halfOf (inHighHalf off) (s.reg (regAt off))).setWidth 64
      | .b2 => 0
      | .b1 => 0
    else (controlReg s off).setWidth 64
  else 0

/-- A supported write to an operand register (rule R54). -/
def writeOperand (s : State) (off : BitVec 8) (size : AccessSize) (v : Word) : State :=
  match size with
  | .b8 => s.setReg (regAt off) v
  | .b4 => s.setReg (regAt off) (setHalf (inHighHalf off) (s.reg (regAt off)) (v.extractLsb' 0 32))
  | .b2 => s
  | .b1 => s

/-- `MemWrite(off, n, v)` (rule R54): an operand register, a command, the acknowledgement of `ILL`, or no effect (rules R55,
R58; log 6). -/
def windowWrite (s : State) (off : BitVec 8) (size : AccessSize) (v : Word) : Host.Outcome State Fault Refusal :=
  if supported off size then
    if off.toNat < 0x80 then done (writeOperand s off size v)
    else if off = 0x80 then issue (v.extractLsb' 0 32) s
    else if off = 0x84 then done (if v.getLsbD 0 then s.ackIllegal else s)
    else done s
  else done s

/-! ### Events -/

/-- The platform's reset input (70_reset_and_hazards.md rule R260): every piece of PSC's state at its reset value; the
constants `ID` and `PARAM` are not affected, nor is the host's side (log 2). -/
def State.platformReset (s : State) : State :=
  { State.reset with params := s.params, rdata := s.rdata, bus := s.bus }

/-- One event of the outside, served whole before the next (rules R57, R60, R61). -/
def serve (e : HostEvent) (s : State) : Host.Outcome State Fault Refusal :=
  match e with
  | .read off size => done (s.setRdata (windowRead s off size))
  | .write off size v => windowWrite s off size v
  | .reset => done s.platformReset

/-- The event that issues a command word: a 32-bit write to `CMD` (rule R60). -/
def commandEvent (w : Cmd) : HostEvent := .write 0x80 .b4 (w.setWidth 64)

/-- The command word of a row of the opcode table: bits at `nbits` and above are zero. -/
def tableCmd (nbits w : Nat) : Cmd := BitVec.ofNat 32 (w % 2 ^ nbits)

/-- One step: the oldest event the host has issued is served; with none, PSC is idle and keeps all state
(60_exceptions.md rule R250). -/
def stepOnce (s : State) : Host.Outcome State Fault Refusal :=
  match s.bus with
  | [] => .next s
  | e :: rest => serve e (s.withBus rest)

end Sys2Proof.Machine
end

