-- ==== Sys2Proof/Machine/Step.lean ====
section
/-! DEFINITION. Machine/Step.lean: the step of the machine, and how a command is placed where the next step takes it. -/

namespace Sys2Proof.Machine

/-- One step of PSC: the oldest of the host's accesses (20_memory.md rules R60, R61; log 1). -/
def step (s : State) : Host.Outcome State Fault Refusal := stepOnce s

/-- The state with the command of an opcode-table row issued first: PSC fetches nothing, so the word stands in a write to
`CMD` at the head of the host's accesses (10_state.md rule R21; log 1). -/
def State.withFetchWord (s : State) (nbits w : Nat) : State := s.withBus (commandEvent (tableCmd nbits w) :: s.bus)

end Sys2Proof.Machine
end

