-- ==== Sys2Proof/Safety.lean ====
section
/-! DEFINITION. Safety.lean: the terms the claims about PSC use: what stays the same, the legal values of the state
(10_state.md), and readings of the rules that are independent of how the machine computes them. -/

namespace Sys2Proof.Machine

/-! ### What a command leaves unchanged -/

/-- The operand registers are the same. -/
def SameRegs (s t : State) : Prop := ∀ r, t.reg r = s.reg r

/-- Both envelope units are the same. -/
def SameEnvs (s t : State) : Prop := ∀ u, t.env u = s.env u

/-- Both LFO units are the same. -/
def SameLfos (s t : State) : Prop := ∀ u, t.lfo u = s.lfo u

/-- Every modulator slot is the same. -/
def SameSlots (s t : State) : Prop := ∀ i, t.slot i = s.slot i

/-- Every accumulator entry and the dirty set are the same. -/
def SameSums (s t : State) : Prop := (∀ g, t.accAt g = s.accAt g) ∧ t.dirty = s.dirty

/-- `ILL`, `ILLW`, `CMDCNT` and the parameters are the same. -/
def SameControl (s t : State) : Prop :=
  t.ill = s.ill ∧ t.illw = s.illw ∧ t.cmdcnt = s.cmdcnt ∧ t.params = s.params

/-- The host's side is the same: what it last read and what it has issued. -/
def SameHost (s t : State) : Prop := t.rdata = s.rdata ∧ t.bus = s.bus

/-- `f[rd]` becomes `v` and nothing else changes. -/
def WritesReg (rd : Reg) (v : Word) (s t : State) : Prop :=
  t.reg rd = v ∧ (∀ r, r ≠ rd → t.reg r = s.reg r) ∧
    SameEnvs s t ∧ SameLfos s t ∧ SameSlots s t ∧ SameSums s t ∧ SameControl s t ∧ SameHost s t

/-- `ENV[u]` becomes `e` and nothing else changes. -/
def WritesEnv (u : EnvSel) (e : Envelope) (s t : State) : Prop :=
  t.env u = e ∧ (∀ x, x ≠ u → t.env x = s.env x) ∧
    SameRegs s t ∧ SameLfos s t ∧ SameSlots s t ∧ SameSums s t ∧ SameControl s t ∧ SameHost s t

/-- `LFO[u]` becomes `o` and nothing else changes. -/
def WritesLfo (u : LfoSel) (o : Lfo) (s t : State) : Prop :=
  t.lfo u = o ∧ (∀ x, x ≠ u → t.lfo x = s.lfo x) ∧
    SameRegs s t ∧ SameEnvs s t ∧ SameSlots s t ∧ SameSums s t ∧ SameControl s t ∧ SameHost s t

/-- `MOD[i]` becomes `m` and nothing else changes. -/
def WritesSlot (i : BitVec 6) (m : Slot) (s t : State) : Prop :=
  t.slot i = m ∧ (∀ j, j ≠ i → t.slot j = s.slot j) ∧
    SameRegs s t ∧ SameEnvs s t ∧ SameLfos s t ∧ SameSums s t ∧ SameControl s t ∧ SameHost s t

/-- `DUR[stg]` of an envelope becomes `v`, and its stage, its time, its levels and its other durations stay. -/
def SetsDuration (stg : Stage) (v : Word) (e e' : Envelope) : Prop :=
  e'.dur stg = v ∧ (∀ x, x ≠ stg → e'.dur x = e.dur x) ∧
    e'.stg = e.stg ∧ e'.t = e.t ∧ e'.sus = e.sus ∧ e'.rstart = e.rstart

/-! ### Command words -/

/-- The word decodes to the instruction on every instance on which the instruction is well formed. -/
def IsWordOf (w : Cmd) (i : Instr) : Prop := ∀ nmod, i.WellFormed nmod → decode nmod w = .ok i

/-- The next thing PSC serves is the command word `w`: a 32-bit write to `CMD` of data whose low half is `w`
(20_memory.md rule R60). -/
def State.NextCommand (s : State) (w : Cmd) : Prop :=
  ∃ data rest, s.bus = .write 0x80 .b4 data :: rest ∧ data.extractLsb' 0 32 = w

/-- The next thing PSC serves is the platform's reset input. -/
def State.NextReset (s : State) : Prop := ∃ rest, s.bus = .reset :: rest

/-- The range checks of 30_encoding.md rule R76 cases 3 to 6, on the bits of a word of a row. -/
def RangeChecks (nmod : Nat) (op : Opcode) (w : Cmd) : Prop :=
  match op with
  | .esetp => (w.extractLsb' 0 2).toNat < 2 ∧ (w.extractLsb' 4 3).toNat < 6
  | .esetks => (w.extractLsb' 0 2).toNat < 2 ∧ ((w.extractLsb' 4 3).toNat = 2 ∨ (w.extractLsb' 4 3).toNat = 3)
  | .eupd | .erel | .efin | .eget | .estg | .lsetd | .lsetf | .lupd | .lget => (w.extractLsb' 0 2).toNat < 2
  | .mcfg | .mget | .mmatch | .mrdd => (w.extractLsb' 0 6).toNat < nmod
  | .tblrd => (w.extractLsb' 0 2).toNat ≠ 3
  | .nop | .cb2r | .k2hz | .tc2s | .ac2hz | .joinb | .mupd | .msum | .rdacc | .geff | .rddirty => True
  | .li | .lif | .mov | .fadd | .fsub | .fmul | .i2f | .f2i | .vinit => True

/-! ### Legal values of the state (10_state.md) -/

/-- The legal values of an envelope unit (rule R24), with `T` 0 in Sustain and Finished. -/
def Envelope.Ok (e : Envelope) : Prop :=
  0 ≤ e.t.toInt ∧ (∀ stg, 0 ≤ (e.dur stg).toInt) ∧
    0 ≤ e.sus.toInt ∧ e.sus.toInt ≤ oneFx ∧ 0 ≤ e.rstart.toInt ∧ e.rstart.toInt ≤ oneFx ∧
    (e.stg = .sustain ∨ e.stg = .finished → e.t = 0)

/-- The legal values of an LFO unit (rule R26). -/
def Lfo.Ok (o : Lfo) : Prop := 0 ≤ o.dly.toInt ∧ 0 ≤ o.td.toInt

/-- The invariant of a slot (rule R28), with the ranges of its cached inputs (44_modulator.md rule R176). -/
def Slot.Ok (m : Slot) : Prop :=
  m.contrib = m.mac ∧ (m.valid = false → m = Slot.empty) ∧
    -oneFx ≤ m.srcv.toInt ∧ m.srcv.toInt ≤ oneFx ∧ -oneFx ≤ m.amtv.toInt ∧ m.amtv.toInt ≤ oneFx

/-- 2^53, the bound of 44_modulator.md rule R183 on an accumulator entry. -/
abbrev accBound : Int := 9007199254740992

/-- The invariant of PSC: legal parameters, legal units, the slot invariant, no slot beyond `NMOD` loaded, and every
accumulator entry within the bound of rule R183. -/
def State.Inv (s : State) : Prop :=
  s.params.Legal ∧ (∀ u, (s.env u).Ok) ∧ (∀ u, (s.lfo u).Ok) ∧ (∀ i, (s.slot i).Ok) ∧
    (∀ i, s.params.nmod ≤ i.toNat → s.slot i = Slot.empty) ∧
    (∀ g, -accBound ≤ (s.accAt g).toInt ∧ (s.accAt g).toInt ≤ accBound)

/-! ### Rules read independently of the machine's text -/

/-- `exp2c` before saturation (41_conversion.md rule R94), as ONE rational rounding: nearest, ties upward, of
`M × P × S × 2^(q - 126)`. The factor of `u` is `A_LN` as 49_rom_tables.md rule R234 writes it. -/
def expTarget (x scale : Int) : Int :=
  let n := x / 4294967296
  let u := 10655257204335546 * (x % 4294967296) / 4294967296
  let p := 18446744073709551616 + u + u * u / 36893488147419103232
  ⌊(((rom .e (n % 1200).toNat : Int) * p * scale : Int) : ℚ) * (2 : ℚ) ^ (n / 1200 - 126) + 1 / 2⌋

/-- The stage after a timed stage (42_envelope.md rule R125); the other stages are not timed. -/
def nextStage : Stage → Option Stage
  | .delay => some .attack
  | .attack => some .hold
  | .hold => some .decay
  | .decay => some .sustain
  | .release => some .finished
  | .sustain => none
  | .finished => none

/-- The while loop of `advance` (42_envelope.md rule R125) as a relation, with no bound on how often it turns. -/
inductive WhileAdvances : Envelope → Envelope → Prop where
  /-- The loop's condition is false: the stage is not timed, or its duration has not elapsed. -/
  | leave (e : Envelope) (h : nextStage e.stg = none ∨ e.t.toInt < (e.dur e.stg).toInt) : WhileAdvances e e
  /-- The stage has elapsed and the next one is timed: the excess is carried and the loop goes on. -/
  | turn (e e' : Envelope) (n : Stage) (hn : nextStage e.stg = some n) (hd : (e.dur e.stg).toInt ≤ e.t.toInt)
      (hm : n ≠ .sustain ∧ n ≠ .finished)
      (h : WhileAdvances { e with t := sat64 (e.t.toInt - (e.dur e.stg).toInt), stg := n } e') : WhileAdvances e e'
  /-- The stage has elapsed and the next one is Sustain or Finished, which hold no time: the loop ends. -/
  | last (e : Envelope) (n : Stage) (hn : nextStage e.stg = some n) (hd : (e.dur e.stg).toInt ≤ e.t.toInt)
      (hm : n = .sustain ∨ n = .finished) : WhileAdvances e { e with t := 0, stg := n }

/-- Progress through a timed stage (42_envelope.md rule R131), in units of 2^-32. -/
def progress (t d : Int) : Int := if d ≤ 0 then oneFx else min oneFx (t * 4294967296 / d)

/-- The exact sum of 44_modulator.md rule R183: over the slots of the instance that are valid and bound to `g`. -/
def boundSum (s : State) (g : BitVec 6) : Int :=
  ∑ i : Fin 64,
    if i.val < s.params.nmod ∧ (s.mods[i]).valid = true ∧ (s.mods[i]).dest = g then (s.mods[i]).contrib.toInt else 0

/-- Input `x` of a slot with the given `VALID` is bound to the controller (44_modulator.md rule R175). -/
def BoundTo (valid : Bool) (x : SlotInput) (kind : Kind) (idx : BitVec 7) : Prop :=
  valid = true ∧ x.pres = true ∧ x.kind = kind ∧ x.idx = idx

/-- Byte `a` of the little-endian image of `f0`..`f15` (20_memory.md rule R53): bits 7:0 of `f<i>` at `8i`. -/
def imageByte (s : State) (a : Nat) : BitVec 8 := (s.reg (BitVec.ofNat 4 (a / 8))).extractLsb' (8 * (a % 8)) 8

/-- Byte `k` of a bus value. -/
def busByte (v : Word) (k : Nat) : BitVec 8 := v.extractLsb' (8 * k) 8

/-- The number of bytes of an access. -/
def AccessSize.bytes : AccessSize → Nat
  | .b1 => 1
  | .b2 => 2
  | .b4 => 4
  | .b8 => 8

/-- The supported accesses to the operand registers (20_memory.md rule R54): aligned, of 4 or 8 bytes, below `0x080`. -/
def OperandAccess (off : BitVec 8) (size : AccessSize) : Prop :=
  off.toNat < 128 ∧ (size = .b4 ∧ off.toNat % 4 = 0 ∨ size = .b8 ∧ off.toNat % 8 = 0)

end Sys2Proof.Machine
end

