-- ==== Sys2Proof/Certificates/Slice0/Obligations.lean ====
section
/-! DEFINITION. Certificates/Slice0/Obligations.lean: the statements about PSC for the provers. Each docstring names the rules of
spec/ a statement formalises, or says that it is derived. -/

section Statements

open Sys2Proof Sys2Proof.Machine

/-! ### Encoding -/

/-- Every well-formed command, with every operand at every value, is read back from its own word (30_encoding.md rules R70,
R72, R75). -/
def Obligations.DecodeOfEncode : Prop :=
  ∀ (nmod : Nat) (i : Instr), i.WellFormed nmod → decode nmod (encode i) = .ok i

/-- Every word that decodes is the word of what it decodes to, and that is well formed: no two legal words mean one command
and no bit of a legal word is dropped (rule R78). -/
def Obligations.EncodeOfDecode : Prop :=
  ∀ (nmod : Nat) (w : Cmd) (i : Instr), decode nmod w = .ok i → encode i = w ∧ i.WellFormed nmod

/-- The word of a command that fails a range check is refused, with the check it fails (rule R76 cases 4 and 5). -/
def Obligations.IllFormedWordsRefused : Prop :=
  ∀ (nmod : Nat) (i : Instr) (c : IllegalCause), i.rangeFault nmod = some c → decode nmod (encode i) = .error c

/-- A word is legal exactly when some row of the opcode map has `w AND mask = match` and the row's range checks hold
(rules R74, R75, R76). -/
def Obligations.LegalWordsAreTheOpcodeMap : Prop :=
  ∀ (nmod : Nat) (w : Cmd),
    (∃ i, decode nmod w = .ok i) ↔
      ∃ op ∈ Opcode.all, w &&& op.row.mask = op.row.matchWord ∧ RangeChecks nmod op w

/-- Words written out from rule R75, one of each family, and the illegal words of rule R76. -/
def Obligations.SampleWordsDecode : Prop :=
  decode 64 0x00000000 = .ok .nop ∧
    decode 64 0x02210000 = .ok (.k2hz 2 1) ∧
    decode 64 0x06120002 = .ok (.tblrd 1 2 .e) ∧
    decode 64 0x11025630 = .ok (.esetks .vol .decay 2 5 6) ∧
    decode 64 0x16A00001 = .ok (.estg 10 .menv) ∧
    decode 64 0x22030001 = .ok (.lupd .mlfo 3) ∧
    decode 64 0x31023003 = .ok (.mupd .cc .w14 2 3) ∧
    decode 64 0x34C50042 = .ok (.mmatch .cc 12 5 2) ∧
    decode 64 0x402FFFFF = .ok (.li 2 0xFFFFF) ∧
    decode 64 0x7F000000 = .ok .vinit ∧
    decode 64 0x07000000 = .error .unknownOpcode ∧
    decode 64 0x00000001 = .error .reservedBit ∧
    decode 64 0x12010002 = .error .badUnit ∧
    decode 64 0x10010060 = .error .badStage ∧
    decode 2 0x30010002 = .error .badSlot ∧
    decode 64 0x06110003 = .error .badTable

/-! ### Issuing commands, the exception, the host window -/

/-- A step runs the decoded command: when the next event is a 32-bit write to `CMD` whose word decodes to `i`, and `i` answers
`t` in the state with that event taken, the step answers `t` with one more command counted, and nothing else (20_memory.md
rule R60, 30_encoding.md rule R80). -/
def Obligations.StepRunsTheDecodedCommand : Prop :=
  ∀ (s t : State) (data : Word) (rest : List HostEvent) (i : Instr),
    s.bus = .write 0x80 .b4 data :: rest →
    decode s.params.nmod (data.extractLsb' 0 32) = .ok i →
    exec i (s.withBus rest) = .next t →
    step s = .next { t with cmdcnt := t.cmdcnt + 1 }

/-- An illegal word sets `ILL`, is captured in `ILLW` only when `ILL` was 0, is counted, and changes nothing else
(60_exceptions.md rule R241). -/
def Obligations.IllegalCommandEffect : Prop :=
  ∀ (s : State) (data : Word) (rest : List HostEvent) (c : IllegalCause),
    s.bus = .write 0x80 .b4 data :: rest →
    decode s.params.nmod (data.extractLsb' 0 32) = .error c →
    ∃ t, step s = .next t ∧
      t.ill = true ∧ t.illw = (if s.ill then s.illw else data.extractLsb' 0 32) ∧ t.cmdcnt = s.cmdcnt + 1 ∧
      SameRegs s t ∧ SameEnvs s t ∧ SameLfos s t ∧ SameSlots s t ∧ SameSums s t ∧
      t.params = s.params ∧ t.rdata = s.rdata ∧ t.bus = rest

/-- THE MODEL'S CHOICE (log 14), derived from rule R76: a term that fails a range check raises IllegalCommand with its own
word, as the decoder's refusal of that word would. -/
def Obligations.IllFormedCommandsRaise : Prop :=
  ∀ (i : Instr) (s : State), ¬ i.WellFormed s.params.nmod →
    ∃ t, exec i s = .next t ∧
      t.ill = true ∧ t.illw = (if s.ill then s.illw else encode i) ∧ t.cmdcnt = s.cmdcnt ∧
      SameRegs s t ∧ SameEnvs s t ∧ SameLfos s t ∧ SameSlots s t ∧ SameSums s t ∧
      t.params = s.params ∧ SameHost s t

/-- No state, command or access ever stops PSC: every step answers a next state (derived from 60_exceptions.md rules R240,
R241). -/
def Obligations.NothingStopsPsc : Prop := ∀ s : State, ∃ t, step s = .next t

/-- Data never raises: `ILL` is set by a step only when that step issues a word that does not decode, and `ILLW` changes only
then or by reset (derived from 60_exceptions.md rules R240, R241). -/
def Obligations.OnlyIllegalWordsRaise : Prop :=
  ∀ s t : State, step s = .next t →
    (s.ill = false → t.ill = true →
      ∃ w c, s.NextCommand w ∧ decode s.params.nmod w = .error c ∧ t.illw = w) ∧
    (t.illw ≠ s.illw →
      s.NextReset ∨ ∃ w c, s.NextCommand w ∧ decode s.params.nmod w = .error c ∧ s.ill = false ∧ t.illw = w)

/-- THE MODEL'S CHOICE of what a step is with nothing issued (log 1), derived from 60_exceptions.md rule R250: PSC keeps all
state. -/
def Obligations.IdleKeepsAllState : Prop := ∀ s : State, s.bus = [] → step s = .next s

/-- A single read, whatever follows it, changes nothing but what the host has read, and a read that follows at the same offset
and size returns the same value (20_memory.md rule R57). Where the value stands is the model's choice (log 3). -/
def Obligations.ReadsChangeNothing : Prop :=
  ∀ (s : State) (off : BitVec 8) (size : AccessSize) (rest : List HostEvent),
    s.bus = .read off size :: rest →
    ∃ t, step s = .next t ∧ t = { s with bus := rest, rdata := t.rdata } ∧
      ∀ more, rest = .read off size :: more → step t = .next { s with bus := more, rdata := t.rdata }

/-- A supported read of an operand register returns the bytes of the little-endian image of `f0`..`f15` at its offset, and
zeros above them, and changes nothing else (20_memory.md rules R53, R54, R57). -/
def Obligations.OperandReadsAreTheByteImage : Prop :=
  ∀ (s : State) (off : BitVec 8) (size : AccessSize) (rest : List HostEvent),
    s.bus = .read off size :: rest → OperandAccess off size →
    ∃ t, step s = .next t ∧ t = { s with bus := rest, rdata := t.rdata } ∧
      ∀ k, k < 8 → busByte t.rdata k = if k < size.bytes then imageByte s (off.toNat + k) else 0

/-- A supported write of an operand register replaces the bytes of the image at its offset with the data's low bytes and leaves
every other byte, every unit and every control register as it was (20_memory.md rules R53, R54). -/
def Obligations.OperandWritesReplaceTheByteImage : Prop :=
  ∀ (s : State) (off : BitVec 8) (size : AccessSize) (data : Word) (rest : List HostEvent),
    s.bus = .write off size data :: rest → OperandAccess off size →
    ∃ t, step s = .next t ∧
      (∀ a, a < 128 →
        imageByte t a =
          if off.toNat ≤ a ∧ a < off.toNat + size.bytes then busByte data (a - off.toNat) else imageByte s a) ∧
      SameEnvs s t ∧ SameLfos s t ∧ SameSlots s t ∧ SameSums s t ∧ SameControl s t ∧
      t.rdata = s.rdata ∧ t.bus = rest

/-- What an aligned 32-bit read at or above `0x080` returns: `STATUS` bit by bit, `ILLW`, `CMDCNT`, `ID`, `PARAM`, and 0 for
`CMD` and the reserved offsets (10_state.md rules R31, R33 to R37, 20_memory.md rule R58). -/
def Obligations.ControlRegisterReads : Prop :=
  ∀ (s : State) (off : BitVec 8) (rest : List HostEvent),
    s.bus = .read off .b4 :: rest → 128 ≤ off.toNat → off.toNat % 4 = 0 →
    ∃ t v, step s = .next t ∧ t = { s with bus := rest, rdata := BitVec.setWidth 64 v } ∧
      if off = 0x84 then
        v.getLsbD 0 = s.ill ∧ (v.getLsbD 1 = true ↔ s.vol.stg = .finished) ∧
          (v.getLsbD 2 = true ↔ s.menv.stg = .finished) ∧ (v.getLsbD 3 = true ↔ s.dirty ≠ 0) ∧
          v.getLsbD 4 = s.vib.run ∧ v.getLsbD 5 = s.mlfo.run ∧ ∀ k, 6 ≤ k → v.getLsbD k = false
      else if off = 0x88 then v = s.illw
      else if off = 0x8C then v = s.cmdcnt
      else if off = 0x90 then v = 0x50534301
      else if off = 0x94 then
        v.extractLsb' 0 8 = BitVec.ofNat 8 s.params.nmod ∧ v.extractLsb' 8 8 = BitVec.ofNat 8 s.params.kbands ∧
          (v.getLsbD 16 = true ↔ s.params.shape = .triangle) ∧ ∀ k, 17 ≤ k → v.getLsbD k = false
      else v = (0 : BitVec 32)

/-- What an aligned 32-bit write above `CMD` does: writing 1 to bit 0 of `STATUS` clears `ILL` and leaves `ILLW`; every other
write has no effect (10_state.md rule R31, 20_memory.md rule R58, 60_exceptions.md rule R244). -/
def Obligations.ControlRegisterWrites : Prop :=
  ∀ (s : State) (off : BitVec 8) (data : Word) (rest : List HostEvent),
    s.bus = .write off .b4 data :: rest → 128 < off.toNat → off.toNat % 4 = 0 →
    ∃ t, step s = .next t ∧ t.ill = (if off = 0x84 ∧ data.getLsbD 0 = true then false else s.ill) ∧
      t = { s with bus := rest, ill := t.ill }

/-- The platform's reset input puts every piece of state to its reset value and leaves the parameters (70_reset_and_hazards.md
rule R260). That the host's side is untouched is the model's choice (log 2). -/
def Obligations.PlatformResetEffect : Prop :=
  ∀ (s : State) (rest : List HostEvent), s.bus = .reset :: rest →
    step s = .next { State.reset with params := s.params, rdata := s.rdata, bus := rest }

/-- The reset value of every piece of state the spec gives the machine (10_state.md rule R38). -/
def Obligations.ResetValues : Prop :=
  let s := State.reset
  (∀ r, s.reg r = 0) ∧
    (∀ u, (s.env u).stg = .delay ∧ (s.env u).t = 0 ∧ (∀ stg, (s.env u).dur stg = 0) ∧
      (s.env u).sus = 0 ∧ (s.env u).rstart = 0) ∧
    (∀ u, (s.lfo u).dly = 0 ∧ (s.lfo u).frq = 0 ∧ (s.lfo u).td = 0 ∧ (s.lfo u).run = false ∧ (s.lfo u).ph = 0) ∧
    (∀ i, (s.slot i).valid = false ∧ (s.slot i).descriptor = 0 ∧ (s.slot i).srcv = 0 ∧ (s.slot i).amtv = 0 ∧
      (s.slot i).contrib = 0) ∧
    (∀ g, s.accAt g = 0) ∧ s.dirty = 0 ∧ s.ill = false ∧ s.illw = 0 ∧ s.cmdcnt = 0 ∧
    idWord = 0x50534301 ∧ paramWord s.params = 0x00000C40

/-- `CMDCNT` counts every command written to `CMD`, legal and illegal, modulo 2^32; reset clears it; nothing else changes it
(10_state.md rule R34). -/
def Obligations.CommandsAreCounted : Prop :=
  ∀ s t : State, step s = .next t →
    ((∃ w, s.NextCommand w) → t.cmdcnt = s.cmdcnt + 1) ∧
    (s.NextReset → t.cmdcnt = 0) ∧
    ((¬ ∃ w, s.NextCommand w) → ¬ s.NextReset → t.cmdcnt = s.cmdcnt)

/-! ### The whole machine -/

/-- Every step, from any state that satisfies the invariant, answers a state that satisfies it (10_state.md rules R24, R26, R28,
44_modulator.md rule R183). -/
def Obligations.StepKeepsTheInvariant : Prop :=
  ∀ s t : State, s.Inv → step s = .next t → t.Inv

/-- The state after reset satisfies the invariant. -/
def Obligations.ResetSatisfiesTheInvariant : Prop := State.reset.Inv

/-- An accumulator entry changes only by being recomputed: after any step of any state it is what it was, or it is the sum over
exactly the slots then bound to it (10_state.md rule R29, 44_modulator.md rules R183, R192). -/
def Obligations.AccumulatorOnlyRecomputed : Prop :=
  ∀ (s t : State) (g : BitVec 6), step s = .next t →
    t.accAt g = s.accAt g ∨ t.accAt g = sat64 (boundSum t g)

/-- The dirty set: an entry that changes is marked, unless the step is a `VINIT` or a reset; a mark goes away only by `RDDIRTY`,
`VINIT` or a reset (10_state.md rule R30). -/
def Obligations.DirtySetTracksRecomputation : Prop :=
  ∀ (s t : State) (g : BitVec 6), step s = .next t →
    ¬ s.NextReset → ¬ s.NextCommand 0x7F000000 →
    (t.accAt g ≠ s.accAt g → t.dirtyAt g = true) ∧
    (s.dirtyAt g = true → t.dirtyAt g = false →
      ∃ (rd : Reg) (w : Cmd), s.NextCommand w ∧ w = 0x37#8 ++ rd ++ 0#20 ∧ t.reg rd = s.dirty ∧ t.dirty = 0)

/-- Finished is terminal and the stage never goes back: in every step but a `VINIT` command and a reset, from a state that
satisfies the invariant, no unit's stage code decreases, and a unit in Finished keeps its stage and its time (42_envelope.md
rule R121). -/
def Obligations.FinishedIsTerminal : Prop :=
  ∀ (s t : State) (u : EnvSel), s.Inv → step s = .next t →
    ¬ s.NextReset → ¬ s.NextCommand 0x7F000000 →
    (s.env u).stg.code.toNat ≤ (t.env u).stg.code.toNat ∧
    ((s.env u).stg = .finished → (t.env u).stg = .finished ∧ (t.env u).t = (s.env u).t)

/-- A running LFO runs on: in every step but a `VINIT` command and a reset, `RUN` once set stays set and `TD` stops counting
(derived from 43_lfo.md rules R152, R156). -/
def Obligations.RunningLfoRunsOn : Prop :=
  ∀ (s t : State) (u : LfoSel), step s = .next t →
    ¬ s.NextReset → ¬ s.NextCommand 0x7F000000 → (s.lfo u).run = true →
    (t.lfo u).run = true ∧ (t.lfo u).td = (s.lfo u).td

/-! ### Conversion engines (41_conversion.md) -/

/-- `CB2R` (rule R91): 1.0 at and below 0 centibels, 0.0 at and above 1441, the table word of the truncated centibels between;
nothing but `f[rd]` changes. -/
def Obligations.CB2RLooksUpTheRatio : Prop :=
  ∀ (rd rs1 : Reg) (s : State),
    IsWordOf (0x01#8 ++ rd ++ rs1 ++ 0#16) (.cb2r rd rs1) ∧
    ∃ t, exec (.cb2r rd rs1) s = .next t ∧
      WritesReg rd
        (BitVec.ofInt 64
          (if s.regInt rs1 ≤ 0 then 4294967296
           else if 1441 * 4294967296 ≤ s.regInt rs1 then 0
           else (tCb.getD (s.regInt rs1 / 4294967296).toNat 0 : Int))) s t

/-- `CB2R` never rises with its operand and stays in `[0, 1.0]` (derived from rules R91, R231). -/
def Obligations.CB2RIsAntitone : Prop :=
  ∀ x y : Int, x ≤ y →
    centibelToRatio y ≤ centibelToRatio x ∧ 0 ≤ centibelToRatio y ∧ centibelToRatio x ≤ oneFx

/-- `K2HZ` (rules R92, R93): 1.0 below key 0 and from the top band up; else the key's whole cents fold into band `k` at table
index `i`, where band 0 is `[0, 900)` and band `k ≥ 1` is `[900 + 1200(k-1), 900 + 1200k)`, and the word doubles `k` times. -/
def Obligations.K2HZFoldsIntoBands : Prop :=
  ∀ (rd rs1 : Reg) (s : State),
    IsWordOf (0x02#8 ++ rd ++ rs1 ++ 0#16) (.k2hz rd rs1) ∧
    ∃ t v, exec (.k2hz rd rs1) s = .next t ∧ WritesReg rd (sat64 v) s t ∧
      if s.regInt rs1 < 0 then v = oneFx
      else
        ∃ (c : Int) (k i : Nat), c * 4294967296 ≤ s.regInt rs1 * 100 ∧ s.regInt rs1 * 100 < (c + 1) * 4294967296 ∧
          c = 1200 * (k : Int) + i - 300 ∧ i < 1200 ∧
          v = if s.params.kbands ≤ k then oneFx else (tK.getD i 0 : Int) * 2 ^ k

/-- One octave up is exactly twice the frequency, bit for bit, whenever both keys lie below the top band (rule R93), on any
legal instance: neither the frequency nor its double saturates, so the register results double too. -/
def Obligations.K2HZDoublesPerOctave : Prop :=
  ∀ (kbands : Nat) (x : Int), kbands ≤ 20 → 0 ≤ x → keyBand (keyCents (x + 12 * 4294967296)) < kbands →
    keyToHeltz kbands (x + 12 * 4294967296) = 2 * keyToHeltz kbands x ∧
      (sat64 (keyToHeltz kbands x)).toInt = keyToHeltz kbands x ∧
      (sat64 (keyToHeltz kbands (x + 12 * 4294967296))).toInt = keyToHeltz kbands (x + 12 * 4294967296)

/-- `TC2S` and `AC2HZ` (rules R94, R96, R97): both write the one exponential engine's value, the product of the table word, the
second-degree polynomial and the scale at its binary point, rounded to nearest once, then saturated. -/
def Obligations.ExponentialEnginesRoundOnce : Prop :=
  ∀ (rd rs1 : Reg) (s : State),
    (IsWordOf (0x03#8 ++ rd ++ rs1 ++ 0#16) (.tc2s rd rs1) ∧
      ∃ t, exec (.tc2s rd rs1) s = .next t ∧
        WritesReg rd (sat64 (expTarget (s.regInt rs1) 4294967296)) s t) ∧
    (IsWordOf (0x04#8 ++ rd ++ rs1 ++ 0#16) (.ac2hz rd rs1) ∧
      ∃ t, exec (.ac2hz rd rs1) s = .next t ∧
        WritesReg rd (sat64 (expTarget (s.regInt rs1) 35115652612)) s t)

/-- `JOINB` (rule R98) joins two 7-bit halves; `TBLRD` (rule R100) reads a table word by an INT index, 0 out of range. -/
def Obligations.JoinbAndTblrdResults : Prop :=
  (∀ (rd rs1 rs2 : Reg) (s : State),
    IsWordOf (0x05#8 ++ rd ++ rs1 ++ rs2 ++ 0#12) (.joinb rd rs1 rs2) ∧
    ∃ t, exec (.joinb rd rs1 rs2) s = .next t ∧
      WritesReg rd (BitVec.ofInt 64 (s.regInt rs1 % 128 * 128 + s.regInt rs2 % 128)) s t) ∧
  ∀ (rd rs1 : Reg) (tb : Table) (s : State),
    IsWordOf (0x06#8 ++ rd ++ rs1 ++ 0#14 ++ tb.code) (.tblrd rd rs1 tb) ∧
    ∃ t, exec (.tblrd rd rs1 tb) s = .next t ∧
      WritesReg rd
        (if 0 ≤ s.regInt rs1 ∧ s.regInt rs1 < (if tb = .cb then 1441 else 1200) then
          BitVec.ofNat 64 ((match tb with | .cb => tCb | .k => tK | .e => tE).getD (s.regInt rs1).toNat 0)
        else 0) s t

/-- The ROM against its formulas (49_rom_tables.md rules R231, R232, R233), word `p.1` at index `p.2` of each table. `X` nearest
to a root is said without roots, as `(2X - 1)^n < (2 × root)^n < (2X + 1)^n`. -/
def Obligations.RomWordsAreNearestToTheirFormulas : Prop :=
  tCb.length = 1441 ∧ tK.length = 1200 ∧ tE.length = 1200 ∧
    (∀ p ∈ tCb.zipIdx,
      (2 * p.1 - 1) ^ 200 * 10 ^ p.2 < (2 ^ 33) ^ 200 ∧ (2 ^ 33) ^ 200 < (2 * p.1 + 1) ^ 200 * 10 ^ p.2) ∧
    (∀ p ∈ tK.zipIdx,
      (2 * p.1 - 1) ^ 1200 < (55 * 2 ^ 30) ^ 1200 * 2 ^ p.2 ∧ (55 * 2 ^ 30) ^ 1200 * 2 ^ p.2 < (2 * p.1 + 1) ^ 1200) ∧
    (∀ p ∈ tE.zipIdx,
      (2 * p.1 - 1) ^ 1200 < (2 ^ 63) ^ 1200 * 2 ^ p.2 ∧ (2 ^ 63) ^ 1200 * 2 ^ p.2 < (2 * p.1 + 1) ^ 1200)

/-! ### Envelopes (42_envelope.md) -/

/-- `ESETP` (rule R122): in every stage a unit may be in, Finished included, a Sustain level is clamped to `[0, ONE]`, a duration
below 0 is read as 0; stage, time and release start stay. -/
def Obligations.EsetpSetsOneParameter : Prop :=
  ∀ (u : EnvSel) (stg : Stage) (rs1 : Reg) (s : State), stg ≠ .finished →
    IsWordOf (0x10#8 ++ 0#4 ++ rs1 ++ 0#9 ++ stg.code ++ 0#2 ++ u.code) (.esetp u stg rs1) ∧
    ∃ t e, exec (.esetp u stg rs1) s = .next t ∧ WritesEnv u e s t ∧
      if stg = .sustain then
        e = { s.env u with sus := BitVec.ofInt 64 (min (max (s.regInt rs1) 0) oneFx) }
      else SetsDuration stg (BitVec.ofInt 64 (max (s.regInt rs1) 0)) (s.env u) e

/-- `ESETKS` (rules R123, R124): a Hold or Decay duration from timecents, a scale per key and the key, added in timecents before
the conversion to seconds. -/
def Obligations.EsetksScalesByKey : Prop :=
  ∀ (u : EnvSel) (stg : Stage) (rs1 rs2 rs3 : Reg) (s : State), stg = .hold ∨ stg = .decay →
    IsWordOf (0x11#8 ++ 0#4 ++ rs1 ++ rs2 ++ rs3 ++ 0#1 ++ stg.code ++ 0#2 ++ u.code) (.esetks u stg rs1 rs2 rs3) ∧
    ∃ t e, exec (.esetks u stg rs1 rs2 rs3) s = .next t ∧ WritesEnv u e s t ∧
      SetsDuration stg
        (sat64 (expTarget
          (satInt (s.regInt rs1 +
            satInt (s.regInt rs2 * satInt (60 * 4294967296 - s.regInt rs3) / 4294967296))) 4294967296))
        (s.env u) e

/-- `EUPD` (rules R125, R126): nothing for `dt ≤ 0` or in Sustain or Finished; else `T` grows by `dt`, saturating, and the while
loop of rule R125 runs until its condition is false. -/
def Obligations.EupdRunsTheLoop : Prop :=
  ∀ (u : EnvSel) (rs1 : Reg) (s : State),
    IsWordOf (0x12#8 ++ 0#4 ++ rs1 ++ 0#14 ++ u.code) (.eupd u rs1) ∧
    ∃ t e, exec (.eupd u rs1) s = .next t ∧ WritesEnv u e s t ∧
      if s.regInt rs1 ≤ 0 ∨ (s.env u).stg = .sustain ∨ (s.env u).stg = .finished then e = s.env u
      else WhileAdvances { s.env u with t := sat64 ((s.env u).t.toInt + s.regInt rs1) } e

/-- `EREL` (rule R128) and `EFIN` (rule R130): release from a live stage keeps the value `EGET` would read as the release start;
release in Release or Finished does nothing; finish is unconditional. -/
def Obligations.ErelAndEfinEffects : Prop :=
  ∀ (u : EnvSel) (s : State),
    (IsWordOf (0x13#8 ++ 0#22 ++ u.code) (.erel u) ∧
      ∃ t, exec (.erel u) s = .next t ∧
        WritesEnv u
          (if (s.env u).stg = .release ∨ (s.env u).stg = .finished then s.env u
           else { s.env u with stg := .release, t := 0, rstart := sat64 (s.env u).eval }) s t) ∧
    (IsWordOf (0x14#8 ++ 0#22 ++ u.code) (.efin u) ∧
      ∃ t, exec (.efin u) s = .next t ∧ WritesEnv u { s.env u with stg := .finished, t := 0 } s t)

/-- `EGET` (rules R131, R132): the value of the stage the unit is in; no unit changes. -/
def Obligations.EgetReturnsTheStageValue : Prop :=
  ∀ (rd : Reg) (u : EnvSel) (s : State),
    IsWordOf (0x15#8 ++ rd ++ 0#18 ++ u.code) (.eget rd u) ∧
    ∃ t v, exec (.eget rd u) s = .next t ∧ WritesReg rd (sat64 v) s t ∧
      v =
        match (s.env u).stg with
        | .delay => 0
        | .attack => progress (s.env u).t.toInt (s.env u).durAttack.toInt
        | .hold => oneFx
        | .decay =>
          oneFx -
            satInt ((oneFx - (s.env u).sus.toInt) * progress (s.env u).t.toInt (s.env u).durDecay.toInt / 4294967296)
        | .sustain => (s.env u).sus.toInt
        | .release =>
          (s.env u).rstart.toInt -
            satInt ((s.env u).rstart.toInt * progress (s.env u).t.toInt (s.env u).durRelease.toInt / 4294967296)
        | .finished => 0

/-- `ESTG` (rule R134): the stage code, 0..6. -/
def Obligations.EstgReturnsTheStageCode : Prop :=
  ∀ (rd : Reg) (u : EnvSel) (s : State),
    IsWordOf (0x16#8 ++ rd ++ 0#18 ++ u.code) (.estg rd u) ∧
    ∃ t, exec (.estg rd u) s = .next t ∧
      WritesReg rd
        (match (s.env u).stg with
          | .delay => 0 | .attack => 1 | .hold => 2 | .decay => 3 | .sustain => 4 | .release => 5 | .finished => 6) s t

/-- The value of a unit with legal fields is in `[0, ONE]` (rule R131). -/
def Obligations.EnvelopeValueInRange : Prop :=
  ∀ e : Envelope, e.Ok → 0 ≤ e.eval ∧ e.eval ≤ oneFx

/-- The splitting property (rule R127) as far as it holds: with the unit's time below saturation, two ticks are one. Derived:
the premise on the time is not the rule's (log 15). -/
def Obligations.TicksMaySplitBelowSaturation : Prop :=
  ∀ (s : State) (u : EnvSel) (ra rb rc : Reg), (s.env u).Ok →
    0 < s.regInt ra → 0 < s.regInt rb → s.regInt rc = s.regInt ra + s.regInt rb →
    (s.env u).t.toInt + s.regInt rc ≤ maxFx →
    ∃ t1 t2, exec (.eupd u ra) s = .next t1 ∧ exec (.eupd u rb) t1 = .next t2 ∧ exec (.eupd u rc) s = .next t2

/-- The splitting property as rule R127 words it, for every state that satisfies the invariant. It FAILS where the first tick
saturates the time (log 15). -/
def Obligations.TicksMaySplitAsWorded : Prop :=
  ∀ (s : State) (u : EnvSel) (ra rb rc : Reg), s.Inv →
    0 < s.regInt ra → 0 < s.regInt rb → s.regInt rc = s.regInt ra + s.regInt rb →
    ∃ t1 t2, exec (.eupd u ra) s = .next t1 ∧ exec (.eupd u rb) t1 = .next t2 ∧ exec (.eupd u rc) s = .next t2

/-- Release without a jump (rule R128) as far as it holds: with a positive Release duration, the value after `EREL` is the value
before it. Derived: the premise on the duration is not the rule's (log 16). -/
def Obligations.ReleaseIsContinuous : Prop :=
  ∀ (s t : State) (u : EnvSel), (s.env u).Ok → 0 < (s.env u).durRelease.toInt →
    exec (.erel u) s = .next t → (t.env u).eval = (s.env u).eval

/-! ### LFOs (43_lfo.md) -/

/-- `LSETD` (rule R152) and `LSETF` (rule R154) change one field and never the phase. -/
def Obligations.LsetdAndLsetfKeepThePhase : Prop :=
  ∀ (u : LfoSel) (rs1 : Reg) (s : State),
    (IsWordOf (0x20#8 ++ 0#4 ++ rs1 ++ 0#14 ++ u.code) (.lsetd u rs1) ∧
      ∃ t, exec (.lsetd u rs1) s = .next t ∧
        WritesLfo u { s.lfo u with dly := BitVec.ofInt 64 (max (s.regInt rs1) 0) } s t) ∧
    (IsWordOf (0x21#8 ++ 0#4 ++ rs1 ++ 0#14 ++ u.code) (.lsetf u rs1) ∧
      ∃ t, exec (.lsetf u rs1) s = .next t ∧ WritesLfo u { s.lfo u with frq := s.reg rs1 } s t)

/-- `LUPD` (rule R156): nothing for `dt ≤ 0`; a running unit turns by all of `dt`; a unit in its delay counts `dt`, and if that
reaches the delay it runs and turns by the part past the delay. Whole cycles are dropped. -/
def Obligations.LupdCountsThenTurns : Prop :=
  ∀ (u : LfoSel) (rs1 : Reg) (s : State),
    IsWordOf (0x22#8 ++ 0#4 ++ rs1 ++ 0#14 ++ u.code) (.lupd u rs1) ∧
    ∃ t o, exec (.lupd u rs1) s = .next t ∧ WritesLfo u o s t ∧
      o.dly = (s.lfo u).dly ∧ o.frq = (s.lfo u).frq ∧
      if s.regInt rs1 ≤ 0 then o = s.lfo u
      else if (s.lfo u).run then
        o.run = true ∧ o.td = (s.lfo u).td ∧
          (o.ph.toNat : Int) =
            ((s.lfo u).ph.toNat + (s.lfo u).frq.toInt * s.regInt rs1 / 4294967296) % 4294967296
      else
        o.td.toInt = min ((s.lfo u).td.toInt + s.regInt rs1) maxFx ∧
          if o.td.toInt < (s.lfo u).dly.toInt then o.run = false ∧ o.ph = (s.lfo u).ph
          else
            o.run = true ∧
              (o.ph.toNat : Int) =
                ((s.lfo u).ph.toNat +
                  (s.lfo u).frq.toInt * (o.td.toInt - (s.lfo u).dly.toInt) / 4294967296) % 4294967296

/-- `LGET` (rules R151, R158): 0 until the unit runs, then the waveform of the instance's shape at the phase, which is bipolar,
starts at 0 and, for the sawtooth, never reaches 1.0. -/
def Obligations.LgetSamplesTheWave : Prop :=
  ∀ (rd : Reg) (u : LfoSel) (s : State),
    IsWordOf (0x23#8 ++ rd ++ 0#18 ++ u.code) (.lget rd u) ∧
    ∃ t v, exec (.lget rd u) s = .next t ∧ WritesReg rd (BitVec.ofInt 64 v) s t ∧
      -oneFx ≤ v ∧ (if s.params.shape = .saw then v < oneFx else v ≤ oneFx) ∧
      ((s.lfo u).ph = 0 → v = 0) ∧
      v =
        if (s.lfo u).run = false then 0
        else
          match s.params.shape with
          | .saw => 2 * ((((s.lfo u).ph.toNat : Int) + 2147483648) % 4294967296) - 4294967296
          | .triangle =>
            if (s.lfo u).ph.toNat < 1073741824 then 4 * ((s.lfo u).ph.toNat : Int)
            else if (s.lfo u).ph.toNat < 3221225472 then 8589934592 - 4 * ((s.lfo u).ph.toNat : Int)
            else 4 * ((s.lfo u).ph.toNat : Int) - 17179869184

/-! ### Modulators (44_modulator.md) -/

/-- `MCFG` (rules R171, R180): bit 39 clear empties the slot; set, it loads every field from its bits of the descriptor, with a
bound primary source at 0, an unbound one and the amount source at 1.0, and the contribution computed at once. `ACC` and
`DIRTY` stay. -/
def Obligations.McfgLoadsTheDescriptor : Prop :=
  ∀ (slot : BitVec 6) (rs1 : Reg) (s : State), slot.toNat < s.params.nmod →
    IsWordOf (0x30#8 ++ 0#4 ++ rs1 ++ 0#10 ++ slot) (.mcfg slot rs1) ∧
    ∃ t m, exec (.mcfg slot rs1) s = .next t ∧ WritesSlot slot m s t ∧
      if (s.reg rs1).getLsbD 39 = false then m = Slot.empty
      else
        m.valid = true ∧
          m.src.idx = (s.reg rs1).extractLsb' 0 7 ∧ (m.src.kind = .cc ↔ (s.reg rs1).getLsbD 7 = true) ∧
          m.src.curve.code = (s.reg rs1).extractLsb' 8 2 ∧ (m.src.pol = .bipolar ↔ (s.reg rs1).getLsbD 10 = true) ∧
          (m.src.dir = .negative ↔ (s.reg rs1).getLsbD 11 = true) ∧ m.src.pres = (s.reg rs1).getLsbD 12 ∧
          m.amt.idx = (s.reg rs1).extractLsb' 16 7 ∧ (m.amt.kind = .cc ↔ (s.reg rs1).getLsbD 23 = true) ∧
          m.amt.curve.code = (s.reg rs1).extractLsb' 24 2 ∧ (m.amt.pol = .bipolar ↔ (s.reg rs1).getLsbD 26 = true) ∧
          (m.amt.dir = .negative ↔ (s.reg rs1).getLsbD 27 = true) ∧ m.amt.pres = (s.reg rs1).getLsbD 28 ∧
          m.dest = (s.reg rs1).extractLsb' 32 6 ∧ m.amount = (s.reg rs1).extractLsb' 48 16 ∧
          m.srcv.toInt = (if m.src.pres then 0 else oneFx) ∧ m.amtv.toInt = oneFx ∧
          m.contrib.toInt = if m.src.pres then 0 else m.amount.toInt * 4294967296

/-- `MRDD` after `MCFG` returns the descriptor with every reserved bit 0, or 0 for a descriptor whose `VALID` bit is clear
(derived from rules R171, R180, R191). -/
def Obligations.DescriptorReadsBack : Prop :=
  ∀ (slot : BitVec 6) (rs1 rd : Reg) (s : State), slot.toNat < s.params.nmod →
    ∃ t1 t2, exec (.mcfg slot rs1) s = .next t1 ∧ exec (.mrdd rd slot) t1 = .next t2 ∧
      t2.reg rd = if (s.reg rs1).getLsbD 39 then s.reg rs1 &&& 0xFFFF00BF1FFF1FFF else 0

/-- `MRDD` (rule R191): 0 for an empty slot, else the word of rule R171 built from the slot's fields, reserved bits 0; nothing
but `f[rd]` changes. -/
def Obligations.MrddReturnsTheFields : Prop :=
  ∀ (rd : Reg) (slot : BitVec 6) (s : State), slot.toNat < s.params.nmod →
    IsWordOf (0x38#8 ++ rd ++ 0#14 ++ slot) (.mrdd rd slot) ∧
    ∃ t v, exec (.mrdd rd slot) s = .next t ∧ WritesReg rd v s t ∧
      if (s.slot slot).valid = false then v = 0
      else
        v.extractLsb' 0 7 = (s.slot slot).src.idx ∧ v.extractLsb' 7 1 = (s.slot slot).src.kind.code ∧
          v.extractLsb' 8 2 = (s.slot slot).src.curve.code ∧ v.extractLsb' 10 1 = polCode (s.slot slot).src.pol ∧
          v.extractLsb' 11 1 = (s.slot slot).src.dir.code ∧ v.getLsbD 12 = (s.slot slot).src.pres ∧
          v.extractLsb' 13 3 = 0 ∧
          v.extractLsb' 16 7 = (s.slot slot).amt.idx ∧ v.extractLsb' 23 1 = (s.slot slot).amt.kind.code ∧
          v.extractLsb' 24 2 = (s.slot slot).amt.curve.code ∧ v.extractLsb' 26 1 = polCode (s.slot slot).amt.pol ∧
          v.extractLsb' 27 1 = (s.slot slot).amt.dir.code ∧ v.getLsbD 28 = (s.slot slot).amt.pres ∧
          v.extractLsb' 29 3 = 0 ∧ v.extractLsb' 32 6 = (s.slot slot).dest ∧ v.getLsbD 38 = false ∧
          v.getLsbD 39 = true ∧ v.extractLsb' 40 8 = 0 ∧ v.extractLsb' 48 16 = (s.slot slot).amount

/-- `MUPD` (rules R175, R182): every slot of the instance with a matching input takes the normalised value in each matching input
and recomputes its contribution; every other slot stays; every destination of a matching slot is recomputed from the new
contributions and marked dirty; every other entry and mark stays, and so does all else. -/
def Obligations.MupdUpdatesTheMatchingSlots : Prop :=
  ∀ (kind : Kind) (width : RawWidth) (rs1 rs2 : Reg) (s : State),
    IsWordOf (0x31#8 ++ 0#4 ++ rs1 ++ rs2 ++ 0#10 ++ width.code ++ kind.code) (.mupd kind width rs1 rs2) ∧
    ∃ t, exec (.mupd kind width rs1 rs2) s = .next t ∧
      SameRegs s t ∧ SameEnvs s t ∧ SameLfos s t ∧ SameControl s t ∧ SameHost s t ∧
      let idx : BitVec 7 := BitVec.ofInt 7 (s.regInt rs1 % 128)
      let hitS := fun i => BoundTo (s.slot i).valid (s.slot i).src kind idx
      let hitA := fun i => BoundTo (s.slot i).valid (s.slot i).amt kind idx
      let hit := fun i : BitVec 6 => i.toNat < s.params.nmod ∧ (hitS i ∨ hitA i)
      (∀ i, ¬ hit i → t.slot i = s.slot i) ∧
      (∀ i, hit i →
        (hitS i → (t.slot i).srcv = sat64 ((s.slot i).src.norm width (s.regInt rs2))) ∧
        (¬ hitS i → (t.slot i).srcv = (s.slot i).srcv) ∧
        (hitA i → (t.slot i).amtv = sat64 ((s.slot i).amt.norm width (s.regInt rs2))) ∧
        (¬ hitA i → (t.slot i).amtv = (s.slot i).amtv) ∧
        (t.slot i).contrib =
          sat64 (fmul (t.slot i).srcv.toInt (t.slot i).amtv.toInt * (t.slot i).amount.toInt) ∧
        (t.slot i).valid = (s.slot i).valid ∧ (t.slot i).src = (s.slot i).src ∧ (t.slot i).amt = (s.slot i).amt ∧
        (t.slot i).dest = (s.slot i).dest ∧ (t.slot i).amount = (s.slot i).amount) ∧
      ∀ g, ((∃ i, hit i ∧ (s.slot i).dest = g) → t.accAt g = sat64 (boundSum t g) ∧ t.dirtyAt g = true) ∧
        ((¬ ∃ i, hit i ∧ (s.slot i).dest = g) → t.accAt g = s.accAt g ∧ t.dirtyAt g = s.dirtyAt g)

/-- `MSUM` (rules R183, R184): one entry becomes the exact sum over the slots bound to it, saturated once, and is marked dirty,
even where nothing changed; every other entry and mark stays, and so does all else. -/
def Obligations.MsumRecomputesOneEntry : Prop :=
  ∀ (g : BitVec 6) (s : State),
    IsWordOf (0x32#8 ++ 0#18 ++ g) (.msum g) ∧
    ∃ t, exec (.msum g) s = .next t ∧
      t.accAt g = sat64 (boundSum s g) ∧ t.dirtyAt g = true ∧
      (∀ x, x ≠ g → t.accAt x = s.accAt x ∧ t.dirtyAt x = s.dirtyAt x) ∧
      SameRegs s t ∧ SameEnvs s t ∧ SameLfos s t ∧ SameSlots s t ∧ SameControl s t ∧ SameHost s t

/-- `MGET` (rule R186), which is 0 for an empty slot of a state that satisfies the invariant, `RDACC` (rule R188) and `GEFF`
(rule R189): reads that change nothing but `f[rd]`. -/
def Obligations.ModulatorReadsReturnTheirValue : Prop :=
  (∀ (rd : Reg) (slot : BitVec 6) (s : State), slot.toNat < s.params.nmod →
    IsWordOf (0x33#8 ++ rd ++ 0#14 ++ slot) (.mget rd slot) ∧
    ∃ t, exec (.mget rd slot) s = .next t ∧ WritesReg rd (s.slot slot).contrib s t ∧
      (s.Inv → (s.slot slot).valid = false → t.reg rd = 0)) ∧
  (∀ (rd : Reg) (g : BitVec 6) (s : State),
    IsWordOf (0x35#8 ++ rd ++ 0#14 ++ g) (.rdacc rd g) ∧
    ∃ t, exec (.rdacc rd g) s = .next t ∧ WritesReg rd (s.accAt g) s t) ∧
  ∀ (rd rs1 : Reg) (g : BitVec 6) (s : State),
    IsWordOf (0x36#8 ++ rd ++ rs1 ++ 0#10 ++ g) (.geff rd rs1 g) ∧
    ∃ t, exec (.geff rd rs1 g) s = .next t ∧ WritesReg rd (sat64 (s.regInt rs1 + (s.accAt g).toInt)) s t

/-- `MMATCH` (rules R175, R187): 1 when the slot's primary or amount input is bound to the controller, else 0. -/
def Obligations.MmatchTestsTheInputs : Prop :=
  ∀ (kind : Kind) (rd rs1 : Reg) (slot : BitVec 6) (s : State), slot.toNat < s.params.nmod →
    IsWordOf (0x34#8 ++ rd ++ rs1 ++ 0#9 ++ kind.code ++ slot) (.mmatch kind rd rs1 slot) ∧
    ∃ t v, exec (.mmatch kind rd rs1 slot) s = .next t ∧ WritesReg rd v s t ∧ (v = 0 ∨ v = 1) ∧
      (v = 1 ↔
        BoundTo (s.slot slot).valid (s.slot slot).src kind (BitVec.ofInt 7 (s.regInt rs1 % 128)) ∨
          BoundTo (s.slot slot).valid (s.slot slot).amt kind (BitVec.ofInt 7 (s.regInt rs1 % 128)))

/-- `RDDIRTY` (rule R190): the old mask into `f[rd]` and the set cleared, in one step; nothing else changes. -/
def Obligations.RddirtyReadsAndClears : Prop :=
  ∀ (rd : Reg) (s : State),
    IsWordOf (0x37#8 ++ rd ++ 0#20) (.rddirty rd) ∧
    ∃ t, exec (.rddirty rd) s = .next t ∧ t.reg rd = s.dirty ∧ t.dirty = 0 ∧
      (∀ r, r ≠ rd → t.reg r = s.reg r) ∧ (∀ g, t.accAt g = s.accAt g) ∧
      SameEnvs s t ∧ SameLfos s t ∧ SameSlots s t ∧ SameControl s t ∧ SameHost s t

/-- Normalisation (rules R176, R177): the raw value modulo `N`, over `N - 1`, through direction, curve and polarity; linear and
switch as the rule computes them; every curve, the OPEN ones included, within `[0, ONE]` or `[-ONE, ONE]`. -/
def Obligations.NormalisationFollowsTheCurve : Prop :=
  ∀ (x : SlotInput) (width : RawWidth) (raw : Int),
    let n : Int := match width with | .w7 => 128 | .w14 => 16384
    let y : Int := raw % n * 4294967296 / (n - 1)
    let z : Int := if x.dir = .negative then oneFx - y else y
    let g : Int := if x.curve = .switch then (if halfFx ≤ z then oneFx else 0) else z
    (x.curve = .linear ∨ x.curve = .switch →
      x.norm width raw = if x.pol = .bipolar then 2 * g - oneFx else g) ∧
    x.norm width raw ≤ oneFx ∧ (if x.pol = .bipolar then -oneFx else 0) ≤ x.norm width raw

/-- Under the invariant the saturations of contributions and sums never act, and both stay within the bounds of rule R183. -/
def Obligations.SumsNeverSaturate : Prop :=
  ∀ s : State, s.Inv →
    (∀ i, (s.slot i).contrib.toInt =
        (s.slot i).srcv.toInt * (s.slot i).amtv.toInt / 4294967296 * (s.slot i).amount.toInt ∧
      -140737488355328 ≤ (s.slot i).contrib.toInt ∧ (s.slot i).contrib.toInt ≤ 140737488355328) ∧
    ∀ g, (sat64 (boundSum s g)).toInt = boundSum s g ∧ -accBound ≤ boundSum s g ∧ boundSum s g ≤ accBound

/-! ### Utility commands (45_utility.md) -/

/-- `NOP` (rule R210), `LI` (rule R212), `LIF` (rule R213) and `MOV` (rule R214). -/
def Obligations.NopLoadsAndMoves : Prop :=
  (∀ s : State, IsWordOf 0x00000000 .nop ∧ exec .nop s = .next s) ∧
  (∀ (rd : Reg) (imm : BitVec 20) (s : State),
    (IsWordOf (0x40#8 ++ rd ++ imm) (.li rd imm) ∧
      ∃ t, exec (.li rd imm) s = .next t ∧ WritesReg rd (BitVec.ofInt 64 imm.toInt) s t) ∧
    (IsWordOf (0x41#8 ++ rd ++ imm) (.lif rd imm) ∧
      ∃ t, exec (.lif rd imm) s = .next t ∧ WritesReg rd (BitVec.ofInt 64 (imm.toInt * 16777216)) s t)) ∧
  ∀ (rd rs1 : Reg) (s : State),
    IsWordOf (0x42#8 ++ rd ++ rs1 ++ 0#16) (.mov rd rs1) ∧
    ∃ t, exec (.mov rd rs1) s = .next t ∧ WritesReg rd (s.reg rs1) s t

/-- `FADD` (rule R215), `FSUB` (rule R216), `FMUL` (rule R217): the exact result, floored for `FMUL`, and saturated to 64 bits by
00_scope.md rules R8 and R9. -/
def Obligations.FxArithmeticSaturates : Prop :=
  ∀ (rd rs1 rs2 : Reg) (s : State),
    let clip := fun v : Int =>
      BitVec.ofInt 64 (if v < -9223372036854775808 then -9223372036854775808
        else if 9223372036854775807 < v then 9223372036854775807 else v)
    (IsWordOf (0x43#8 ++ rd ++ rs1 ++ rs2 ++ 0#12) (.fadd rd rs1 rs2) ∧
      ∃ t, exec (.fadd rd rs1 rs2) s = .next t ∧ WritesReg rd (clip (s.regInt rs1 + s.regInt rs2)) s t) ∧
    (IsWordOf (0x44#8 ++ rd ++ rs1 ++ rs2 ++ 0#12) (.fsub rd rs1 rs2) ∧
      ∃ t, exec (.fsub rd rs1 rs2) s = .next t ∧ WritesReg rd (clip (s.regInt rs1 - s.regInt rs2)) s t) ∧
    (IsWordOf (0x45#8 ++ rd ++ rs1 ++ rs2 ++ 0#12) (.fmul rd rs1 rs2) ∧
      ∃ t, exec (.fmul rd rs1 rs2) s = .next t ∧
        WritesReg rd (clip (s.regInt rs1 * s.regInt rs2 / 4294967296)) s t)

/-- `I2F` (rule R218) saturates from ±2^31, `F2I` (rule R219) floors. -/
def Obligations.IntegerConversions : Prop :=
  ∀ (rd rs1 : Reg) (s : State),
    (IsWordOf (0x46#8 ++ rd ++ rs1 ++ 0#16) (.i2f rd rs1) ∧
      ∃ t, exec (.i2f rd rs1) s = .next t ∧
        WritesReg rd
          (BitVec.ofInt 64
            (if s.regInt rs1 < -2147483648 then -9223372036854775808
             else if 2147483648 ≤ s.regInt rs1 then 9223372036854775807
             else s.regInt rs1 * 4294967296)) s t) ∧
    (IsWordOf (0x47#8 ++ rd ++ rs1 ++ 0#16) (.f2i rd rs1) ∧
      ∃ t, exec (.f2i rd rs1) s = .next t ∧ WritesReg rd (BitVec.ofInt 64 (s.regInt rs1 / 4294967296)) s t)

/-- `VINIT` (rule R220): both envelopes, both LFOs, every slot, `ACC` and `DIRTY` take their reset values; the registers, `ILL`,
`ILLW`, the counter and the host's side stay. -/
def Obligations.VinitRenewsTheVoice : Prop :=
  ∀ s : State,
    IsWordOf 0x7F000000 .vinit ∧
    ∃ t, exec .vinit s = .next t ∧
      (∀ u, t.env u = State.reset.env u) ∧ (∀ u, t.lfo u = State.reset.lfo u) ∧ (∀ i, t.slot i = Slot.empty) ∧
      (∀ g, t.accAt g = 0) ∧ t.dirty = 0 ∧ SameRegs s t ∧ SameControl s t ∧ SameHost s t

end Statements
end

