-- ==== Sys2Proof/Laws/State.lean ====
section
/-! SUPPORT. Laws/State.lean: what each named update does to each field of State. -/

namespace Sys2Proof.Machine

set_option Elab.async false

variable (s : State)

/-! ### `setReg` -/

@[simp] theorem setReg_regs (r : Reg) (v : Word) : (s.setReg r v).regs = s.regs.set r.toNat v r.isLt := rfl
@[simp] theorem setReg_vol (r : Reg) (v : Word) : (s.setReg r v).vol = s.vol := rfl
@[simp] theorem setReg_menv (r : Reg) (v : Word) : (s.setReg r v).menv = s.menv := rfl
@[simp] theorem setReg_vib (r : Reg) (v : Word) : (s.setReg r v).vib = s.vib := rfl
@[simp] theorem setReg_mlfo (r : Reg) (v : Word) : (s.setReg r v).mlfo = s.mlfo := rfl
@[simp] theorem setReg_mods (r : Reg) (v : Word) : (s.setReg r v).mods = s.mods := rfl
@[simp] theorem setReg_acc (r : Reg) (v : Word) : (s.setReg r v).acc = s.acc := rfl
@[simp] theorem setReg_dirty (r : Reg) (v : Word) : (s.setReg r v).dirty = s.dirty := rfl
@[simp] theorem setReg_ill (r : Reg) (v : Word) : (s.setReg r v).ill = s.ill := rfl
@[simp] theorem setReg_illw (r : Reg) (v : Word) : (s.setReg r v).illw = s.illw := rfl
@[simp] theorem setReg_cmdcnt (r : Reg) (v : Word) : (s.setReg r v).cmdcnt = s.cmdcnt := rfl
@[simp] theorem setReg_params (r : Reg) (v : Word) : (s.setReg r v).params = s.params := rfl
@[simp] theorem setReg_rdata (r : Reg) (v : Word) : (s.setReg r v).rdata = s.rdata := rfl
@[simp] theorem setReg_bus (r : Reg) (v : Word) : (s.setReg r v).bus = s.bus := rfl

/-! ### `setEnv` -/

@[simp] theorem setEnv_regs (u : EnvSel) (e : Envelope) : (s.setEnv u e).regs = s.regs := by cases u <;> rfl
@[simp] theorem setEnv_vib (u : EnvSel) (e : Envelope) : (s.setEnv u e).vib = s.vib := by cases u <;> rfl
@[simp] theorem setEnv_mlfo (u : EnvSel) (e : Envelope) : (s.setEnv u e).mlfo = s.mlfo := by cases u <;> rfl
@[simp] theorem setEnv_mods (u : EnvSel) (e : Envelope) : (s.setEnv u e).mods = s.mods := by cases u <;> rfl
@[simp] theorem setEnv_acc (u : EnvSel) (e : Envelope) : (s.setEnv u e).acc = s.acc := by cases u <;> rfl
@[simp] theorem setEnv_dirty (u : EnvSel) (e : Envelope) : (s.setEnv u e).dirty = s.dirty := by cases u <;> rfl
@[simp] theorem setEnv_ill (u : EnvSel) (e : Envelope) : (s.setEnv u e).ill = s.ill := by cases u <;> rfl
@[simp] theorem setEnv_illw (u : EnvSel) (e : Envelope) : (s.setEnv u e).illw = s.illw := by cases u <;> rfl
@[simp] theorem setEnv_cmdcnt (u : EnvSel) (e : Envelope) : (s.setEnv u e).cmdcnt = s.cmdcnt := by cases u <;> rfl
@[simp] theorem setEnv_params (u : EnvSel) (e : Envelope) : (s.setEnv u e).params = s.params := by cases u <;> rfl
@[simp] theorem setEnv_rdata (u : EnvSel) (e : Envelope) : (s.setEnv u e).rdata = s.rdata := by cases u <;> rfl
@[simp] theorem setEnv_bus (u : EnvSel) (e : Envelope) : (s.setEnv u e).bus = s.bus := by cases u <;> rfl

/-! ### `setLfo` -/

@[simp] theorem setLfo_regs (u : LfoSel) (o : Lfo) : (s.setLfo u o).regs = s.regs := by cases u <;> rfl
@[simp] theorem setLfo_vol (u : LfoSel) (o : Lfo) : (s.setLfo u o).vol = s.vol := by cases u <;> rfl
@[simp] theorem setLfo_menv (u : LfoSel) (o : Lfo) : (s.setLfo u o).menv = s.menv := by cases u <;> rfl
@[simp] theorem setLfo_mods (u : LfoSel) (o : Lfo) : (s.setLfo u o).mods = s.mods := by cases u <;> rfl
@[simp] theorem setLfo_acc (u : LfoSel) (o : Lfo) : (s.setLfo u o).acc = s.acc := by cases u <;> rfl
@[simp] theorem setLfo_dirty (u : LfoSel) (o : Lfo) : (s.setLfo u o).dirty = s.dirty := by cases u <;> rfl
@[simp] theorem setLfo_ill (u : LfoSel) (o : Lfo) : (s.setLfo u o).ill = s.ill := by cases u <;> rfl
@[simp] theorem setLfo_illw (u : LfoSel) (o : Lfo) : (s.setLfo u o).illw = s.illw := by cases u <;> rfl
@[simp] theorem setLfo_cmdcnt (u : LfoSel) (o : Lfo) : (s.setLfo u o).cmdcnt = s.cmdcnt := by cases u <;> rfl
@[simp] theorem setLfo_params (u : LfoSel) (o : Lfo) : (s.setLfo u o).params = s.params := by cases u <;> rfl
@[simp] theorem setLfo_rdata (u : LfoSel) (o : Lfo) : (s.setLfo u o).rdata = s.rdata := by cases u <;> rfl
@[simp] theorem setLfo_bus (u : LfoSel) (o : Lfo) : (s.setLfo u o).bus = s.bus := by cases u <;> rfl

/-! ### `setSlot` -/

@[simp] theorem setSlot_regs (i : BitVec 6) (m : Slot) : (s.setSlot i m).regs = s.regs := rfl
@[simp] theorem setSlot_vol (i : BitVec 6) (m : Slot) : (s.setSlot i m).vol = s.vol := rfl
@[simp] theorem setSlot_menv (i : BitVec 6) (m : Slot) : (s.setSlot i m).menv = s.menv := rfl
@[simp] theorem setSlot_vib (i : BitVec 6) (m : Slot) : (s.setSlot i m).vib = s.vib := rfl
@[simp] theorem setSlot_mlfo (i : BitVec 6) (m : Slot) : (s.setSlot i m).mlfo = s.mlfo := rfl
@[simp] theorem setSlot_mods (i : BitVec 6) (m : Slot) : (s.setSlot i m).mods = s.mods.set i.toNat m i.isLt := rfl
@[simp] theorem setSlot_acc (i : BitVec 6) (m : Slot) : (s.setSlot i m).acc = s.acc := rfl
@[simp] theorem setSlot_dirty (i : BitVec 6) (m : Slot) : (s.setSlot i m).dirty = s.dirty := rfl
@[simp] theorem setSlot_ill (i : BitVec 6) (m : Slot) : (s.setSlot i m).ill = s.ill := rfl
@[simp] theorem setSlot_illw (i : BitVec 6) (m : Slot) : (s.setSlot i m).illw = s.illw := rfl
@[simp] theorem setSlot_cmdcnt (i : BitVec 6) (m : Slot) : (s.setSlot i m).cmdcnt = s.cmdcnt := rfl
@[simp] theorem setSlot_params (i : BitVec 6) (m : Slot) : (s.setSlot i m).params = s.params := rfl
@[simp] theorem setSlot_rdata (i : BitVec 6) (m : Slot) : (s.setSlot i m).rdata = s.rdata := rfl
@[simp] theorem setSlot_bus (i : BitVec 6) (m : Slot) : (s.setSlot i m).bus = s.bus := rfl

/-! ### `raiseIllegal` -/

@[simp] theorem raiseIllegal_regs (w : Cmd) : (s.raiseIllegal w).regs = s.regs := rfl
@[simp] theorem raiseIllegal_vol (w : Cmd) : (s.raiseIllegal w).vol = s.vol := rfl
@[simp] theorem raiseIllegal_menv (w : Cmd) : (s.raiseIllegal w).menv = s.menv := rfl
@[simp] theorem raiseIllegal_vib (w : Cmd) : (s.raiseIllegal w).vib = s.vib := rfl
@[simp] theorem raiseIllegal_mlfo (w : Cmd) : (s.raiseIllegal w).mlfo = s.mlfo := rfl
@[simp] theorem raiseIllegal_mods (w : Cmd) : (s.raiseIllegal w).mods = s.mods := rfl
@[simp] theorem raiseIllegal_acc (w : Cmd) : (s.raiseIllegal w).acc = s.acc := rfl
@[simp] theorem raiseIllegal_dirty (w : Cmd) : (s.raiseIllegal w).dirty = s.dirty := rfl
@[simp] theorem raiseIllegal_ill (w : Cmd) : (s.raiseIllegal w).ill = true := rfl
@[simp] theorem raiseIllegal_illw (w : Cmd) : (s.raiseIllegal w).illw = if s.ill then s.illw else w := rfl
@[simp] theorem raiseIllegal_cmdcnt (w : Cmd) : (s.raiseIllegal w).cmdcnt = s.cmdcnt := rfl
@[simp] theorem raiseIllegal_params (w : Cmd) : (s.raiseIllegal w).params = s.params := rfl
@[simp] theorem raiseIllegal_rdata (w : Cmd) : (s.raiseIllegal w).rdata = s.rdata := rfl
@[simp] theorem raiseIllegal_bus (w : Cmd) : (s.raiseIllegal w).bus = s.bus := rfl

/-! ### `ackIllegal` -/

@[simp] theorem ackIllegal_regs : (s.ackIllegal).regs = s.regs := rfl
@[simp] theorem ackIllegal_vol : (s.ackIllegal).vol = s.vol := rfl
@[simp] theorem ackIllegal_menv : (s.ackIllegal).menv = s.menv := rfl
@[simp] theorem ackIllegal_vib : (s.ackIllegal).vib = s.vib := rfl
@[simp] theorem ackIllegal_mlfo : (s.ackIllegal).mlfo = s.mlfo := rfl
@[simp] theorem ackIllegal_mods : (s.ackIllegal).mods = s.mods := rfl
@[simp] theorem ackIllegal_acc : (s.ackIllegal).acc = s.acc := rfl
@[simp] theorem ackIllegal_dirty : (s.ackIllegal).dirty = s.dirty := rfl
@[simp] theorem ackIllegal_ill : (s.ackIllegal).ill = false := rfl
@[simp] theorem ackIllegal_illw : (s.ackIllegal).illw = s.illw := rfl
@[simp] theorem ackIllegal_cmdcnt : (s.ackIllegal).cmdcnt = s.cmdcnt := rfl
@[simp] theorem ackIllegal_params : (s.ackIllegal).params = s.params := rfl
@[simp] theorem ackIllegal_rdata : (s.ackIllegal).rdata = s.rdata := rfl
@[simp] theorem ackIllegal_bus : (s.ackIllegal).bus = s.bus := rfl

/-! ### `countCmd` -/

@[simp] theorem countCmd_regs : (s.countCmd).regs = s.regs := rfl
@[simp] theorem countCmd_vol : (s.countCmd).vol = s.vol := rfl
@[simp] theorem countCmd_menv : (s.countCmd).menv = s.menv := rfl
@[simp] theorem countCmd_vib : (s.countCmd).vib = s.vib := rfl
@[simp] theorem countCmd_mlfo : (s.countCmd).mlfo = s.mlfo := rfl
@[simp] theorem countCmd_mods : (s.countCmd).mods = s.mods := rfl
@[simp] theorem countCmd_acc : (s.countCmd).acc = s.acc := rfl
@[simp] theorem countCmd_dirty : (s.countCmd).dirty = s.dirty := rfl
@[simp] theorem countCmd_ill : (s.countCmd).ill = s.ill := rfl
@[simp] theorem countCmd_illw : (s.countCmd).illw = s.illw := rfl
@[simp] theorem countCmd_cmdcnt : (s.countCmd).cmdcnt = s.cmdcnt + 1 := rfl
@[simp] theorem countCmd_params : (s.countCmd).params = s.params := rfl
@[simp] theorem countCmd_rdata : (s.countCmd).rdata = s.rdata := rfl
@[simp] theorem countCmd_bus : (s.countCmd).bus = s.bus := rfl

/-! ### `setRdata` -/

@[simp] theorem setRdata_regs (v : Word) : (s.setRdata v).regs = s.regs := rfl
@[simp] theorem setRdata_vol (v : Word) : (s.setRdata v).vol = s.vol := rfl
@[simp] theorem setRdata_menv (v : Word) : (s.setRdata v).menv = s.menv := rfl
@[simp] theorem setRdata_vib (v : Word) : (s.setRdata v).vib = s.vib := rfl
@[simp] theorem setRdata_mlfo (v : Word) : (s.setRdata v).mlfo = s.mlfo := rfl
@[simp] theorem setRdata_mods (v : Word) : (s.setRdata v).mods = s.mods := rfl
@[simp] theorem setRdata_acc (v : Word) : (s.setRdata v).acc = s.acc := rfl
@[simp] theorem setRdata_dirty (v : Word) : (s.setRdata v).dirty = s.dirty := rfl
@[simp] theorem setRdata_ill (v : Word) : (s.setRdata v).ill = s.ill := rfl
@[simp] theorem setRdata_illw (v : Word) : (s.setRdata v).illw = s.illw := rfl
@[simp] theorem setRdata_cmdcnt (v : Word) : (s.setRdata v).cmdcnt = s.cmdcnt := rfl
@[simp] theorem setRdata_params (v : Word) : (s.setRdata v).params = s.params := rfl
@[simp] theorem setRdata_rdata (v : Word) : (s.setRdata v).rdata = v := rfl
@[simp] theorem setRdata_bus (v : Word) : (s.setRdata v).bus = s.bus := rfl

/-! ### `withBus` -/

@[simp] theorem withBus_regs (b : List HostEvent) : (s.withBus b).regs = s.regs := rfl
@[simp] theorem withBus_vol (b : List HostEvent) : (s.withBus b).vol = s.vol := rfl
@[simp] theorem withBus_menv (b : List HostEvent) : (s.withBus b).menv = s.menv := rfl
@[simp] theorem withBus_vib (b : List HostEvent) : (s.withBus b).vib = s.vib := rfl
@[simp] theorem withBus_mlfo (b : List HostEvent) : (s.withBus b).mlfo = s.mlfo := rfl
@[simp] theorem withBus_mods (b : List HostEvent) : (s.withBus b).mods = s.mods := rfl
@[simp] theorem withBus_acc (b : List HostEvent) : (s.withBus b).acc = s.acc := rfl
@[simp] theorem withBus_dirty (b : List HostEvent) : (s.withBus b).dirty = s.dirty := rfl
@[simp] theorem withBus_ill (b : List HostEvent) : (s.withBus b).ill = s.ill := rfl
@[simp] theorem withBus_illw (b : List HostEvent) : (s.withBus b).illw = s.illw := rfl
@[simp] theorem withBus_cmdcnt (b : List HostEvent) : (s.withBus b).cmdcnt = s.cmdcnt := rfl
@[simp] theorem withBus_params (b : List HostEvent) : (s.withBus b).params = s.params := rfl
@[simp] theorem withBus_rdata (b : List HostEvent) : (s.withBus b).rdata = s.rdata := rfl
@[simp] theorem withBus_bus (b : List HostEvent) : (s.withBus b).bus = b := rfl

/-! ### `resolveAll` -/

@[simp] theorem resolveAll_regs (d : BitVec 64) : (s.resolveAll d).regs = s.regs := by unfold State.resolveAll; rfl
@[simp] theorem resolveAll_vol (d : BitVec 64) : (s.resolveAll d).vol = s.vol := by unfold State.resolveAll; rfl
@[simp] theorem resolveAll_menv (d : BitVec 64) : (s.resolveAll d).menv = s.menv := by unfold State.resolveAll; rfl
@[simp] theorem resolveAll_vib (d : BitVec 64) : (s.resolveAll d).vib = s.vib := by unfold State.resolveAll; rfl
@[simp] theorem resolveAll_mlfo (d : BitVec 64) : (s.resolveAll d).mlfo = s.mlfo := by unfold State.resolveAll; rfl
@[simp] theorem resolveAll_mods (d : BitVec 64) : (s.resolveAll d).mods = s.mods := by unfold State.resolveAll; rfl
@[simp] theorem resolveAll_acc (d : BitVec 64) :
    (s.resolveAll d).acc =
      Vector.ofFn fun i : Fin 64 => if d.getLsbD i.val then s.sumAt (genOf i) else s.acc[i] := by unfold State.resolveAll; rfl
@[simp] theorem resolveAll_dirty (d : BitVec 64) :
    (s.resolveAll d).dirty =
      s.dirty ||| d := by unfold State.resolveAll; rfl
@[simp] theorem resolveAll_ill (d : BitVec 64) : (s.resolveAll d).ill = s.ill := by unfold State.resolveAll; rfl
@[simp] theorem resolveAll_illw (d : BitVec 64) : (s.resolveAll d).illw = s.illw := by unfold State.resolveAll; rfl
@[simp] theorem resolveAll_cmdcnt (d : BitVec 64) :
    (s.resolveAll d).cmdcnt =
      s.cmdcnt := by unfold State.resolveAll; rfl
@[simp] theorem resolveAll_params (d : BitVec 64) :
    (s.resolveAll d).params =
      s.params := by unfold State.resolveAll; rfl
@[simp] theorem resolveAll_rdata (d : BitVec 64) : (s.resolveAll d).rdata = s.rdata := by unfold State.resolveAll; rfl
@[simp] theorem resolveAll_bus (d : BitVec 64) : (s.resolveAll d).bus = s.bus := by unfold State.resolveAll; rfl

/-! ### `notifyAll` -/

@[simp] theorem notifyAll_regs (k : Kind) (x : BitVec 7) (w : RawWidth) (raw : Int) :
    (s.notifyAll k x w raw).regs =
      s.regs := by unfold State.notifyAll; rfl
@[simp] theorem notifyAll_vol (k : Kind) (x : BitVec 7) (w : RawWidth) (raw : Int) :
    (s.notifyAll k x w raw).vol =
      s.vol := by unfold State.notifyAll; rfl
@[simp] theorem notifyAll_menv (k : Kind) (x : BitVec 7) (w : RawWidth) (raw : Int) :
    (s.notifyAll k x w raw).menv =
      s.menv := by unfold State.notifyAll; rfl
@[simp] theorem notifyAll_vib (k : Kind) (x : BitVec 7) (w : RawWidth) (raw : Int) :
    (s.notifyAll k x w raw).vib =
      s.vib := by unfold State.notifyAll; rfl
@[simp] theorem notifyAll_mlfo (k : Kind) (x : BitVec 7) (w : RawWidth) (raw : Int) :
    (s.notifyAll k x w raw).mlfo =
      s.mlfo := by unfold State.notifyAll; rfl
@[simp] theorem notifyAll_mods (k : Kind) (x : BitVec 7) (w : RawWidth) (raw : Int) :
    (s.notifyAll k x w raw).mods =
      Vector.ofFn fun i : Fin 64 => if i.val < s.params.nmod then s.mods[i].notify k x w raw else s.mods[i] := by unfold State.notifyAll; rfl
@[simp] theorem notifyAll_acc (k : Kind) (x : BitVec 7) (w : RawWidth) (raw : Int) :
    (s.notifyAll k x w raw).acc =
      s.acc := by unfold State.notifyAll; rfl
@[simp] theorem notifyAll_dirty (k : Kind) (x : BitVec 7) (w : RawWidth) (raw : Int) :
    (s.notifyAll k x w raw).dirty =
      s.dirty := by unfold State.notifyAll; rfl
@[simp] theorem notifyAll_ill (k : Kind) (x : BitVec 7) (w : RawWidth) (raw : Int) :
    (s.notifyAll k x w raw).ill =
      s.ill := by unfold State.notifyAll; rfl
@[simp] theorem notifyAll_illw (k : Kind) (x : BitVec 7) (w : RawWidth) (raw : Int) :
    (s.notifyAll k x w raw).illw =
      s.illw := by unfold State.notifyAll; rfl
@[simp] theorem notifyAll_cmdcnt (k : Kind) (x : BitVec 7) (w : RawWidth) (raw : Int) :
    (s.notifyAll k x w raw).cmdcnt =
      s.cmdcnt := by unfold State.notifyAll; rfl
@[simp] theorem notifyAll_params (k : Kind) (x : BitVec 7) (w : RawWidth) (raw : Int) :
    (s.notifyAll k x w raw).params =
      s.params := by unfold State.notifyAll; rfl
@[simp] theorem notifyAll_rdata (k : Kind) (x : BitVec 7) (w : RawWidth) (raw : Int) :
    (s.notifyAll k x w raw).rdata =
      s.rdata := by unfold State.notifyAll; rfl
@[simp] theorem notifyAll_bus (k : Kind) (x : BitVec 7) (w : RawWidth) (raw : Int) :
    (s.notifyAll k x w raw).bus =
      s.bus := by unfold State.notifyAll; rfl

/-! ### `initVoice` -/

@[simp] theorem initVoice_regs : (s.initVoice).regs = s.regs := by unfold State.initVoice; rfl
@[simp] theorem initVoice_vol : (s.initVoice).vol = .reset := by unfold State.initVoice; rfl
@[simp] theorem initVoice_menv : (s.initVoice).menv = .reset := by unfold State.initVoice; rfl
@[simp] theorem initVoice_vib : (s.initVoice).vib = .reset := by unfold State.initVoice; rfl
@[simp] theorem initVoice_mlfo : (s.initVoice).mlfo = .reset := by unfold State.initVoice; rfl
@[simp] theorem initVoice_mods : (s.initVoice).mods = Vector.replicate 64 .empty := by unfold State.initVoice; rfl
@[simp] theorem initVoice_acc : (s.initVoice).acc = Vector.replicate 64 0 := by unfold State.initVoice; rfl
@[simp] theorem initVoice_dirty : (s.initVoice).dirty = 0 := by unfold State.initVoice; rfl
@[simp] theorem initVoice_ill : (s.initVoice).ill = s.ill := by unfold State.initVoice; rfl
@[simp] theorem initVoice_illw : (s.initVoice).illw = s.illw := by unfold State.initVoice; rfl
@[simp] theorem initVoice_cmdcnt : (s.initVoice).cmdcnt = s.cmdcnt := by unfold State.initVoice; rfl
@[simp] theorem initVoice_params : (s.initVoice).params = s.params := by unfold State.initVoice; rfl
@[simp] theorem initVoice_rdata : (s.initVoice).rdata = s.rdata := by unfold State.initVoice; rfl
@[simp] theorem initVoice_bus : (s.initVoice).bus = s.bus := by unfold State.initVoice; rfl

/-! ### `platformReset` -/

@[simp] theorem platformReset_regs :
    (s.platformReset).regs =
      Vector.replicate 16 0 := by unfold State.platformReset; rfl
@[simp] theorem platformReset_vol : (s.platformReset).vol = .reset := by unfold State.platformReset; rfl
@[simp] theorem platformReset_menv : (s.platformReset).menv = .reset := by unfold State.platformReset; rfl
@[simp] theorem platformReset_vib : (s.platformReset).vib = .reset := by unfold State.platformReset; rfl
@[simp] theorem platformReset_mlfo : (s.platformReset).mlfo = .reset := by unfold State.platformReset; rfl
@[simp] theorem platformReset_mods :
    (s.platformReset).mods =
      Vector.replicate 64 .empty := by unfold State.platformReset; rfl
@[simp] theorem platformReset_acc : (s.platformReset).acc = Vector.replicate 64 0 := by unfold State.platformReset; rfl
@[simp] theorem platformReset_dirty : (s.platformReset).dirty = 0 := by unfold State.platformReset; rfl
@[simp] theorem platformReset_ill : (s.platformReset).ill = false := by unfold State.platformReset; rfl
@[simp] theorem platformReset_illw : (s.platformReset).illw = 0 := by unfold State.platformReset; rfl
@[simp] theorem platformReset_cmdcnt : (s.platformReset).cmdcnt = 0 := by unfold State.platformReset; rfl
@[simp] theorem platformReset_params : (s.platformReset).params = s.params := by unfold State.platformReset; rfl
@[simp] theorem platformReset_rdata : (s.platformReset).rdata = s.rdata := by unfold State.platformReset; rfl
@[simp] theorem platformReset_bus : (s.platformReset).bus = s.bus := by unfold State.platformReset; rfl

end Sys2Proof.Machine
end

