-- ==== Sys2Proof/Laws/Ops.lean ====
section
/-! SUPPORT. Laws/Ops.lean: what each shared operation over registers, units, slots and numbers can do, said once. -/

namespace Sys2Proof.Machine

set_option Elab.async false

/-! ### Registers and units: read after write -/

theorem reg_setReg (s : State) (r q : Reg) (v : Word) :
    (s.setReg r v).reg q = if r = q then v else s.reg q := by
  simp only [State.reg, State.setReg, Vector.getElem_set, BitVec.toNat_inj]

@[simp] theorem reg_setReg_same (s : State) (r : Reg) (v : Word) : (s.setReg r v).reg r = v := by
  simp [reg_setReg]

theorem reg_setReg_other (s : State) (r q : Reg) (v : Word) (h : q ≠ r) : (s.setReg r v).reg q = s.reg q := by
  simp [reg_setReg, h.symm]

theorem env_setEnv (s : State) (u x : EnvSel) (e : Envelope) :
    (s.setEnv u e).env x = if u = x then e else s.env x := by
  cases u <;> cases x <;> rfl

@[simp] theorem env_setEnv_same (s : State) (u : EnvSel) (e : Envelope) : (s.setEnv u e).env u = e := by
  simp [env_setEnv]

theorem lfo_setLfo (s : State) (u x : LfoSel) (o : Lfo) :
    (s.setLfo u o).lfo x = if u = x then o else s.lfo x := by
  cases u <;> cases x <;> rfl

@[simp] theorem lfo_setLfo_same (s : State) (u : LfoSel) (o : Lfo) : (s.setLfo u o).lfo u = o := by
  simp [lfo_setLfo]

theorem slot_setSlot (s : State) (i j : BitVec 6) (m : Slot) :
    (s.setSlot i m).slot j = if i = j then m else s.slot j := by
  simp only [State.slot, State.setSlot, Vector.getElem_set, BitVec.toNat_inj]

@[simp] theorem slot_setSlot_same (s : State) (i : BitVec 6) (m : Slot) : (s.setSlot i m).slot i = m := by
  simp [slot_setSlot]

/-- Two states with the same registers read alike. -/
theorem reg_congr {s t : State} (h : t.regs = s.regs) (r : Reg) : t.reg r = s.reg r := by
  simp only [State.reg, h]

/-- Two states with the same slots read alike. -/
theorem slot_congr {s t : State} (h : t.mods = s.mods) (i : BitVec 6) : t.slot i = s.slot i := by
  simp only [State.slot, h]

/-! ### Saturation (00_scope.md rule R8) -/

theorem satInt_of_range {v : Int} (h : minFx ≤ v) (h' : v ≤ maxFx) : satInt v = v := by
  simp only [satInt, clamp, minFx, maxFx] at *; omega

theorem satInt_range (v : Int) : minFx ≤ satInt v ∧ satInt v ≤ maxFx := by
  simp only [satInt, clamp, minFx, maxFx] at *; omega

theorem satInt_mono {a b : Int} (h : a ≤ b) : satInt a ≤ satInt b := by
  simp only [satInt, clamp, minFx, maxFx] at *; omega

@[simp] theorem toInt_sat64 (v : Int) : (sat64 v).toInt = satInt v := by
  have h := satInt_range v
  have p : ((2 ^ 64 : Nat) : Int) = 18446744073709551616 := by norm_num
  simp only [minFx, maxFx] at h
  unfold sat64
  rw [BitVec.toInt_ofInt, Int.bmod_def, p]
  split <;> omega

theorem toInt_sat64_of_range {v : Int} (h : minFx ≤ v) (h' : v ≤ maxFx) : (sat64 v).toInt = v := by
  rw [toInt_sat64, satInt_of_range h h']

/-- Writing back what a pattern reads as gives the pattern. -/
theorem sat64_toInt (v : Word) : sat64 v.toInt = v := by
  have h1 : minFx ≤ v.toInt := by have := BitVec.le_toInt v; norm_num at this ⊢; exact this
  have h2 : v.toInt ≤ maxFx := by have := BitVec.toInt_lt (x := v); norm_num at this ⊢; omega
  unfold sat64
  rw [satInt_of_range h1 h2, BitVec.ofInt_toInt]

/-! ### Shifts on unbounded integers (rule R7) -/

@[simp] theorem shl_32 (a : Int) : shl a 32 = a * 4294967296 := by unfold shl; norm_num

@[simp] theorem shr_32 (a : Int) : shr a 32 = a / 4294967296 := by unfold shr; norm_num

/-! ### The exception -/

/-- A second illegal word leaves `ILLW` at the first (60_exceptions.md rule R244). -/
theorem raiseIllegal_twice (s : State) (w w' : Cmd) : (s.raiseIllegal w).raiseIllegal w' = s.raiseIllegal w := rfl

/-- All that a command with a range check can do. -/
theorem ifLegal_cases {i : Instr} {s t t' : State} (h : ifLegal i s t = .next t') :
    (i.WellFormed s.params.nmod ∧ t' = t) ∨ (¬ i.WellFormed s.params.nmod ∧ t' = s.raiseIllegal (encode i)) := by
  unfold ifLegal done at h
  split at h
  · next hw => exact .inl ⟨hw, by injection h with h; exact h.symm⟩
  · next hw => exact .inr ⟨hw, by injection h with h; exact h.symm⟩

theorem ifLegal_of_wellFormed {i : Instr} {s t : State} (h : i.WellFormed s.params.nmod) :
    ifLegal i s t = .next t := by
  unfold ifLegal done; rw [if_pos h]

theorem ifLegal_of_not_wellFormed {i : Instr} {s t : State} (h : ¬ i.WellFormed s.params.nmod) :
    ifLegal i s t = .next (s.raiseIllegal (encode i)) := by
  unfold ifLegal done; rw [if_neg h]

end Sys2Proof.Machine
end

