-- ==== Sys2Proof/Laws/Conversion.lean ====
section
/-! SUPPORT. Laws/Conversion.lean: the ranges of the conversion engines' shared operations (41_conversion.md). -/

namespace Sys2Proof.Machine

set_option Elab.async false

theorem keyCents_eq (x : Int) : keyCents x = x * 100 / 4294967296 := by unfold keyCents; rw [shr_32]

theorem keyBand_nonneg (c : Int) : 0 ≤ keyBand c := by unfold keyBand; split <;> omega

/-- The table index of rule R92 is always in the table. -/
theorem keyIndex_range {c : Int} (h : 0 ≤ c) : 0 ≤ keyIndex c ∧ keyIndex c < 1200 := by
  unfold keyIndex keyBand; split <;> omega

theorem expFraction_nonneg {f : Int} (h : 0 ≤ f) : 0 ≤ expFraction f := by
  unfold expFraction
  rw [shr_32]
  exact Int.ediv_nonneg (Int.mul_nonneg (by decide) h) (by norm_num)

theorem expPoly_nonneg {u : Int} (h : 0 ≤ u) : 0 ≤ expPoly u := by
  have : 0 ≤ shr (u * u) 65 := Int.ediv_nonneg (Int.mul_nonneg h h) (by norm_num)
  unfold expPoly shl
  positivity

theorem expProduct_nonneg (x : Int) {scale : Int} (h : 0 ≤ scale) : 0 ≤ expProduct x scale := by
  have := expPoly_nonneg (expFraction_nonneg (f := x % 4294967296) (by omega))
  unfold expProduct
  positivity

/-- The exponential engine is never negative (rule R94). -/
theorem exp2c_nonneg (x : Int) {scale : Int} (h : 0 ≤ scale) : 0 ≤ exp2c x scale := by
  have hn := expProduct_nonneg x h
  have hs : ∀ v, 0 ≤ v → 0 ≤ satInt v := by
    intro v hv
    simp only [satInt, clamp, minFx, maxFx]
    omega
  unfold exp2c
  split
  · exact hs _ (by unfold shl; positivity)
  · exact hs _ (by unfold shr shl; apply Int.ediv_nonneg <;> positivity)

end Sys2Proof.Machine
end

