-- ==== Sys2Proof/Laws/Decode.lean ====
section
/-! SUPPORT. Laws/Decode.lean: the fields of an encoded word, the codes of the sub-fields and the opcode map. -/

namespace Sys2Proof

set_option Elab.async false

/-! ### Fields of format-R and format-I words (30_encoding.md rule R70) -/

@[simp] theorem opOf_encR (op : BitVec 8) (rd rs1 rs2 rs3 : Reg) (b : BitVec 8) :
    opOf (encR op rd rs1 rs2 rs3 b) = op := by
  ext i hi
  simp only [opOf, encR, BitVec.getElem_extractLsb', BitVec.getLsbD_append]
  interval_cases i <;> simp

@[simp] theorem rdOf_encR (op : BitVec 8) (rd rs1 rs2 rs3 : Reg) (b : BitVec 8) :
    rdOf (encR op rd rs1 rs2 rs3 b) = rd := by
  ext i hi
  simp only [rdOf, encR, BitVec.getElem_extractLsb', BitVec.getLsbD_append]
  interval_cases i <;> simp

@[simp] theorem rs1Of_encR (op : BitVec 8) (rd rs1 rs2 rs3 : Reg) (b : BitVec 8) :
    rs1Of (encR op rd rs1 rs2 rs3 b) = rs1 := by
  ext i hi
  simp only [rs1Of, encR, BitVec.getElem_extractLsb', BitVec.getLsbD_append]
  interval_cases i <;> simp

@[simp] theorem rs2Of_encR (op : BitVec 8) (rd rs1 rs2 rs3 : Reg) (b : BitVec 8) :
    rs2Of (encR op rd rs1 rs2 rs3 b) = rs2 := by
  ext i hi
  simp only [rs2Of, encR, BitVec.getElem_extractLsb', BitVec.getLsbD_append]
  interval_cases i <;> simp

@[simp] theorem rs3Of_encR (op : BitVec 8) (rd rs1 rs2 rs3 : Reg) (b : BitVec 8) :
    rs3Of (encR op rd rs1 rs2 rs3 b) = rs3 := by
  ext i hi
  simp only [rs3Of, encR, BitVec.getElem_extractLsb', BitVec.getLsbD_append]
  interval_cases i <;> simp

@[simp] theorem imm8Of_encR (op : BitVec 8) (rd rs1 rs2 rs3 : Reg) (b : BitVec 8) :
    imm8Of (encR op rd rs1 rs2 rs3 b) = b := by
  ext i hi
  simp only [imm8Of, encR, BitVec.getElem_extractLsb', BitVec.getLsbD_append]
  interval_cases i <;> simp

@[simp] theorem opOf_encI (op : BitVec 8) (rd : Reg) (imm : BitVec 20) : opOf (encI op rd imm) = op := by
  ext i hi
  simp only [opOf, encI, BitVec.getElem_extractLsb', BitVec.getLsbD_append]
  interval_cases i <;> simp

@[simp] theorem rdOf_encI (op : BitVec 8) (rd : Reg) (imm : BitVec 20) : rdOf (encI op rd imm) = rd := by
  ext i hi
  simp only [rdOf, encI, BitVec.getElem_extractLsb', BitVec.getLsbD_append]
  interval_cases i <;> simp

@[simp] theorem imm20Of_encI (op : BitVec 8) (rd : Reg) (imm : BitVec 20) : imm20Of (encI op rd imm) = imm := by
  ext i hi
  simp only [imm20Of, encI, BitVec.getElem_extractLsb', BitVec.getLsbD_append]
  interval_cases i <;> simp

/-! ### Sub-fields of `imm8` (rule R72) -/

@[simp] theorem low2Of_immLow2 (u : BitVec 2) : low2Of (immLow2 u) = u := by revert u; decide

@[simp] theorem low2Of_immStage (st : BitVec 3) (u : BitVec 2) : low2Of (immStage st u) = u := by revert st u; decide

@[simp] theorem stgOf_immStage (st : BitVec 3) (u : BitVec 2) : stgOf (immStage st u) = st := by revert st u; decide

@[simp] theorem low6Of_immLow6 (x : BitVec 6) : low6Of (immLow6 x) = x := by revert x; decide

@[simp] theorem low6Of_immMmatch (k : BitVec 1) (x : BitVec 6) : low6Of (immMmatch k x) = x := by revert k x; decide

@[simp] theorem kind_immMmatch (k : BitVec 1) (x : BitVec 6) : (immMmatch k x).extractLsb' 6 1 = k := by
  revert k x; decide

@[simp] theorem kind_immMupd (k w : BitVec 1) : (immMupd k w).extractLsb' 0 1 = k := by revert k w; decide

@[simp] theorem width_immMupd (k w : BitVec 1) : (immMupd k w).extractLsb' 1 1 = w := by revert k w; decide

/-! ### Codes (rules R25, R72) -/

@[simp] theorem envSel_ofCode_code (u : EnvSel) : EnvSel.ofCode u.code = .ok u := by cases u <;> rfl

@[simp] theorem lfoSel_ofCode_code (u : LfoSel) : LfoSel.ofCode u.code = .ok u := by cases u <;> rfl

@[simp] theorem stage_ofCode_code (st : Stage) : Stage.ofCode st.code = .ok st := by cases st <;> rfl

@[simp] theorem table_ofCode_code (t : Table) : Table.ofCode t.code = .ok t := by cases t <;> rfl

@[simp] theorem kind_ofCode_code (k : Kind) : Kind.ofCode k.code = k := by cases k <;> rfl

@[simp] theorem rawWidth_ofCode_code (w : RawWidth) : RawWidth.ofCode w.code = w := by cases w <;> rfl

/-! ### The opcode map (rule R75) -/

/-- No two rows have one opcode byte. -/
theorem opcodes_distinct : (Opcode.all.map fun op => op.row.code).Nodup := by decide

theorem opcode_mem_all (op : Opcode) : op ∈ Opcode.all := by cases op <;> decide

@[simp] theorem ofByte_code (op : Opcode) : Opcode.ofByte op.row.code = some op := by cases op <;> rfl

/-- A byte that names a row is that row's code. -/
theorem code_of_ofByte {b : BitVec 8} {op : Opcode} (h : Opcode.ofByte b = some op) : op.row.code = b := by
  have := List.find?_some h
  simpa using this

/-- All that a decoded word tells: its row, its reserved bits, its fields and its range checks (rule R80). -/
theorem decode_ok_cases {nmod : Nat} {w : Cmd} {i : Instr} (h : decode nmod w = .ok i) :
    ∃ op, op.row.code = opOf w ∧ op.row.reservedClear w = true ∧ build op w = .ok i ∧ i.WellFormed nmod := by
  unfold decode at h
  split at h
  · cases h
  · next op hop =>
    split at h
    · next hr =>
      refine ⟨op, code_of_ofByte hop, hr, ?_⟩
      cases hb : build op w with
      | error c => rw [hb] at h; cases h
      | ok j =>
        rw [hb] at h
        simp only [Except.bind, checkRange] at h
        split at h
        · next hj => injection h with h; subst h; exact ⟨rfl, hj⟩
        · cases h
    · cases h

end Sys2Proof
end

