-- ==== Sys2Proof/Laws/Envelope.lean ====
section
/-! SUPPORT. Laws/Envelope.lean: all that the shared operations of an envelope unit can do (42_envelope.md). -/

namespace Sys2Proof.Machine

set_option Elab.async false

/-! ### Parameters -/

theorem dur_setDur (e : Envelope) (v : Word) {stg : Stage} (h : stg ≠ .sustain ∧ stg ≠ .finished) (x : Stage) :
    (e.setDur v stg).dur x = if x = stg then v else e.dur x := by
  cases stg <;> cases x <;> simp_all [Envelope.setDur, Envelope.dur]

@[simp] theorem setDur_stg (e : Envelope) (v : Word) (stg : Stage) : (e.setDur v stg).stg = e.stg := by
  cases stg <;> rfl

@[simp] theorem setDur_t (e : Envelope) (v : Word) (stg : Stage) : (e.setDur v stg).t = e.t := by cases stg <;> rfl

@[simp] theorem setDur_sus (e : Envelope) (v : Word) (stg : Stage) : (e.setDur v stg).sus = e.sus := by
  cases stg <;> rfl

@[simp] theorem setDur_rstart (e : Envelope) (v : Word) (stg : Stage) : (e.setDur v stg).rstart = e.rstart := by
  cases stg <;> rfl

/-! ### Stages -/

/-- A timed stage and its successor, as `nextStage` tells them. -/
theorem nextStage_eq (stg : Stage) : nextStage stg = if stageTimed stg then some (stageSucc stg) else none := by
  cases stg <;> rfl

theorem timed_iff (stg : Stage) : stageTimed stg = true ↔ stg ≠ .sustain ∧ stg ≠ .finished := by
  cases stg <;> simp [stageTimed]

/-- How many turns the loop of rule R125 can still make from a stage. -/
def stagesLeft : Stage → Nat
  | .delay => 4
  | .attack => 3
  | .hold => 2
  | .decay => 1
  | .release => 1
  | .sustain => 0
  | .finished => 0

theorem stagesLeft_le (stg : Stage) : stagesLeft stg ≤ 4 := by cases stg <;> decide

theorem stagesLeft_succ {stg : Stage} (h : stageTimed stg = true) : stagesLeft (stageSucc stg) + 1 = stagesLeft stg := by
  cases stg <;> simp_all [stagesLeft, stageSucc, stageTimed]

@[simp] theorem leaveStage_stg (e : Envelope) : e.leaveStage.stg = stageSucc e.stg := by
  unfold Envelope.leaveStage; split <;> rfl

@[simp] theorem leaveStage_dur (e : Envelope) (x : Stage) : e.leaveStage.dur x = e.dur x := by
  unfold Envelope.leaveStage; split <;> cases x <;> rfl

/-- With enough turns the bounded loop is the loop of rule R125. -/
theorem settle_whileAdvances (n : Nat) (e : Envelope) (h : stagesLeft e.stg ≤ n) :
    WhileAdvances e (Envelope.settle n e) := by
  induction n generalizing e with
  | zero =>
    refine .leave e (.inl ?_)
    cases hs : e.stg <;> simp_all [stagesLeft, nextStage]
  | succ n ih =>
    unfold Envelope.settle
    split
    · next hc =>
      obtain ⟨ht, hd⟩ := hc
      have hn : nextStage e.stg = some (stageSucc e.stg) := by rw [nextStage_eq, if_pos ht]
      have hl := stagesLeft_succ ht
      have hlen : stagesLeft e.leaveStage.stg ≤ n := by rw [leaveStage_stg]; omega
      by_cases hm : stageTimed (stageSucc e.stg) = true
      · refine .turn e _ _ hn hd ((timed_iff _).1 hm) ?_
        have := ih e.leaveStage hlen
        unfold Envelope.leaveStage at this ⊢
        rwa [if_pos hm] at this ⊢
      · have he : e.leaveStage = { e with t := 0, stg := stageSucc e.stg } := by
          unfold Envelope.leaveStage; rw [if_neg hm]
        have hfix : Envelope.settle n e.leaveStage = e.leaveStage := by
          cases n with
          | zero => rfl
          | succ n => unfold Envelope.settle; rw [if_neg (by rw [leaveStage_stg]; simp [hm])]
        rw [hfix, he]
        refine .last e _ hn hd ?_
        cases hs : e.stg <;> simp_all [stageSucc, stageTimed]
    · next hc =>
      refine .leave e ?_
      rw [nextStage_eq]
      by_cases ht : stageTimed e.stg = true
      · exact .inr (by simp [ht] at hc; omega)
      · exact .inl (by rw [if_neg ht])

/-- The loop of rule R125 has one result. -/
theorem whileAdvances_unique {e a b : Envelope} (ha : WhileAdvances e a) (hb : WhileAdvances e b) : a = b := by
  induction ha generalizing b with
  | leave e h =>
    cases hb with
    | leave _ _ => rfl
    | turn _ _ n hn hd _ _ => rcases h with h | h <;> [simp [h] at hn; omega]
    | last _ n hn hd _ => rcases h with h | h <;> [simp [h] at hn; omega]
  | turn e a n hn hd hm _ ih =>
    cases hb with
    | leave _ h => rcases h with h | h <;> [simp [h] at hn; omega]
    | turn _ _ n' hn' _ _ h' =>
      have : n = n' := by rw [hn] at hn'; injection hn'
      subst this
      exact ih h'
    | last _ n' hn' _ hm' =>
      have : n = n' := by rw [hn] at hn'; injection hn'
      subst this
      rcases hm' with h | h <;> [exact absurd h hm.1; exact absurd h hm.2]
  | last e n hn hd hm =>
    cases hb with
    | leave _ h => rcases h with h | h <;> [simp [h] at hn; omega]
    | turn _ _ n' hn' _ hm' _ =>
      have : n = n' := by rw [hn] at hn'; injection hn'
      subst this
      rcases hm with h | h <;> [exact absurd h hm'.1; exact absurd h hm'.2]
    | last _ n' hn' _ _ =>
      have : n = n' := by rw [hn] at hn'; injection hn'
      subst this
      rfl

/-- `advance` is the loop of rule R125 after the time has grown. -/
theorem advance_whileAdvances (e : Envelope) (dt : Int) :
    WhileAdvances { e with t := sat64 (e.t.toInt + dt) } (e.advance dt) :=
  settle_whileAdvances 4 _ (stagesLeft_le _)

/-! ### Progress (rule R131) -/

theorem prog_eq_progress (t d : Int) : prog t d = progress t d := by
  unfold prog progress fdivp; rw [shl_32]

theorem prog_range {t d : Int} (ht : 0 ≤ t) : 0 ≤ prog t d ∧ prog t d ≤ oneFx := by
  rw [prog_eq_progress]
  unfold progress
  split
  · simp
  · have : 0 ≤ t * 4294967296 / d := Int.ediv_nonneg (by omega) (by omega)
    simp only [oneFx]
    omega

/-- The product of two fractions of `[0, ONE]` is one, no greater than either factor. -/
theorem fmul_fraction {a p : Int} (ha : 0 ≤ a) (ha' : a ≤ oneFx) (hp : 0 ≤ p) (hp' : p ≤ oneFx) :
    fmul a p = a * p / 4294967296 ∧ 0 ≤ fmul a p ∧ fmul a p ≤ a := by
  have h1 : 0 ≤ a * p / 4294967296 := Int.ediv_nonneg (Int.mul_nonneg ha hp) (by norm_num)
  have h2 : a * p / 4294967296 ≤ a := by
    have : a * p ≤ a * 4294967296 := Int.mul_le_mul_of_nonneg_left hp' ha
    omega
  have h3 : fmul a p = a * p / 4294967296 := by
    unfold fmul
    rw [shr_32]
    apply satInt_of_range <;> simp only [oneFx, minFx, maxFx] at * <;> omega
  rw [h3]
  exact ⟨rfl, h1, h2⟩

end Sys2Proof.Machine
end

