-- ==== Sys2Proof/Laws/Frames.lean ====
section
/-! SUPPORT. Laws/Frames.lean: what each write of one register, unit or slot changes and what it leaves, said once. -/

namespace Sys2Proof.Machine

set_option Elab.async false

/-- Writing a register writes that register and nothing else. -/
theorem writesReg_setReg (s : State) (r : Reg) (v : Word) : WritesReg r v s (s.setReg r v) :=
  ⟨reg_setReg_same s r v, fun q hq => reg_setReg_other s r q v hq, fun u => by cases u <;> rfl,
    fun u => by cases u <;> rfl, fun _ => rfl, ⟨fun _ => rfl, rfl⟩, ⟨rfl, rfl, rfl, rfl⟩, rfl, rfl⟩

/-- Writing an envelope unit writes that unit and nothing else. -/
theorem writesEnv_setEnv (s : State) (u : EnvSel) (e : Envelope) : WritesEnv u e s (s.setEnv u e) := by
  cases u
  · exact ⟨rfl, fun x hx => by cases x <;> [exact absurd rfl hx; rfl], fun _ => rfl, fun x => by cases x <;> rfl,
      fun _ => rfl, ⟨fun _ => rfl, rfl⟩, ⟨rfl, rfl, rfl, rfl⟩, rfl, rfl⟩
  · exact ⟨rfl, fun x hx => by cases x <;> [rfl; exact absurd rfl hx], fun _ => rfl, fun x => by cases x <;> rfl,
      fun _ => rfl, ⟨fun _ => rfl, rfl⟩, ⟨rfl, rfl, rfl, rfl⟩, rfl, rfl⟩

/-- Writing an LFO unit writes that unit and nothing else. -/
theorem writesLfo_setLfo (s : State) (u : LfoSel) (o : Lfo) : WritesLfo u o s (s.setLfo u o) := by
  cases u
  · exact ⟨rfl, fun x hx => by cases x <;> [exact absurd rfl hx; rfl], fun _ => rfl, fun x => by cases x <;> rfl,
      fun _ => rfl, ⟨fun _ => rfl, rfl⟩, ⟨rfl, rfl, rfl, rfl⟩, rfl, rfl⟩
  · exact ⟨rfl, fun x hx => by cases x <;> [rfl; exact absurd rfl hx], fun _ => rfl, fun x => by cases x <;> rfl,
      fun _ => rfl, ⟨fun _ => rfl, rfl⟩, ⟨rfl, rfl, rfl, rfl⟩, rfl, rfl⟩

/-- Writing a slot writes that slot and nothing else. -/
theorem writesSlot_setSlot (s : State) (i : BitVec 6) (m : Slot) : WritesSlot i m s (s.setSlot i m) :=
  ⟨slot_setSlot_same s i m, fun j hj => by rw [slot_setSlot, if_neg (Ne.symm hj)], fun _ => rfl,
    fun u => by cases u <;> rfl, fun u => by cases u <;> rfl, ⟨fun _ => rfl, rfl⟩, ⟨rfl, rfl, rfl, rfl⟩, rfl, rfl⟩

end Sys2Proof.Machine
end

