-- ==== Sys2Proof/Laws/Lfo.lean ====
section
/-! SUPPORT. Laws/Lfo.lean: all that the shared operations of an LFO unit can do (43_lfo.md). -/

namespace Sys2Proof.Machine

set_option Elab.async false

/-- The phase after a turn, as a number (rule R156). -/
theorem turn_toNat (o : Lfo) (eff : Int) :
    ((o.turn eff).toNat : Int) = (o.ph.toNat + o.frq.toInt * eff / 4294967296) % 4294967296 := by
  unfold Lfo.turn
  rw [shr_32, BitVec.toNat_ofInt]
  norm_num
  omega

/-- The sawtooth on numbers (rule R151). -/
theorem waveSaw_eq (p : BitVec 32) :
    waveSaw p = 2 * (((p.toNat : Int) + 2147483648) % 4294967296) - 4294967296 := by
  have h := BitVec.toNat_add p 2147483648#32
  have h2 : (2147483648#32).toNat = 2147483648 := rfl
  have h3 : (2 : Nat) ^ 32 = 4294967296 := by norm_num
  rw [h2, h3] at h
  unfold waveSaw
  generalize (p + 2147483648#32).toNat = a at *
  generalize p.toNat = n at *
  omega

/-- A unit that updates keeps its delay and its frequency; it runs on if it runs (rule R156). -/
theorem update_keeps (o : Lfo) (dt : Int) :
    (o.update dt).dly = o.dly ∧ (o.update dt).frq = o.frq ∧
      (o.run = true → (o.update dt).run = true ∧ (o.update dt).td = o.td) := by
  unfold Lfo.update Lfo.updateDelayed
  split
  · exact ⟨rfl, rfl, fun h => ⟨h, rfl⟩⟩
  · split
    · exact ⟨rfl, rfl, fun h => ⟨h, rfl⟩⟩
    · next hr => split <;> exact ⟨rfl, rfl, fun h => absurd h hr⟩

end Sys2Proof.Machine
end

