-- ==== Sys2Proof/Laws/Modulator.lean ====
section
/-! SUPPORT. Laws/Modulator.lean: all that the shared operations over slots and the accumulator can do (44_modulator.md). -/

namespace Sys2Proof.Machine

set_option Elab.async false

/-! ### Sums (rule R183) -/

/-- A sum over the first `n` elements of a list that pass a test, index by index. -/
theorem sum_take_filter {α : Type} (p : α → Bool) (f : α → Int) (l : List α) (n m : Nat) (h : l.length = m) :
    (((l.take n).filter p).map f).sum =
      ∑ i : Fin m, if i.val < n ∧ p (l[i.val]'(h ▸ i.isLt)) = true then f (l[i.val]'(h ▸ i.isLt)) else 0 := by
  subst h
  induction l generalizing n with
  | nil => simp
  | cons a l ih =>
    cases n with
    | zero => simp
    | succ n =>
      have := ih n
      refine Eq.trans ?_ (Fin.sum_univ_succ (n := l.length) _).symm
      simp only [List.take_succ_cons, List.filter_cons]
      by_cases hp : p a = true
      · simp [hp, this]
      · simp [hp, this]

/-- The machine's sum is the sum over exactly the slots bound to `g` (rule R183). -/
theorem sumExact_eq (s : State) (g : BitVec 6) : s.sumExact g = boundSum s g := by
  unfold State.sumExact State.boundTo boundSum
  rw [sum_take_filter _ _ _ _ 64 (by simp)]
  refine Finset.sum_congr rfl fun i _ => ?_
  simp [Bool.and_eq_true, beq_iff_eq]

theorem sumAt_eq (s : State) (g : BitVec 6) : s.sumAt g = sat64 (boundSum s g) := by
  unfold State.sumAt; rw [sumExact_eq]

/-- A sum depends on the slots and on `NMOD` alone. -/
theorem boundSum_congr {s t : State} (hm : t.mods = s.mods) (hp : t.params = s.params) (g : BitVec 6) :
    boundSum t g = boundSum s g := by
  unfold boundSum; rw [hm, hp]

theorem accAt_congr {s t : State} (h : t.acc = s.acc) (g : BitVec 6) : t.accAt g = s.accAt g := by
  simp only [State.accAt, h]

theorem dirtyAt_congr {s t : State} (h : t.dirty = s.dirty) (g : BitVec 6) : t.dirtyAt g = s.dirtyAt g := by
  simp only [State.dirtyAt, h]

/-! ### Masks and resolution -/

theorem genOf_mk (g : BitVec 6) : genOf ⟨g.toNat, g.isLt⟩ = g := by
  apply BitVec.eq_of_toNat_eq
  have := g.isLt
  simp [genOf]

@[simp] theorem getLsbD_genMask (g x : BitVec 6) : (genMask g).getLsbD x.toNat = decide (x = g) := by
  have h1 := g.isLt
  have h2 := x.isLt
  unfold genMask
  rw [BitVec.getLsbD_shiftLeft]
  by_cases h : x = g
  · subst h
    simp [show x.toNat < 64 from x.isLt]
  · have hn : x.toNat ≠ g.toNat := fun hh => h (BitVec.eq_of_toNat_eq hh)
    have hb : ∀ k, k ≠ 0 → (1#64).getLsbD k = false := by
      intro k hk
      rw [BitVec.getLsbD_one]
      simp [hk]
    by_cases hlt : x.toNat < g.toNat
    · simp [h, hlt]
    · rw [hb _ (by omega)]
      simp [h]

/-- What resolving a mask does to one entry (rule R183). -/
theorem accAt_resolveAll (s : State) (d : BitVec 64) (g : BitVec 6) :
    (s.resolveAll d).accAt g = if d.getLsbD g.toNat then sat64 (boundSum s g) else s.accAt g := by
  unfold State.accAt
  simp only [resolveAll_acc, Vector.getElem_ofFn, sumAt_eq, genOf_mk]
  rfl

/-- What resolving a mask does to one mark (rule R183). -/
theorem dirtyAt_resolveAll (s : State) (d : BitVec 64) (g : BitVec 6) :
    (s.resolveAll d).dirtyAt g = (s.dirtyAt g || d.getLsbD g.toNat) := by
  unfold State.dirtyAt
  rw [resolveAll_dirty, BitVec.getLsbD_or]

/-! ### Notification (rule R182) -/

theorem slot_notifyAll (s : State) (k : Kind) (x : BitVec 7) (w : RawWidth) (raw : Int) (i : BitVec 6) :
    (s.notifyAll k x w raw).slot i = if i.toNat < s.params.nmod then (s.slot i).notify k x w raw else s.slot i := by
  unfold State.slot
  simp only [notifyAll_mods, Vector.getElem_ofFn]
  rfl

theorem inputMatches_iff (v : Bool) (x : SlotInput) (k : Kind) (idx : BitVec 7) :
    inputMatches v x k idx = true ↔ BoundTo v x k idx := by
  unfold inputMatches BoundTo
  simp [Bool.and_eq_true, beq_iff_eq, and_assoc]

theorem matchesCtl_iff (m : Slot) (k : Kind) (idx : BitVec 7) :
    m.matchesCtl k idx = true ↔ BoundTo m.valid m.src k idx ∨ BoundTo m.valid m.amt k idx := by
  unfold Slot.matchesCtl Slot.matchesSrc Slot.matchesAmt
  rw [Bool.or_eq_true, inputMatches_iff, inputMatches_iff]

/-- A bit of the mask of affected destinations, over any list of slots. -/
theorem getLsbD_foldr_affected (k : Kind) (idx : BitVec 7) (l : List Slot) (g : BitVec 6) :
    ((l.foldr (fun m d => if m.matchesCtl k idx then genMask m.dest ||| d else d) 0 : BitVec 64).getLsbD g.toNat = true)
      ↔ ∃ m ∈ l, m.matchesCtl k idx = true ∧ m.dest = g := by
  induction l with
  | nil => simp
  | cons a l ih =>
    rw [List.foldr_cons]
    by_cases ha : a.matchesCtl k idx = true
    · rw [if_pos ha, BitVec.getLsbD_or, Bool.or_eq_true, ih, getLsbD_genMask, decide_eq_true_iff, List.exists_mem_cons_iff]
      exact or_congr ⟨fun h => ⟨ha, h.symm⟩, fun h => h.2.symm⟩ Iff.rfl
    · rw [if_neg ha, ih]
      simp [ha]

/-- Which destinations `MUPD` resolves: those of a matching slot of the instance (rule R182). -/
theorem affected_iff (s : State) (k : Kind) (idx : BitVec 7) (g : BitVec 6) :
    (s.affected k idx).getLsbD g.toNat = true ↔
      ∃ i : BitVec 6, i.toNat < s.params.nmod ∧ (s.slot i).matchesCtl k idx = true ∧ (s.slot i).dest = g := by
  unfold State.affected
  rw [getLsbD_foldr_affected]
  constructor
  · rintro ⟨m, hm, h⟩
    obtain ⟨j, hj, rfl⟩ := List.mem_iff_getElem.1 hm
    simp only [List.length_take, Vector.length_toList] at hj
    refine ⟨BitVec.ofNat 6 j, ?_, ?_⟩
    · simp; omega
    · have : (BitVec.ofNat 6 j).toNat = j := by simp; omega
      simp only [State.slot, this]
      simpa using h
  · rintro ⟨i, hi, h⟩
    refine ⟨s.slot i, List.mem_iff_getElem.2 ⟨i.toNat, ?_, ?_⟩, h⟩
    · have := i.isLt
      simp only [List.length_take, Vector.length_toList]
      omega
    · simp [State.slot]

/-- What `MUPD` does to one slot's descriptor: nothing (rule R182). -/
theorem notify_descriptor (m : Slot) (k : Kind) (x : BitVec 7) (w : RawWidth) (raw : Int) :
    (m.notify k x w raw).valid = m.valid ∧ (m.notify k x w raw).src = m.src ∧ (m.notify k x w raw).amt = m.amt ∧
      (m.notify k x w raw).dest = m.dest ∧ (m.notify k x w raw).amount = m.amount := by
  unfold Slot.notify Slot.withContrib
  split <;> exact ⟨rfl, rfl, rfl, rfl, rfl⟩

/-! ### Ranges (rules R176, R177, R179) -/

theorem curveFn_range (c : OpenCurve) (p : Polarity) (x : Int) : normLow p ≤ curveFn c p x ∧ curveFn c p x ≤ oneFx := by
  have : normLow p ≤ oneFx := by cases p <;> simp [normLow]
  unfold curveFn clamp
  omega

theorem rawFraction_range (w : RawWidth) (raw : Int) : 0 ≤ rawFraction w raw ∧ rawFraction w raw ≤ oneFx := by
  unfold rawFraction rawOf
  rw [shl_32]
  cases w <;> simp only [rawRange, oneFx] <;> omega

theorem norm_range (x : SlotInput) (w : RawWidth) (raw : Int) :
    normLow x.pol ≤ x.norm w raw ∧ x.norm w raw ≤ oneFx := by
  have hr := rawFraction_range w raw
  have hd : 0 ≤ directed x.dir (rawFraction w raw) ∧ directed x.dir (rawFraction w raw) ≤ oneFx := by
    cases x.dir <;> simp only [directed, oneFx] at * <;> omega
  unfold SlotInput.norm
  generalize directed x.dir (rawFraction w raw) = y at hd
  cases x.curve <;> simp only [curved]
  · cases x.pol <;> simp only [polarised, normLow, oneFx] at * <;> omega
  · exact curveFn_range _ _ _
  · exact curveFn_range _ _ _
  · split <;> cases x.pol <;> simp only [polarised, normLow, oneFx] at * <;> omega

/-- The product of two values of `[-ONE, ONE]` needs no saturation and lies in `[-ONE, ONE]`. -/
theorem fmul_unit {a b : Int} (ha : -oneFx ≤ a) (ha' : a ≤ oneFx) (hb : -oneFx ≤ b) (hb' : b ≤ oneFx) :
    fmul a b = a * b / 4294967296 ∧ -oneFx ≤ a * b / 4294967296 ∧ a * b / 4294967296 ≤ oneFx := by
  simp only [oneFx] at *
  have h1 : a * b ≤ 4294967296 * 4294967296 := by nlinarith
  have h2 : -(4294967296 * 4294967296) ≤ a * b := by nlinarith
  have h3 : -4294967296 ≤ a * b / 4294967296 ∧ a * b / 4294967296 ≤ 4294967296 := by omega
  refine ⟨?_, h3⟩
  unfold fmul
  rw [shr_32]
  apply satInt_of_range <;> simp only [minFx, maxFx] <;> omega

end Sys2Proof.Machine
end

