-- ==== Sys2Proof/Laws/PerInstr.lean ====
section
/-! SUPPORT. Laws/PerInstr.lean: two families of facts about every command's encoding, one lemma per constructor. -/

namespace Sys2Proof.Laws

set_option Elab.async false

/-- The opcode byte of an encoded command is the `op` column of its row (30_encoding.md rule R75). -/
def OpcodeByte.Statement (i : Instr) : Prop := opOf (encode i) = i.opcode.row.code

/-- An encoded command has every reserved bit zero (30_encoding.md rule R74). -/
def ReservedBitsClear.Statement (i : Instr) : Prop := i.opcode.row.reservedClear (encode i) = true

/-! ### `OpcodeByte` -/

theorem OpcodeByte.nop : OpcodeByte.Statement (.nop) := by
  simp [OpcodeByte.Statement, encode, Instr.opcode, Opcode.row, rowR]

theorem OpcodeByte.cb2r (rd rs1 : Reg) : OpcodeByte.Statement (.cb2r rd rs1) := by
  simp [OpcodeByte.Statement, encode, Instr.opcode, Opcode.row, rowR]

theorem OpcodeByte.k2hz (rd rs1 : Reg) : OpcodeByte.Statement (.k2hz rd rs1) := by
  simp [OpcodeByte.Statement, encode, Instr.opcode, Opcode.row, rowR]

theorem OpcodeByte.tc2s (rd rs1 : Reg) : OpcodeByte.Statement (.tc2s rd rs1) := by
  simp [OpcodeByte.Statement, encode, Instr.opcode, Opcode.row, rowR]

theorem OpcodeByte.ac2hz (rd rs1 : Reg) : OpcodeByte.Statement (.ac2hz rd rs1) := by
  simp [OpcodeByte.Statement, encode, Instr.opcode, Opcode.row, rowR]

theorem OpcodeByte.joinb (rd rs1 rs2 : Reg) : OpcodeByte.Statement (.joinb rd rs1 rs2) := by
  simp [OpcodeByte.Statement, encode, Instr.opcode, Opcode.row, rowR]

theorem OpcodeByte.tblrd (rd rs1 : Reg) (t : Table) : OpcodeByte.Statement (.tblrd rd rs1 t) := by
  simp [OpcodeByte.Statement, encode, Instr.opcode, Opcode.row, rowR]

theorem OpcodeByte.esetp (u : EnvSel) (st : Stage) (rs1 : Reg) : OpcodeByte.Statement (.esetp u st rs1) := by
  simp [OpcodeByte.Statement, encode, Instr.opcode, Opcode.row, rowR]

theorem OpcodeByte.esetks (u : EnvSel) (st : Stage) (rs1 rs2 rs3 : Reg) : OpcodeByte.Statement (.esetks u st rs1 rs2 rs3) := by
  simp [OpcodeByte.Statement, encode, Instr.opcode, Opcode.row, rowR]

theorem OpcodeByte.eupd (u : EnvSel) (rs1 : Reg) : OpcodeByte.Statement (.eupd u rs1) := by
  simp [OpcodeByte.Statement, encode, Instr.opcode, Opcode.row, rowR]

theorem OpcodeByte.erel (u : EnvSel) : OpcodeByte.Statement (.erel u) := by
  simp [OpcodeByte.Statement, encode, Instr.opcode, Opcode.row, rowR]

theorem OpcodeByte.efin (u : EnvSel) : OpcodeByte.Statement (.efin u) := by
  simp [OpcodeByte.Statement, encode, Instr.opcode, Opcode.row, rowR]

theorem OpcodeByte.eget (rd : Reg) (u : EnvSel) : OpcodeByte.Statement (.eget rd u) := by
  simp [OpcodeByte.Statement, encode, Instr.opcode, Opcode.row, rowR]

theorem OpcodeByte.estg (rd : Reg) (u : EnvSel) : OpcodeByte.Statement (.estg rd u) := by
  simp [OpcodeByte.Statement, encode, Instr.opcode, Opcode.row, rowR]

theorem OpcodeByte.lsetd (u : LfoSel) (rs1 : Reg) : OpcodeByte.Statement (.lsetd u rs1) := by
  simp [OpcodeByte.Statement, encode, Instr.opcode, Opcode.row, rowR]

theorem OpcodeByte.lsetf (u : LfoSel) (rs1 : Reg) : OpcodeByte.Statement (.lsetf u rs1) := by
  simp [OpcodeByte.Statement, encode, Instr.opcode, Opcode.row, rowR]

theorem OpcodeByte.lupd (u : LfoSel) (rs1 : Reg) : OpcodeByte.Statement (.lupd u rs1) := by
  simp [OpcodeByte.Statement, encode, Instr.opcode, Opcode.row, rowR]

theorem OpcodeByte.lget (rd : Reg) (u : LfoSel) : OpcodeByte.Statement (.lget rd u) := by
  simp [OpcodeByte.Statement, encode, Instr.opcode, Opcode.row, rowR]

theorem OpcodeByte.mcfg (slot : BitVec 6) (rs1 : Reg) : OpcodeByte.Statement (.mcfg slot rs1) := by
  simp [OpcodeByte.Statement, encode, Instr.opcode, Opcode.row, rowR]

theorem OpcodeByte.mupd (kind : Kind) (width : RawWidth) (rs1 rs2 : Reg) : OpcodeByte.Statement (.mupd kind width rs1 rs2) := by
  simp [OpcodeByte.Statement, encode, Instr.opcode, Opcode.row, rowR]

theorem OpcodeByte.msum (gen : BitVec 6) : OpcodeByte.Statement (.msum gen) := by
  simp [OpcodeByte.Statement, encode, Instr.opcode, Opcode.row, rowR]

theorem OpcodeByte.mget (rd : Reg) (slot : BitVec 6) : OpcodeByte.Statement (.mget rd slot) := by
  simp [OpcodeByte.Statement, encode, Instr.opcode, Opcode.row, rowR]

theorem OpcodeByte.mmatch (kind : Kind) (rd rs1 : Reg) (slot : BitVec 6) : OpcodeByte.Statement (.mmatch kind rd rs1 slot) := by
  simp [OpcodeByte.Statement, encode, Instr.opcode, Opcode.row, rowR]

theorem OpcodeByte.rdacc (rd : Reg) (gen : BitVec 6) : OpcodeByte.Statement (.rdacc rd gen) := by
  simp [OpcodeByte.Statement, encode, Instr.opcode, Opcode.row, rowR]

theorem OpcodeByte.geff (rd rs1 : Reg) (gen : BitVec 6) : OpcodeByte.Statement (.geff rd rs1 gen) := by
  simp [OpcodeByte.Statement, encode, Instr.opcode, Opcode.row, rowR]

theorem OpcodeByte.rddirty (rd : Reg) : OpcodeByte.Statement (.rddirty rd) := by
  simp [OpcodeByte.Statement, encode, Instr.opcode, Opcode.row, rowR]

theorem OpcodeByte.mrdd (rd : Reg) (slot : BitVec 6) : OpcodeByte.Statement (.mrdd rd slot) := by
  simp [OpcodeByte.Statement, encode, Instr.opcode, Opcode.row, rowR]

theorem OpcodeByte.li (rd : Reg) (imm : BitVec 20) : OpcodeByte.Statement (.li rd imm) := by
  simp [OpcodeByte.Statement, encode, Instr.opcode, Opcode.row, rowI]

theorem OpcodeByte.lif (rd : Reg) (imm : BitVec 20) : OpcodeByte.Statement (.lif rd imm) := by
  simp [OpcodeByte.Statement, encode, Instr.opcode, Opcode.row, rowI]

theorem OpcodeByte.mov (rd rs1 : Reg) : OpcodeByte.Statement (.mov rd rs1) := by
  simp [OpcodeByte.Statement, encode, Instr.opcode, Opcode.row, rowR]

theorem OpcodeByte.fadd (rd rs1 rs2 : Reg) : OpcodeByte.Statement (.fadd rd rs1 rs2) := by
  simp [OpcodeByte.Statement, encode, Instr.opcode, Opcode.row, rowR]

theorem OpcodeByte.fsub (rd rs1 rs2 : Reg) : OpcodeByte.Statement (.fsub rd rs1 rs2) := by
  simp [OpcodeByte.Statement, encode, Instr.opcode, Opcode.row, rowR]

theorem OpcodeByte.fmul (rd rs1 rs2 : Reg) : OpcodeByte.Statement (.fmul rd rs1 rs2) := by
  simp [OpcodeByte.Statement, encode, Instr.opcode, Opcode.row, rowR]

theorem OpcodeByte.i2f (rd rs1 : Reg) : OpcodeByte.Statement (.i2f rd rs1) := by
  simp [OpcodeByte.Statement, encode, Instr.opcode, Opcode.row, rowR]

theorem OpcodeByte.f2i (rd rs1 : Reg) : OpcodeByte.Statement (.f2i rd rs1) := by
  simp [OpcodeByte.Statement, encode, Instr.opcode, Opcode.row, rowR]

theorem OpcodeByte.vinit : OpcodeByte.Statement (.vinit) := by
  simp [OpcodeByte.Statement, encode, Instr.opcode, Opcode.row, rowR]

/-! ### `ReservedBitsClear` -/

theorem ReservedBitsClear.nop : ReservedBitsClear.Statement (.nop) := by
  simp [ReservedBitsClear.Statement, encode, Instr.opcode, Opcode.row, rowR, OpRow.reservedClear]

theorem ReservedBitsClear.cb2r (rd rs1 : Reg) : ReservedBitsClear.Statement (.cb2r rd rs1) := by
  simp [ReservedBitsClear.Statement, encode, Instr.opcode, Opcode.row, rowR, OpRow.reservedClear]

theorem ReservedBitsClear.k2hz (rd rs1 : Reg) : ReservedBitsClear.Statement (.k2hz rd rs1) := by
  simp [ReservedBitsClear.Statement, encode, Instr.opcode, Opcode.row, rowR, OpRow.reservedClear]

theorem ReservedBitsClear.tc2s (rd rs1 : Reg) : ReservedBitsClear.Statement (.tc2s rd rs1) := by
  simp [ReservedBitsClear.Statement, encode, Instr.opcode, Opcode.row, rowR, OpRow.reservedClear]

theorem ReservedBitsClear.ac2hz (rd rs1 : Reg) : ReservedBitsClear.Statement (.ac2hz rd rs1) := by
  simp [ReservedBitsClear.Statement, encode, Instr.opcode, Opcode.row, rowR, OpRow.reservedClear]

theorem ReservedBitsClear.joinb (rd rs1 rs2 : Reg) : ReservedBitsClear.Statement (.joinb rd rs1 rs2) := by
  simp [ReservedBitsClear.Statement, encode, Instr.opcode, Opcode.row, rowR, OpRow.reservedClear]

theorem ReservedBitsClear.tblrd (rd rs1 : Reg) (t : Table) : ReservedBitsClear.Statement (.tblrd rd rs1 t) := by
  cases t <;> simp [ReservedBitsClear.Statement, encode, Instr.opcode, Opcode.row, rowR, OpRow.reservedClear] <;> decide

theorem ReservedBitsClear.esetp (u : EnvSel) (st : Stage) (rs1 : Reg) : ReservedBitsClear.Statement (.esetp u st rs1) := by
  cases u <;> cases st <;> simp [ReservedBitsClear.Statement, encode, Instr.opcode, Opcode.row, rowR, OpRow.reservedClear] <;> decide

theorem ReservedBitsClear.esetks (u : EnvSel) (st : Stage) (rs1 rs2 rs3 : Reg) : ReservedBitsClear.Statement (.esetks u st rs1 rs2 rs3) := by
  cases u <;> cases st <;> simp [ReservedBitsClear.Statement, encode, Instr.opcode, Opcode.row, rowR, OpRow.reservedClear] <;> decide

theorem ReservedBitsClear.eupd (u : EnvSel) (rs1 : Reg) : ReservedBitsClear.Statement (.eupd u rs1) := by
  cases u <;> simp [ReservedBitsClear.Statement, encode, Instr.opcode, Opcode.row, rowR, OpRow.reservedClear] <;> decide

theorem ReservedBitsClear.erel (u : EnvSel) : ReservedBitsClear.Statement (.erel u) := by
  cases u <;> simp [ReservedBitsClear.Statement, encode, Instr.opcode, Opcode.row, rowR, OpRow.reservedClear] <;> decide

theorem ReservedBitsClear.efin (u : EnvSel) : ReservedBitsClear.Statement (.efin u) := by
  cases u <;> simp [ReservedBitsClear.Statement, encode, Instr.opcode, Opcode.row, rowR, OpRow.reservedClear] <;> decide

theorem ReservedBitsClear.eget (rd : Reg) (u : EnvSel) : ReservedBitsClear.Statement (.eget rd u) := by
  cases u <;> simp [ReservedBitsClear.Statement, encode, Instr.opcode, Opcode.row, rowR, OpRow.reservedClear] <;> decide

theorem ReservedBitsClear.estg (rd : Reg) (u : EnvSel) : ReservedBitsClear.Statement (.estg rd u) := by
  cases u <;> simp [ReservedBitsClear.Statement, encode, Instr.opcode, Opcode.row, rowR, OpRow.reservedClear] <;> decide

theorem ReservedBitsClear.lsetd (u : LfoSel) (rs1 : Reg) : ReservedBitsClear.Statement (.lsetd u rs1) := by
  cases u <;> simp [ReservedBitsClear.Statement, encode, Instr.opcode, Opcode.row, rowR, OpRow.reservedClear] <;> decide

theorem ReservedBitsClear.lsetf (u : LfoSel) (rs1 : Reg) : ReservedBitsClear.Statement (.lsetf u rs1) := by
  cases u <;> simp [ReservedBitsClear.Statement, encode, Instr.opcode, Opcode.row, rowR, OpRow.reservedClear] <;> decide

theorem ReservedBitsClear.lupd (u : LfoSel) (rs1 : Reg) : ReservedBitsClear.Statement (.lupd u rs1) := by
  cases u <;> simp [ReservedBitsClear.Statement, encode, Instr.opcode, Opcode.row, rowR, OpRow.reservedClear] <;> decide

theorem ReservedBitsClear.lget (rd : Reg) (u : LfoSel) : ReservedBitsClear.Statement (.lget rd u) := by
  cases u <;> simp [ReservedBitsClear.Statement, encode, Instr.opcode, Opcode.row, rowR, OpRow.reservedClear] <;> decide

theorem ReservedBitsClear.mcfg (slot : BitVec 6) (rs1 : Reg) : ReservedBitsClear.Statement (.mcfg slot rs1) := by
  simp [ReservedBitsClear.Statement, encode, Instr.opcode, Opcode.row, rowR, OpRow.reservedClear]
  revert slot; decide

theorem ReservedBitsClear.mupd (kind : Kind) (width : RawWidth) (rs1 rs2 : Reg) : ReservedBitsClear.Statement (.mupd kind width rs1 rs2) := by
  cases kind <;> cases width <;> simp [ReservedBitsClear.Statement, encode, Instr.opcode, Opcode.row, rowR, OpRow.reservedClear] <;> decide

theorem ReservedBitsClear.msum (gen : BitVec 6) : ReservedBitsClear.Statement (.msum gen) := by
  simp [ReservedBitsClear.Statement, encode, Instr.opcode, Opcode.row, rowR, OpRow.reservedClear]
  revert gen; decide

theorem ReservedBitsClear.mget (rd : Reg) (slot : BitVec 6) : ReservedBitsClear.Statement (.mget rd slot) := by
  simp [ReservedBitsClear.Statement, encode, Instr.opcode, Opcode.row, rowR, OpRow.reservedClear]
  revert slot; decide

theorem ReservedBitsClear.mmatch (kind : Kind) (rd rs1 : Reg) (slot : BitVec 6) : ReservedBitsClear.Statement (.mmatch kind rd rs1 slot) := by
  simp [ReservedBitsClear.Statement, encode, Instr.opcode, Opcode.row, rowR, OpRow.reservedClear]
  revert slot; cases kind <;> decide

theorem ReservedBitsClear.rdacc (rd : Reg) (gen : BitVec 6) : ReservedBitsClear.Statement (.rdacc rd gen) := by
  simp [ReservedBitsClear.Statement, encode, Instr.opcode, Opcode.row, rowR, OpRow.reservedClear]
  revert gen; decide

theorem ReservedBitsClear.geff (rd rs1 : Reg) (gen : BitVec 6) : ReservedBitsClear.Statement (.geff rd rs1 gen) := by
  simp [ReservedBitsClear.Statement, encode, Instr.opcode, Opcode.row, rowR, OpRow.reservedClear]
  revert gen; decide

theorem ReservedBitsClear.rddirty (rd : Reg) : ReservedBitsClear.Statement (.rddirty rd) := by
  simp [ReservedBitsClear.Statement, encode, Instr.opcode, Opcode.row, rowR, OpRow.reservedClear]

theorem ReservedBitsClear.mrdd (rd : Reg) (slot : BitVec 6) : ReservedBitsClear.Statement (.mrdd rd slot) := by
  simp [ReservedBitsClear.Statement, encode, Instr.opcode, Opcode.row, rowR, OpRow.reservedClear]
  revert slot; decide

theorem ReservedBitsClear.li (rd : Reg) (imm : BitVec 20) : ReservedBitsClear.Statement (.li rd imm) := by
  simp [ReservedBitsClear.Statement, encode, Instr.opcode, Opcode.row, rowI, OpRow.reservedClear]

theorem ReservedBitsClear.lif (rd : Reg) (imm : BitVec 20) : ReservedBitsClear.Statement (.lif rd imm) := by
  simp [ReservedBitsClear.Statement, encode, Instr.opcode, Opcode.row, rowI, OpRow.reservedClear]

theorem ReservedBitsClear.mov (rd rs1 : Reg) : ReservedBitsClear.Statement (.mov rd rs1) := by
  simp [ReservedBitsClear.Statement, encode, Instr.opcode, Opcode.row, rowR, OpRow.reservedClear]

theorem ReservedBitsClear.fadd (rd rs1 rs2 : Reg) : ReservedBitsClear.Statement (.fadd rd rs1 rs2) := by
  simp [ReservedBitsClear.Statement, encode, Instr.opcode, Opcode.row, rowR, OpRow.reservedClear]

theorem ReservedBitsClear.fsub (rd rs1 rs2 : Reg) : ReservedBitsClear.Statement (.fsub rd rs1 rs2) := by
  simp [ReservedBitsClear.Statement, encode, Instr.opcode, Opcode.row, rowR, OpRow.reservedClear]

theorem ReservedBitsClear.fmul (rd rs1 rs2 : Reg) : ReservedBitsClear.Statement (.fmul rd rs1 rs2) := by
  simp [ReservedBitsClear.Statement, encode, Instr.opcode, Opcode.row, rowR, OpRow.reservedClear]

theorem ReservedBitsClear.i2f (rd rs1 : Reg) : ReservedBitsClear.Statement (.i2f rd rs1) := by
  simp [ReservedBitsClear.Statement, encode, Instr.opcode, Opcode.row, rowR, OpRow.reservedClear]

theorem ReservedBitsClear.f2i (rd rs1 : Reg) : ReservedBitsClear.Statement (.f2i rd rs1) := by
  simp [ReservedBitsClear.Statement, encode, Instr.opcode, Opcode.row, rowR, OpRow.reservedClear]

theorem ReservedBitsClear.vinit : ReservedBitsClear.Statement (.vinit) := by
  simp [ReservedBitsClear.Statement, encode, Instr.opcode, Opcode.row, rowR, OpRow.reservedClear]

end Sys2Proof.Laws
end

