-- ==== Sys2Proof/Laws/Step.lean ====
section
/-! SUPPORT. Laws/Step.lean: all that issuing a command, serving a host event and one step can do, said once. -/

namespace Sys2Proof.Machine

set_option Elab.async false

theorem counted_next {o : Host.Outcome State Fault Refusal} {t : State} (h : counted o = .next t) :
    ∃ t', o = .next t' ∧ t = t'.countCmd := by
  cases o with
  | next t' => exact ⟨t', rfl, by injection h with h; exact h.symm⟩
  | fault r => cases h
  | refused r => cases h

/-- All that `issue` can do (30_encoding.md rule R80). -/
theorem issue_cases {w : Cmd} {s t : State} (h : issue w s = .next t) :
    (∃ c, decode s.params.nmod w = .error c ∧ t = (s.raiseIllegal w).countCmd) ∨
      (∃ i t', decode s.params.nmod w = .ok i ∧ exec i s = .next t' ∧ t = t'.countCmd) := by
  unfold issue at h
  split at h
  · next c hc =>
    obtain ⟨t', ht, rfl⟩ := counted_next h
    exact .inl ⟨c, hc, by injection ht with ht; rw [ht]⟩
  · next i hi =>
    obtain ⟨t', ht, rfl⟩ := counted_next h
    exact .inr ⟨i, t', hi, ht, rfl⟩

/-- All that a write to the window can do (20_memory.md rules R54, R55, R58). -/
theorem windowWrite_cases {s t : State} {off : BitVec 8} {size : AccessSize} {v : Word}
    (h : windowWrite s off size v = .next t) :
    (supported off size ∧ off.toNat < 0x80 ∧ t = writeOperand s off size v) ∨
      (supported off size ∧ off = 0x80 ∧ issue (v.extractLsb' 0 32) s = .next t) ∨
      (supported off size ∧ off = 0x84 ∧ t = if v.getLsbD 0 then s.ackIllegal else s) ∨
      t = s := by
  unfold windowWrite done at h
  split at h
  · next hs =>
    split at h
    · next ho => exact .inl ⟨hs, ho, by injection h with h; exact h.symm⟩
    · split at h
      · next ho => exact .inr (.inl ⟨hs, ho, h⟩)
      · split at h
        · next ho => exact .inr (.inr (.inl ⟨hs, ho, by injection h with h; exact h.symm⟩))
        · exact .inr (.inr (.inr (by injection h with h; exact h.symm)))
  · exact .inr (.inr (.inr (by injection h with h; exact h.symm)))

/-- A write to an operand register writes one register or none. -/
theorem writeOperand_cases (s : State) (off : BitVec 8) (size : AccessSize) (v : Word) :
    writeOperand s off size v = s ∨ ∃ x, writeOperand s off size v = s.setReg (regAt off) x := by
  cases size with
  | b1 => exact .inl rfl
  | b2 => exact .inl rfl
  | b4 => exact .inr ⟨_, rfl⟩
  | b8 => exact .inr ⟨_, rfl⟩

/-- All that one step can do: stay idle, or serve the oldest event (20_memory.md rules R60, R61). -/
theorem step_cases {s t : State} (h : step s = .next t) :
    (s.bus = [] ∧ t = s) ∨ ∃ e rest, s.bus = e :: rest ∧ serve e (s.withBus rest) = .next t := by
  unfold step stepOnce at h
  split at h
  · next hb => exact .inl ⟨hb, by injection h with h; exact h.symm⟩
  · next e rest hb => exact .inr ⟨e, rest, hb, h⟩

theorem step_of_bus {s : State} {e : HostEvent} {rest : List HostEvent} (h : s.bus = e :: rest) :
    step s = serve e (s.withBus rest) := by
  unfold step stepOnce; rw [h]

/-- Serving the event that issues a command word is issuing it. -/
theorem serve_commandEvent (w : Cmd) (s : State) : serve (commandEvent w) s = issue w s := by
  have hs : supported 0x80 .b4 = true := by decide
  have hw : (w.setWidth 64).extractLsb' 0 32 = w := by
    apply BitVec.eq_of_toNat_eq
    have := w.isLt
    simp
    omega
  unfold serve commandEvent windowWrite
  show (if supported 0x80 .b4 then _ else _) = _
  rw [if_pos hs, if_neg (by decide), if_pos rfl, hw]

/-- All the effects a step can have, one constructor each; every later fact about steps is a case analysis of this. -/
inductive StepEffect (s : State) : State → Prop where
  /-- Nothing is issued: PSC is idle (60_exceptions.md rule R250). -/
  | idle (hb : s.bus = []) : StepEffect s s
  /-- A read of the window (20_memory.md rules R54, R57). -/
  | read (off : BitVec 8) (size : AccessSize) (rest : List HostEvent) (hb : s.bus = .read off size :: rest) :
      StepEffect s ((s.withBus rest).setRdata (windowRead (s.withBus rest) off size))
  /-- A write with no effect (rules R55, R58). -/
  | ignored (off : BitVec 8) (size : AccessSize) (v : Word) (rest : List HostEvent)
      (hb : s.bus = .write off size v :: rest) (hc : ¬ (off = 0x80 ∧ size = .b4)) : StepEffect s (s.withBus rest)
  /-- A write of an operand register or of one half of it (rule R54). -/
  | operand (off : BitVec 8) (size : AccessSize) (v x : Word) (rest : List HostEvent)
      (hb : s.bus = .write off size v :: rest) (ho : off.toNat < 0x80) :
      StepEffect s ((s.withBus rest).setReg (regAt off) x)
  /-- The acknowledgement of `ILL` (60_exceptions.md rule R244). -/
  | ack (v : Word) (rest : List HostEvent) (hb : s.bus = .write 0x84 .b4 v :: rest) :
      StepEffect s (s.withBus rest).ackIllegal
  /-- An illegal command (60_exceptions.md rule R241). -/
  | illegal (w : Cmd) (c : IllegalCause) (rest : List HostEvent) (hw : s.NextCommand w)
      (hd : decode s.params.nmod w = .error c) : StepEffect s ((s.withBus rest).raiseIllegal w).countCmd
  /-- A legal command (30_encoding.md rule R80). -/
  | command (w : Cmd) (i : Instr) (rest : List HostEvent) (t : State) (hw : s.NextCommand w)
      (hd : decode s.params.nmod w = .ok i) (he : exec i (s.withBus rest) = .next t) : StepEffect s t.countCmd
  /-- The platform's reset input (70_reset_and_hazards.md rule R260). -/
  | reset (rest : List HostEvent) (hb : s.bus = .reset :: rest) : StepEffect s (s.withBus rest).platformReset

/-- Serving a 32-bit write to `CMD` is issuing its word (20_memory.md rule R60). -/
theorem serve_cmd_write (v : Word) (s : State) : serve (.write 0x80 .b4 v) s = issue (v.extractLsb' 0 32) s := by
  unfold serve windowWrite
  dsimp only
  rw [if_pos (by decide), if_neg (by decide), if_pos rfl]

/-- All that one step can do. -/
theorem step_effect {s t : State} (h : step s = .next t) : StepEffect s t := by
  rcases step_cases h with ⟨hb, rfl⟩ | ⟨e, rest, hb, h⟩
  · exact .idle hb
  · cases e with
    | read off size =>
      injection h with h
      exact h ▸ .read off size rest hb
    | reset =>
      injection h with h
      exact h ▸ .reset rest hb
    | write off size v =>
      have hcmd : off = 0x80 → supported off size = true → size = .b4 := by
        intro ho hs
        subst ho
        cases size <;> first | rfl | (exact absurd hs (by decide))
      have hack : off = 0x84 → supported off size = true → size = .b4 := by
        intro ho hs
        subst ho
        cases size <;> first | rfl | (exact absurd hs (by decide))
      rcases windowWrite_cases h with ⟨_, ho, rfl⟩ | ⟨hs, ho, hi⟩ | ⟨hs, ho, rfl⟩ | rfl
      · have hne : ¬ (off = 0x80 ∧ size = .b4) := by rintro ⟨rfl, -⟩; exact absurd ho (by decide)
        rcases writeOperand_cases (s.withBus rest) off size v with hw | ⟨x, hw⟩
        · rw [hw]; exact .ignored off size v rest hb hne
        · rw [hw]; exact .operand off size v x rest hb ho
      · have := hcmd ho hs
        subst ho this
        have hn : s.NextCommand (v.extractLsb' 0 32) := ⟨v, rest, hb, rfl⟩
        rcases issue_cases hi with ⟨c, hd, rfl⟩ | ⟨i, t', hd, he, rfl⟩
        · exact .illegal _ c rest hn hd
        · exact .command _ i rest t' hn hd he
      · have := hack ho hs
        subst ho this
        split
        · exact .ack v rest hb
        · exact .ignored _ _ v rest hb (by decide)
      · by_cases hc : off = 0x80 ∧ size = .b4
        · obtain ⟨rfl, rfl⟩ := hc
          have hi : issue (v.extractLsb' 0 32) (s.withBus rest) = .next (s.withBus rest) := by
            rw [← serve_cmd_write]; exact h
          have hn : s.NextCommand (v.extractLsb' 0 32) := ⟨v, rest, hb, rfl⟩
          rcases issue_cases hi with ⟨c, hd, ht⟩ | ⟨i, t', hd, he, ht⟩
          · rw [ht]; exact .illegal _ c rest hn hd
          · rw [ht]; exact .command _ i rest t' hn hd he
        · exact .ignored off size v rest hb hc

/-! ### What the oldest event is -/

theorem nextCommand_unique {s : State} {w w' : Cmd} (h : s.NextCommand w) (h' : s.NextCommand w') : w = w' := by
  obtain ⟨d, r, hb, rfl⟩ := h
  obtain ⟨d', r', hb', rfl⟩ := h'
  rw [hb] at hb'
  injection hb' with he _
  injection he with _ _ hd
  rw [hd]

theorem nextCommand_not_reset {s : State} {w : Cmd} (h : s.NextCommand w) : ¬ s.NextReset := by
  rintro ⟨r', hb'⟩
  obtain ⟨d, r, hb, -⟩ := h
  rw [hb] at hb'
  injection hb' with he _
  cases he

end Sys2Proof.Machine
end

