-- ==== Sys2Proof/Tests/Slice0.lean ====
section
/-! SUPPORT. Tests/Slice0.lean: the model's own tests. Expected values come from spec/95_test_vectors.md, the rules' examples or
30_encoding.md rule R75. The witnesses at the end meet the hypotheses of the statements that have hypotheses. -/

namespace Sys2Proof.Tests

open Sys2Proof.Machine

set_option Elab.async false

/-! ### Helpers -/

/-- The state of an outcome, or another. -/
def stateOr (o : Host.Outcome State Fault Refusal) (d : State) : State :=
  match o with
  | .next t => t
  | .fault _ => d
  | .refused _ => d

/-- The state after one step that issues a command word. -/
def run (w : Cmd) (s : State) : State := stateOr (step (s.withBus [commandEvent w])) s

/-- Reset with `f1`, `f2`, `f3`. -/
def withF (a b c : Word) : State :=
  { State.reset with regs := (((Vector.replicate 16 0).set 1 a).set 2 b).set 3 c }

/-- Reset with `f1` and the volume envelope. -/
def withVol (a : Word) (e : Envelope) : State := { withF a 0 0 with vol := e }

/-- Reset with `f1` and the vibrato LFO. -/
def withVib (a : Word) (o : Lfo) : State := { withF a 0 0 with vib := o }

/-- 95_test_vectors.md V7: Attack, `T` = 0.75, `DUR` = (0.5, 1, 0.25, 2, 1), `SUS` = 0.5. -/
def attacking : Envelope :=
  { Envelope.reset with
    stg := .attack, t := 0xC0000000, durDelay := 0x80000000, durAttack := 0x100000000, durHold := 0x40000000,
    durDecay := 0x200000000, durRelease := 0x100000000, sus := 0x80000000 }

/-- A running LFO at 2 Hz, a quarter into its cycle. -/
def turning : Lfo := { dly := 0x80000000, frq := 0x200000000, td := 0x80000000, run := true, ph := 0x40000000 }

/-- Slot 0 of 44_modulator.md rule R180's example, slot 1 of rule R184's; nothing summed yet; `f2` = 7, `f3` = 64. -/
def voice : State :=
  ((withF 0 7 64).setSlot 0 (Slot.ofDescriptor 0xFC4000B000001087)).setSlot 1 (Slot.ofDescriptor 0x006400B000000000)

/-- `voice` after `mupd.cc f2, f3`. -/
def notified : State := run 0x31023001 voice

/-! ### WellFormed: an ill-formed term for each check, and a well-formed neighbour (30_encoding.md rule R76) -/

theorem test_refuses_esetp_finished :
    (Instr.esetp .vol .finished 1).rangeFault 64 = some .badStage ∧ (Instr.esetp .vol .release 1).WellFormed 64 := by decide

theorem test_refuses_esetks_attack :
    (Instr.esetks .menv .attack 1 2 3).rangeFault 64 = some .badStage ∧ (Instr.esetks .menv .hold 1 2 3).WellFormed 64 := by decide

theorem test_refuses_esetks_sustain :
    (Instr.esetks .vol .sustain 1 2 3).rangeFault 64 = some .badStage ∧ (Instr.esetks .vol .decay 1 2 3).WellFormed 64 := by decide

theorem test_refuses_mcfg_slot :
    (Instr.mcfg 2 1).rangeFault 2 = some .badSlot ∧ (Instr.mcfg 1 1).WellFormed 2 := by decide

theorem test_refuses_mget_slot :
    (Instr.mget 1 63).rangeFault 63 = some .badSlot ∧ (Instr.mget 1 63).WellFormed 64 := by decide

theorem test_refuses_mmatch_slot :
    (Instr.mmatch .cc 1 2 1).rangeFault 1 = some .badSlot ∧ (Instr.mmatch .cc 1 2 0).WellFormed 1 := by decide

theorem test_refuses_mrdd_slot :
    (Instr.mrdd 1 5).rangeFault 5 = some .badSlot ∧ (Instr.mrdd 1 4).WellFormed 5 := by decide

/-! ### Decoding: words written out from 30_encoding.md rules R70 to R75 and the listings of 95_test_vectors.md -/

/-- The 36 rows of spec/opcode_table.json, `mask` and `match`, in its order. -/
theorem test_opcode_map :
    Opcode.all.map (fun op => (op.row.mask, op.row.matchWord)) =
  [(0xFFFFFFFF, 0x00000000), (0xFF00FFFF, 0x01000000), (0xFF00FFFF, 0x02000000), (0xFF00FFFF, 0x03000000),
   (0xFF00FFFF, 0x04000000), (0xFF000FFF, 0x05000000), (0xFF00FFFC, 0x06000000), (0xFFF0FF8C, 0x10000000),
   (0xFFF0008C, 0x11000000), (0xFFF0FFFC, 0x12000000), (0xFFFFFFFC, 0x13000000), (0xFFFFFFFC, 0x14000000),
   (0xFF0FFFFC, 0x15000000), (0xFF0FFFFC, 0x16000000), (0xFFF0FFFC, 0x20000000), (0xFFF0FFFC, 0x21000000),
   (0xFFF0FFFC, 0x22000000), (0xFF0FFFFC, 0x23000000), (0xFFF0FFC0, 0x30000000), (0xFFF00FFC, 0x31000000),
   (0xFFFFFFC0, 0x32000000), (0xFF0FFFC0, 0x33000000), (0xFF00FF80, 0x34000000), (0xFF0FFFC0, 0x35000000),
   (0xFF00FFC0, 0x36000000), (0xFF0FFFFF, 0x37000000), (0xFF0FFFC0, 0x38000000), (0xFF000000, 0x40000000),
   (0xFF000000, 0x41000000), (0xFF00FFFF, 0x42000000), (0xFF000FFF, 0x43000000), (0xFF000FFF, 0x44000000),
   (0xFF000FFF, 0x45000000), (0xFF00FFFF, 0x46000000), (0xFF00FFFF, 0x47000000), (0xFFFFFFFF, 0x7F000000)] := by decide

/-- The conversion commands. -/
theorem test_decode_conversion :
    decode 64 0x01210000 = .ok (.cb2r 2 1) ∧
    decode 64 0x02540000 = .ok (.k2hz 5 4) ∧
    decode 64 0x03320000 = .ok (.tc2s 3 2) ∧
    decode 64 0x04BA0000 = .ok (.ac2hz 11 10) ∧
    decode 64 0x05978000 = .ok (.joinb 9 7 8) ∧
    decode 64 0x06120001 = .ok (.tblrd 1 2 .k) := by exact ⟨rfl, rfl, rfl, rfl, rfl, rfl⟩

/-- The envelope commands. -/
theorem test_decode_envelope :
    decode 64 0x10070050 = .ok (.esetp .vol .release 7) ∧
    decode 64 0x11025630 = .ok (.esetks .vol .decay 2 5 6) ∧
    decode 64 0x12040001 = .ok (.eupd .menv 4) ∧
    decode 64 0x13000001 = .ok (.erel .menv) ∧
    decode 64 0x14000000 = .ok (.efin .vol) ∧
    decode 64 0x15900000 = .ok (.eget 9 .vol) ∧
    decode 64 0x16A00001 = .ok (.estg 10 .menv) := by exact ⟨rfl, rfl, rfl, rfl, rfl, rfl, rfl⟩

/-- The LFO commands. -/
theorem test_decode_lfo :
    decode 64 0x20010001 = .ok (.lsetd .mlfo 1) ∧
    decode 64 0x21020000 = .ok (.lsetf .vib 2) ∧
    decode 64 0x22030000 = .ok (.lupd .vib 3) ∧
    decode 64 0x23600001 = .ok (.lget 6 .mlfo) := by exact ⟨rfl, rfl, rfl, rfl⟩

/-- The modulator commands. -/
theorem test_decode_modulator :
    decode 64 0x3003003F = .ok (.mcfg 63 3) ∧
    decode 64 0x31056001 = .ok (.mupd .cc .w7 5 6) ∧
    decode 64 0x31056002 = .ok (.mupd .sf .w14 5 6) ∧
    decode 64 0x32000030 = .ok (.msum 48) ∧
    decode 64 0x33100001 = .ok (.mget 1 1) ∧
    decode 64 0x34C50042 = .ok (.mmatch .cc 12 5 2) ∧
    decode 64 0x34C50002 = .ok (.mmatch .sf 12 5 2) ∧
    decode 64 0x35700030 = .ok (.rdacc 7 48) ∧
    decode 64 0x36A90030 = .ok (.geff 10 9 48) ∧
    decode 64 0x37400000 = .ok (.rddirty 4) ∧
    decode 64 0x38D0003F = .ok (.mrdd 13 63) := by exact ⟨rfl, rfl, rfl, rfl, rfl, rfl, rfl, rfl, rfl, rfl, rfl⟩

/-- The utility commands. -/
theorem test_decode_utility :
    decode 64 0x00000000 = .ok (.nop) ∧
    decode 64 0x402FFB50 = .ok (.li 2 0xFFB50) ∧
    decode 64 0x41100040 = .ok (.lif 1 64) ∧
    decode 64 0x42310000 = .ok (.mov 3 1) ∧
    decode 64 0x43413000 = .ok (.fadd 4 1 3) ∧
    decode 64 0x44652000 = .ok (.fsub 6 5 2) ∧
    decode 64 0x45756000 = .ok (.fmul 7 5 6) ∧
    decode 64 0x46330000 = .ok (.i2f 3 3) ∧
    decode 64 0x47210000 = .ok (.f2i 2 1) ∧
    decode 64 0x7F000000 = .ok (.vinit) := by exact ⟨rfl, rfl, rfl, rfl, rfl, rfl, rfl, rfl, rfl, rfl⟩

/-- Illegal words, one or more for each case of rule R76. -/
theorem test_decode_refuses :
    decode 64 0x7FFFFFFF = .error .reservedBit ∧ decode 64 0x48000000 = .error .unknownOpcode ∧
    decode 64 0x10010070 = .error .badStage ∧ decode 64 0x11012340 = .error .badStage ∧
    decode 64 0x22010003 = .error .badUnit ∧ decode 64 0x06120003 = .error .badTable ∧
    decode 63 0x3310003F = .error .badSlot ∧ decode 64 0x10010018 = .error .reservedBit := by exact ⟨rfl, rfl, rfl, rfl, rfl, rfl, rfl, rfl⟩

/-- What the host asks of the decoder. -/
theorem test_table_word :
    decodeTableWord 32 0x402FFFFF = some (.li 2 0xFFFFF) ∧ decodeTableWord 32 0x7F000001 = none := by exact ⟨rfl, rfl⟩

/-- `li f2, 7` placed and run as the first command after reset (45_utility.md rule R212). -/
theorem test_fetch_word :
    (stateOr (step (State.reset.withFetchWord 32 0x40200007)) .reset).reg 2 = 7 ∧
    (stateOr (step (State.reset.withFetchWord 32 0x40200007)) .reset).cmdcnt = 1 := by decide +kernel

/-! ### Conversion engines (95_test_vectors.md V1 to V6) -/

/-- V1: 200.9 cB reads the word of 200. -/
theorem test_cb2r_truncates :
    (run 0x01210000 (withF 0xC8E6666666 0 0)).reg 2 = 0x1999999A := by decide +kernel

/-- V1: 1441 cB and one ulp below. -/
theorem test_cb2r_bound :
    (run 0x01210000 (withF 0x5A100000000 0 0)).reg 2 = 0 ∧
    (run 0x01210000 (withF 0x5A0FFFFFFFF 0 0)).reg 2 = 0x10F := by decide +kernel

/-- V2: key 72, and key 141, above the top band. -/
theorem test_k2hz_bands :
    (run 0x02210000 (withF 0x4800000000 0 0)).reg 2 = 0x20B404A1840 ∧
    (run 0x02210000 (withF 0x8D00000000 0 0)).reg 2 = 0x100000000 := by decide +kernel

/-- V2: the last cent of band 0 the operand reaches and the first of band 1. -/
theorem test_k2hz_folds :
    (run 0x02210000 (withF 0x8FD70A3D7 0 0)).reg 2 = 0xDBBEF9621 ∧
    (run 0x02210000 (withF 0x900000000 0 0)).reg 2 = 0xDC0000000 := by decide +kernel

/-- V3: the tie rounds up; half a cent is honoured. -/
theorem test_tc2s_tie :
    (run 0x03210000 (withF 0xFFFF655000000000 0 0)).reg 2 = 1 ∧
    (run 0x03210000 (withF 0x80000000 0 0)).reg 2 = 0x10012EE26 := by decide +kernel

/-- V3: 37200 and 37199 timecents. -/
theorem test_tc2s_saturates :
    (run 0x03210000 (withF 0x915000000000 0 0)).reg 2 = 0x7FFFFFFFFFFFFFFF ∧
    (run 0x03210000 (withF 0x914F00000000 0 0)).reg 2 = 0x7FED13F2FC75DB78 := by decide +kernel

/-- V4: 6900 cents and the least operand. -/
theorem test_ac2hz_key :
    (run 0x04210000 (withF 0x1AF400000000 0 0)).reg 2 = 0x1B802C5382E ∧
    (run 0x04210000 (withF 0x8000000000000000 0 0)).reg 2 = 0 := by decide +kernel

/-- V5. -/
theorem test_joinb_masks :
    (run 0x05312000 (withF 448 133 0)).reg 3 = 8197 ∧ (run 0x05312000 (withF (-1) (-1) 0)).reg 3 = 16383 := by decide +kernel

/-- V6. -/
theorem test_tblrd_edges :
    (run 0x06120000 (withF 5 1440 0)).reg 1 = 0x10F ∧ (run 0x06120000 (withF 5 1441 0)).reg 1 = 0 ∧
    (run 0x06120002 (withF 5 600 0)).reg 1 = 0x5A827999FCEF3242 := by decide +kernel

/-! ### Envelopes (95_test_vectors.md V7, 42_envelope.md examples) -/

/-- V7: shortening the current stage keeps `T` and reads the end of the stage. -/
theorem test_esetp_keeps_progress :
    (run 0x10010010 (withVol 0x80000000 attacking)).vol = { attacking with durAttack := 0x80000000 } ∧
    (run 0x10010010 (withVol 0x80000000 attacking)).vol.eval = oneFx := by decide +kernel

/-- V7: a sustain level of 2.0 and a delay of -3.0. -/
theorem test_esetp_clamps :
    (run 0x10010040 (withVol 0x200000000 attacking)).vol.sus = 0x100000000 ∧
    (run 0x10010000 (withVol 0xFFFFFFFD00000000 attacking)).vol.durDelay = 0 := by decide +kernel

/-- V7: -1200 timecents, 100 per key, keys 72 and 48. -/
theorem test_esetks_scales :
    (run 0x11012330 (withF 0xFFFFFB5000000000 0x6400000000 0x4800000000)).vol.durDecay = 0x40000000 ∧
    (run 0x11012321 (withF 0xFFFFFB5000000000 0x6400000000 0x3000000000)).menv.durHold = 0x100000000 := by decide +kernel

/-- V7: one tick of 1.0 s passes Attack and Hold and carries the excess. -/
theorem test_eupd_carries :
    (run 0x12010000 (withVol 0x100000000 attacking)).vol = { attacking with stg := .decay, t := 0x80000000 } := by decide +kernel

/-- V7: a negative tick. -/
theorem test_eupd_ignores :
    (run 0x12010000 (withVol 0xFFFFFFFFC0000000 attacking)).vol = attacking := by decide +kernel

/-- 42_envelope.md rule R128: from Attack, and again in Release. -/
theorem test_erel_keeps_value :
    (run 0x13000000 (withVol 0 attacking)).vol = { attacking with stg := .release, t := 0, rstart := 0xC0000000 } ∧
    (run 0x13000000 (withVol 0 { attacking with stg := .release })).vol = { attacking with stg := .release } := by decide +kernel

/-- V7. -/
theorem test_efin_forces :
    (run 0x14000000 (withVol 0 attacking)).vol = { attacking with stg := .finished, t := 0 } := by decide +kernel

/-- 42_envelope.md rule R132's example. -/
theorem test_eget_decays :
    (run 0x15500000 (withVol 0 { attacking with stg := .decay, t := 0x40000000 })).reg 5 = 0xF0000000 := by decide +kernel

/-- 42_envelope.md rule R130's example. -/
theorem test_estg_finished :
    (run 0x16100000 (withVol 0 { attacking with stg := .finished })).reg 1 = 6 := by decide +kernel

/-! ### LFOs (95_test_vectors.md V8) -/

/-- 43_lfo.md rule R152: a negative delay is 0 and the phase stays. -/
theorem test_lsetd_clamps :
    (run 0x20010000 (withVib 0xFFFFFFFF00000000 turning)).vib = { turning with dly := 0 } := by decide +kernel

/-- 43_lfo.md rule R154. -/
theorem test_lsetf_keeps_phase :
    (run 0x21010000 (withVib 0xFFFFFFFC00000000 turning)).vib = { turning with frq := 0xFFFFFFFC00000000 } := by decide +kernel

/-- V8: only the part of the tick past the delay turns the phase. -/
theorem test_lupd_crosses_delay :
    (run 0x22010000 (withVib 0x40000000 { Lfo.reset with dly := 0x20000000, frq := 0x200000000 })).vib =
      { Lfo.reset with dly := 0x20000000, frq := 0x200000000, td := 0x40000000, run := true, ph := 0x40000000 } := by decide +kernel

/-- V8: -4 Hz for 1/16 s. -/
theorem test_lupd_backward :
    (run 0x22010000 (withVib 0x10000000 { Lfo.reset with frq := 0xFFFFFFFC00000000 })).vib.ph = 0xC0000000 := by decide +kernel

/-- V8: the sawtooth's jump, and 0 until the unit runs. -/
theorem test_lget_saw :
    (run 0x23500000 (withVib 0 { turning with ph := 0x80000000 })).reg 5 = 0xFFFFFFFF00000000 ∧
    (run 0x23500000 (withVib 0 { turning with run := false, ph := 0x80000000 })).reg 5 = 0 := by decide +kernel

/-- V8: the triangle's trough. -/
theorem test_lget_triangle :
    (run 0x23500000 { withVib 0 { turning with ph := 0xC0000000 } with params := { Params.spec with shape := .triangle } }).reg 5 =
      0xFFFFFFFF00000000 := by decide +kernel

/-! ### Modulators (44_modulator.md examples, 95_test_vectors.md V9, V10) -/

/-- R180's example: CC 7 to generator 48, amount -960. -/
theorem test_mcfg_loads :
    (run 0x30010000 (withF 0xFC4000B000001087 0 0)).slot 0 = Slot.ofDescriptor 0xFC4000B000001087 ∧
    (Slot.ofDescriptor 0xFC4000B000001087).dest = 48 ∧ (Slot.ofDescriptor 0xFC4000B000001087).amount = 0xFC40 ∧
    (Slot.ofDescriptor 0xFC4000B000001087).srcv = 0 ∧ (Slot.ofDescriptor 0xFC4000B000001087).amtv = 0x100000000 := by decide +kernel

/-- R180: `VALID` clear empties the slot. -/
theorem test_mcfg_empties :
    (run 0x30010000 { voice with regs := (withF 0xFC40003000001087 0 0).regs }).slot 0 = Slot.empty := by decide +kernel

/-- R182's example (64 of 127), with slot 1 of R184's example already loaded. -/
theorem test_mupd_updates :
    (notified.slot 0).srcv = 0x81020408 ∧ (notified.slot 0).contrib = 0xFFFFFE1C3870E200 ∧
    notified.dirty = 0x1000000000000 ∧ notified.accAt 48 = 0xFFFFFE803870E200 := by decide +kernel

/-- R182: a controller that matches no slot changes nothing. -/
theorem test_mupd_ignores_others :
    run 0x31023000 { voice with regs := (withF 0 7 64).regs } =
      { voice with regs := (withF 0 7 64).regs, cmdcnt := 1 } := by decide +kernel

/-- R184: slot 1's constant 100, and a generator with no slot. -/
theorem test_msum_sums :
    (run 0x32000030 voice).accAt 48 = 0x6400000000 ∧ (run 0x32000005 voice).dirtyAt 5 = true ∧
    (run 0x32000005 voice).accAt 5 = 0 := by decide +kernel

/-- R186's example. -/
theorem test_mget_reads :
    (run 0x33100001 notified).reg 1 = 0x6400000000 := by decide +kernel

/-- R187's example: CC 7, then SF 7. -/
theorem test_mmatch_tests :
    (run 0x34820040 notified).reg 8 = 1 ∧ (run 0x34820000 notified).reg 8 = 0 := by decide +kernel

/-- R188's and R189's examples. -/
theorem test_rdacc_geff :
    (run 0x35100030 notified).reg 1 = 0xFFFFFE803870E200 ∧
    (run 0x36510030 { notified with regs := (withF 0x6400000000 0 0).regs }).reg 5 = 0xFFFFFEE43870E200 := by decide +kernel

/-- R190's example. -/
theorem test_rddirty_clears :
    (run 0x37600000 notified).reg 6 = 0x1000000000000 ∧ (run 0x37600000 notified).dirty = 0 := by decide +kernel

/-- R191's example, and an empty slot. -/
theorem test_mrdd_reads :
    (run 0x38700000 notified).reg 7 = 0xFC4000B000001087 ∧ (run 0x38700002 notified).reg 7 = 0 := by decide +kernel

/-- V9 and rule R182: the 14-bit centre is just above half. -/
theorem test_norm_linear :
    ({ SlotInput.empty with pol := .bipolar } : SlotInput).norm .w7 64 = 0x2040810 ∧
    ({ SlotInput.empty with dir := .negative } : SlotInput).norm .w7 127 = 0 ∧
    ({ SlotInput.empty with pol := .bipolar } : SlotInput).norm .w14 8192 = 0x40010 := by decide +kernel

/-- V9: the switch threshold. -/
theorem test_norm_switch :
    ({ SlotInput.empty with curve := .switch } : SlotInput).norm .w7 63 = 0 ∧
    ({ SlotInput.empty with curve := .switch } : SlotInput).norm .w7 64 = oneFx := by decide +kernel

/-! ### Utility commands (45_utility.md examples) -/

/-- R210. -/
theorem test_nop :
    run 0x00000000 notified = { notified with cmdcnt := notified.cmdcnt + 1 } := by decide +kernel

/-- R212's and R213's examples. -/
theorem test_li_lif :
    (run 0x402FFFFF State.reset).reg 2 = 0xFFFFFFFFFFFFFFFF ∧ (run 0x411FFF80 State.reset).reg 1 = 0xFFFFFFFF80000000 := by decide +kernel

/-- R214. -/
theorem test_mov :
    (run 0x42310000 (withF 0x123456789ABCDEF0 0 0)).reg 3 = 0x123456789ABCDEF0 := by decide +kernel

/-- R215: saturation, and 6000 - 1200 with the destination a source. -/
theorem test_fadd :
    (run 0x43312000 (withF 0x7FFFFFFFFFFFFFFF 0x100000000 0)).reg 3 = 0x7FFFFFFFFFFFFFFF ∧
    (run 0x43112000 (withF 0x177000000000 0xFFFFFB5000000000 0)).reg 1 = 0x12C000000000 := by decide +kernel

/-- R216: 0 - (-2^63). -/
theorem test_fsub :
    (run 0x44312000 (withF 0 0x8000000000000000 0)).reg 3 = 0x7FFFFFFFFFFFFFFF := by decide +kernel

/-- R217: the floor. -/
theorem test_fmul :
    (run 0x45312000 (withF 0xFFFFFFFFFFFFFFFF 0x80000000 0)).reg 3 = 0xFFFFFFFFFFFFFFFF ∧
    (run 0x45312000 (withF 1 0x80000000 0)).reg 3 = 0 := by decide +kernel

/-- R218: -960, and 2^31 saturates. -/
theorem test_i2f :
    (run 0x46210000 (withF 0xFFFFFFFFFFFFFC40 0 0)).reg 2 = 0xFFFFFC4000000000 ∧
    (run 0x46210000 (withF 0x80000000 0 0)).reg 2 = 0x7FFFFFFFFFFFFFFF := by decide +kernel

/-- R219: -0.5 floors to -1. -/
theorem test_f2i :
    (run 0x47210000 (withF 0xFFFFFFFF80000000 0 0)).reg 2 = 0xFFFFFFFFFFFFFFFF := by decide +kernel

/-- R220. -/
theorem test_vinit :
    (run 0x7F000000 { notified with ill := true }) =
      { State.reset with regs := notified.regs, ill := true, cmdcnt := notified.cmdcnt + 1 } := by decide +kernel

/-! ### The exception and the window (60_exceptions.md rules R241, R244; 95_test_vectors.md P5, P1) -/

/-- P5: the first word is kept, both are counted, nothing else changes. -/
theorem test_illegal_is_captured_once :
    (run 0x07000000 (run 0x12010002 notified)) =
      { notified with ill := true, illw := 0x12010002, cmdcnt := notified.cmdcnt + 2 } := by decide +kernel

/-- P5: `ILLW` is kept. -/
theorem test_acknowledge :
    stateOr (step { notified with ill := true, illw := 0x12010002, bus := [.write 0x84 .b4 1] }) .reset =
      { notified with ill := false, illw := 0x12010002 } := by decide +kernel

/-- 20_memory.md rule R54: the other half stays. -/
theorem test_half_write :
    (stateOr (step ((withF 0x1122334455667788 0 0).withBus [.write 0x0C .b4 0x3C])) .reset).reg 1 = 0x3C55667788 := by decide +kernel

/-- 20_memory.md rule R53. -/
theorem test_half_read :
    (stateOr (step ((withF 0x1122334455667788 0 0).withBus [.read 0x0C .b4])) .reset).rdata = 0x11223344 := by decide +kernel

/-- 10_state.md rules R31 and R35: `ILL` with `DNZ`; `PARAM`. -/
theorem test_status_read :
    (stateOr (step { notified with bus := [.read 0x84 .b4], ill := true }) .reset).rdata = 9 ∧
    (stateOr (step (State.reset.withBus [.read 0x94 .b4])) .reset).rdata = 0xC40 := by decide +kernel


/-! ### Witnesses: states and operands that meet the hypotheses of the statements -/

/-- Whether an outcome is a next state. -/
def isNext (o : Host.Outcome State Fault Refusal) : Bool :=
  match o with
  | .next _ => true
  | .fault _ => false
  | .refused _ => false

theorem next_of_isNext {o : Host.Outcome State Fault Refusal} (d : State) (h : isNext o = true) : o = .next (stateOr o d) := by
  cases o with
  | next t => rfl
  | fault r => cases h
  | refused r => cases h

/-- The witness of a statement about one step: it answers. -/
theorem step_run (s : State) (h : isNext (step s) = true) : step s = .next (stateOr (step s) s) := next_of_isNext s h

theorem witness_DecodeOfEncode :
    (Instr.mcfg 63 15).WellFormed 64 ∧ (Instr.mrdd 15 0).WellFormed 1 ∧ (Instr.esetks .menv .decay 15 0 15).WellFormed 1 := by
  decide

theorem witness_EncodeOfDecode : decode 64 0x33F0003F = .ok (.mget 15 63) := rfl

theorem witness_IllFormedWordsRefused :
    (Instr.mcfg 63 0).rangeFault 63 = some .badSlot ∧ (Instr.esetks .vol .release 0 0 0).rangeFault 64 = some .badStage := by
  decide

/-- The next event is a 32-bit write to `CMD`. -/
theorem next_command (w : Cmd) (s : State) (rest : List HostEvent) :
    (s.withBus (commandEvent w :: rest)).NextCommand w := by
  refine ⟨w.setWidth 64, rest, rfl, ?_⟩
  apply BitVec.eq_of_toNat_eq
  have := w.isLt
  simp
  omega

theorem witness_StepRunsTheDecodedCommand :
    ∃ (s t : State) (data : Word) (rest : List HostEvent) (i : Instr),
      s.bus = .write 0x80 .b4 data :: rest ∧ decode s.params.nmod (data.extractLsb' 0 32) = .ok i ∧
        exec i (s.withBus rest) = .next t :=
  ⟨voice.withBus [.write 0x80 .b4 0x3001003F], _, 0x3001003F, [], .mcfg 63 1, rfl, rfl,
    next_of_isNext voice (by decide +kernel)⟩

theorem witness_IllegalCommandEffect :
    ∃ (s : State) (data : Word) (rest : List HostEvent) (c : IllegalCause),
      s.bus = .write 0x80 .b4 data :: rest ∧ decode s.params.nmod (data.extractLsb' 0 32) = .error c :=
  ⟨voice.withBus [.write 0x80 .b4 0xFFFFFFFF07000000], 0xFFFFFFFF07000000, [], .unknownOpcode, rfl, rfl⟩

theorem witness_IllFormedCommandsRaise :
    ¬ (Instr.esetp .vol .finished 1).WellFormed State.reset.params.nmod ∧
      ¬ (Instr.mget 1 2).WellFormed ({ State.reset with params := { Params.spec with nmod := 2 } }).params.nmod := by
  decide +kernel

theorem witness_OnlyIllegalWordsRaise :
    (∃ s t : State, step s = .next t ∧ s.ill = false ∧ t.ill = true) ∧
      (∃ s t : State, step s = .next t ∧ t.illw ≠ s.illw ∧ s.NextReset) ∧
      ∃ s t : State, step s = .next t ∧ t.illw ≠ s.illw ∧ ¬ s.NextReset :=
  ⟨⟨voice.withBus [commandEvent 0x07000000], _, step_run _ (by decide +kernel), by decide +kernel, by decide +kernel⟩,
    ⟨{ voice with illw := 1, bus := [.reset] }, _, step_run _ (by decide +kernel), by decide +kernel, [], rfl⟩,
    ⟨voice.withBus [commandEvent 0x07000000], _, step_run _ (by decide +kernel), by decide +kernel,
      nextCommand_not_reset (next_command _ _ _)⟩⟩

theorem witness_IdleKeepsAllState : State.reset.bus = [] := rfl

theorem witness_ReadsChangeNothing :
    (voice.withBus [.read 0x84 .b4, .read 0x84 .b4]).bus = [.read 0x84 .b4, .read 0x84 .b4] := rfl

theorem witness_OperandReadsAreTheByteImage :
    (voice.withBus [.read 0x7C .b4]).bus = [.read 0x7C .b4] ∧ OperandAccess 0 .b8 ∧ OperandAccess 0x78 .b8 ∧
      OperandAccess 4 .b4 ∧ OperandAccess 0x7C .b4 :=
  ⟨rfl, ⟨by decide, .inr ⟨rfl, by decide⟩⟩, ⟨by decide, .inr ⟨rfl, by decide⟩⟩, ⟨by decide, .inl ⟨rfl, by decide⟩⟩,
    ⟨by decide, .inl ⟨rfl, by decide⟩⟩⟩

theorem witness_OperandWritesReplaceTheByteImage :
    (voice.withBus [.write 0x78 .b8 5]).bus = [.write 0x78 .b8 5] ∧ OperandAccess 0x78 .b8 :=
  ⟨rfl, by decide, .inr ⟨rfl, by decide⟩⟩

/-- Every clause has its offset: the five registers, `CMD` and the last reserved offset. -/
theorem witness_ControlRegisterReads :
    ∀ off ∈ ([0x80, 0x84, 0x88, 0x8C, 0x90, 0x94, 0x98, 0xFC] : List (BitVec 8)),
      128 ≤ off.toNat ∧ off.toNat % 4 = 0 ∧ (voice.withBus [.read off .b4]).bus = [.read off .b4] := by
  decide +kernel

theorem witness_ControlRegisterWrites :
    ∀ off ∈ ([0x84, 0x88, 0x8C, 0x90, 0x94, 0x98, 0xFC] : List (BitVec 8)),
      128 < off.toNat ∧ off.toNat % 4 = 0 ∧ (voice.withBus [.write off .b4 1]).bus = [.write off .b4 1] := by
  decide +kernel

theorem witness_PlatformResetEffect : (notified.withBus [.reset]).bus = [.reset] := rfl

theorem witness_CommandsAreCounted :
    (∃ s t : State, step s = .next t ∧ ∃ w, s.NextCommand w) ∧ (∃ s t : State, step s = .next t ∧ s.NextReset) ∧
      ∃ s t : State, step s = .next t ∧ (¬ ∃ w, s.NextCommand w) ∧ ¬ s.NextReset := by
  refine ⟨⟨voice.withBus [commandEvent 0], _, step_run _ (by decide +kernel), 0, next_command _ _ _⟩,
    ⟨voice.withBus [.reset], _, step_run _ (by decide +kernel), [], rfl⟩,
    ⟨voice.withBus [.read 0 .b8], _, step_run _ (by decide +kernel), ?_, ?_⟩⟩
  · rintro ⟨w, d, r, h, -⟩
    injection h with h _
    cases h
  · rintro ⟨r, h⟩
    injection h with h _
    cases h

/-! States that satisfy the invariant -/

/-- A state with a volume envelope, one loaded slot, registers and something issued. -/
def stateWith (e : Envelope) (m : Slot) (r : Vector Word 16) (ev : HostEvent) (rest : List HostEvent) : State :=
  ({ State.reset with vol := e, regs := r, bus := ev :: rest }).setSlot 63 m

theorem emptySlot_ok : Slot.empty.Ok := ⟨by decide, fun _ => rfl, by decide, by decide, by decide, by decide⟩

theorem resetEnvelope_ok : Envelope.reset.Ok :=
  ⟨by decide, fun x => by cases x <;> decide, by decide, by decide, by decide, by decide, fun _ => rfl⟩

theorem stateWith_inv {e : Envelope} {m : Slot} (he : e.Ok) (hm : m.Ok) (r : Vector Word 16) (ev : HostEvent)
    (rest : List HostEvent) : (stateWith e m r ev rest).Inv := by
  have hr : ∀ i, State.reset.slot i = Slot.empty := fun i => by simp [State.slot, State.reset]
  refine ⟨by show Params.spec.Legal; decide, fun u => ?_, fun u => ?_, fun i => ?_, fun i hi => ?_, fun g => ?_⟩
  · cases u
    · exact he
    · exact resetEnvelope_ok
  · have h : Lfo.reset.Ok := ⟨by decide, by decide⟩
    cases u
    · exact h
    · exact h
  · unfold stateWith
    rw [slot_setSlot]
    split
    · exact hm
    · show (State.reset.slot i).Ok
      rw [hr]
      exact emptySlot_ok
  · have h64 : Params.spec.nmod ≤ i.toNat := hi
    have : i.toNat < 64 := i.isLt
    have h : Params.spec.nmod = 64 := rfl
    omega
  · show -accBound ≤ (State.reset.accAt g).toInt ∧ (State.reset.accAt g).toInt ≤ accBound
    simp [State.accAt, State.reset]

/-- A slot whose contribution is the least of 44_modulator.md rule R183: both inputs unbound, amount -32768. -/
def deepest : Slot := Slot.ofDescriptor 0x8000008000000000

theorem deepest_ok : deepest.Ok ∧ deepest.contrib.toInt = -140737488355328 :=
  ⟨⟨by decide +kernel, fun h => absurd h (by decide +kernel), by decide +kernel, by decide +kernel, by decide +kernel,
    by decide +kernel⟩, by decide +kernel⟩

theorem attacking_ok : attacking.Ok :=
  ⟨by decide, fun x => by cases x <;> decide, by decide, by decide, by decide, by decide,
    fun h => by rcases h with h | h <;> exact absurd h (by decide)⟩

theorem witness_StepKeepsTheInvariant : ∃ s t : State, s.Inv ∧ step s = .next t :=
  ⟨stateWith attacking deepest (withF 1 2 3).regs (commandEvent 0x12010000) [], _,
    stateWith_inv attacking_ok deepest_ok.1 _ _ _, step_run _ (by decide +kernel)⟩

/-- Both clauses: an entry that stays, and one that is recomputed. -/
theorem witness_AccumulatorOnlyRecomputed :
    ∃ s t : State, step s = .next t ∧ t.accAt 5 = s.accAt 5 ∧ t.accAt 48 ≠ s.accAt 48 :=
  ⟨voice.withBus [commandEvent 0x32000030], _, step_run _ (by decide +kernel), by decide +kernel, by decide +kernel⟩

/-- Both clauses: an entry that changes, and a mark that goes away. -/
theorem witness_DirtySetTracksRecomputation :
    (∃ s t : State, step s = .next t ∧ ¬ s.NextReset ∧ ¬ s.NextCommand 0x7F000000 ∧ t.accAt 48 ≠ s.accAt 48) ∧
      ∃ s t : State, step s = .next t ∧ ¬ s.NextReset ∧ ¬ s.NextCommand 0x7F000000 ∧
        s.dirtyAt 48 = true ∧ t.dirtyAt 48 = false :=
  ⟨⟨voice.withBus [commandEvent 0x32000030], _, step_run _ (by decide +kernel),
      nextCommand_not_reset (next_command _ _ _),
      fun h => absurd (nextCommand_unique h (next_command _ _ _)) (by decide), by decide +kernel⟩,
    ⟨notified.withBus [commandEvent 0x37600000], _, step_run _ (by decide +kernel),
      nextCommand_not_reset (next_command _ _ _),
      fun h => absurd (nextCommand_unique h (next_command _ _ _)) (by decide), by decide +kernel, by decide +kernel⟩⟩

theorem finished_ok : ({ Envelope.reset with stg := .finished } : Envelope).Ok :=
  ⟨by decide, fun x => by cases x <;> decide, by decide, by decide, by decide, by decide, fun _ => rfl⟩

theorem witness_FinishedIsTerminal :
    ∃ s t : State, s.Inv ∧ step s = .next t ∧ ¬ s.NextReset ∧ ¬ s.NextCommand 0x7F000000 ∧
      (s.env .vol).stg = .finished :=
  ⟨stateWith { Envelope.reset with stg := .finished } Slot.empty (withF 1 2 3).regs (commandEvent 0x14000000) [], _,
    stateWith_inv finished_ok emptySlot_ok _ _ _, step_run _ (by decide +kernel),
    nextCommand_not_reset (next_command 0x14000000 _ _),
    fun h => absurd (nextCommand_unique h (next_command 0x14000000 _ _)) (by decide), rfl⟩

theorem witness_RunningLfoRunsOn :
    ∃ s t : State, step s = .next t ∧ ¬ s.NextReset ∧ ¬ s.NextCommand 0x7F000000 ∧ (s.lfo .vib).run = true :=
  ⟨(withVib 0x10000000 turning).withBus [commandEvent 0x22010000], _, step_run _ (by decide +kernel),
    nextCommand_not_reset (next_command _ _ _),
    fun h => absurd (nextCommand_unique h (next_command _ _ _)) (by decide), rfl⟩

/-- The least distance, and operands on both sides of the bound 1441. -/
theorem witness_CB2RIsAntitone : (0 : Int) ≤ 0 ∧ (1441 * 4294967296 - 1 : Int) ≤ 1441 * 4294967296 := by decide

/-- The least key, and the greatest whose octave above still converts with 12 bands. -/
theorem witness_K2HZDoublesPerOctave :
    12 ≤ 20 ∧ (0 : Int) ≤ 0 ∧ keyBand (keyCents (0 + 12 * 4294967296)) < 12 ∧ (0 : Int) ≤ 129 * 4294967296 - 1 ∧
      keyBand (keyCents (129 * 4294967296 - 1 + 12 * 4294967296)) < 12 := by
  decide +kernel

theorem witness_EsetpSetsOneParameter :
    Stage.delay ≠ .finished ∧ Stage.attack ≠ .finished ∧ Stage.hold ≠ .finished ∧ Stage.decay ≠ .finished ∧
      Stage.sustain ≠ .finished ∧ Stage.release ≠ .finished := by
  decide

theorem witness_EsetksScalesByKey : (Stage.hold = .hold ∨ Stage.hold = .decay) ∧ (Stage.decay = .hold ∨ Stage.decay = .decay) := by
  decide

theorem witness_EnvelopeValueInRange : attacking.Ok := attacking_ok

/-- Two ticks whose sum takes the time exactly to its greatest value. -/
theorem witness_TicksMaySplitBelowSaturation :
    ∃ s : State, (s.env .vol).Ok ∧ 0 < s.regInt 1 ∧ 0 < s.regInt 2 ∧ s.regInt 3 = s.regInt 1 + s.regInt 2 ∧
      (s.env .vol).t.toInt + s.regInt 3 = maxFx :=
  ⟨{ withF 0x80000000 0x7FFFFFFEBFFFFFFF 0x7FFFFFFF3FFFFFFF with vol := attacking }, attacking_ok,
    by decide +kernel, by decide +kernel, by decide +kernel, by decide +kernel⟩

theorem witness_TicksMaySplitAsWorded :
    ∃ s : State, s.Inv ∧ 0 < s.regInt 1 ∧ 0 < s.regInt 2 ∧ s.regInt 3 = s.regInt 1 + s.regInt 2 :=
  ⟨stateWith attacking Slot.empty (withF 10 50 60).regs .reset [], stateWith_inv attacking_ok emptySlot_ok _ _ _,
    by decide +kernel, by decide +kernel, by decide +kernel⟩

theorem witness_ReleaseIsContinuous :
    ∃ s t : State, (s.env .vol).Ok ∧ 0 < (s.env .vol).durRelease.toInt ∧ exec (.erel .vol) s = .next t :=
  ⟨withVol 0 attacking, _, attacking_ok, by decide +kernel, rfl⟩

/-- For `McfgLoadsTheDescriptor`, `DescriptorReadsBack`, `MrddReturnsTheFields`, `ModulatorReadsReturnTheirValue` and
`MmatchTestsTheInputs`: slots at both ends of the range, on the greatest and the least instance; and both values of a
descriptor's `VALID`. -/
theorem witness_McfgLoadsTheDescriptor :
    (63#6).toNat < State.reset.params.nmod ∧ (0#6).toNat < 1 ∧
      ((withF 0xFC4000B000001087 0 0).reg 1).getLsbD 39 = true ∧ ((withF 0 0 0).reg 1).getLsbD 39 = false := by
  decide +kernel

/-- The last clause for `MGET`: an empty slot of a state that satisfies the invariant. -/
theorem witness_ModulatorReadsReturnTheirValue :
    ∃ s : State, s.Inv ∧ (s.slot 0).valid = false ∧ (0#6).toNat < s.params.nmod :=
  ⟨stateWith attacking Slot.empty (withF 1 2 3).regs .reset [], stateWith_inv attacking_ok emptySlot_ok _ _ _,
    by decide +kernel, by decide +kernel⟩

/-- Both inputs of `MUPD`: a slot whose controller matches, and one that has none. -/
theorem witness_MupdUpdatesTheMatchingSlots :
    BoundTo (voice.slot 0).valid (voice.slot 0).src .cc 7 ∧ ¬ BoundTo (voice.slot 1).valid (voice.slot 1).src .cc 7 := by
  unfold BoundTo
  decide +kernel

theorem witness_SumsNeverSaturate :
    ∃ s : State, s.Inv ∧ (s.slot 63).contrib.toInt = -140737488355328 :=
  ⟨stateWith attacking deepest (withF 1 2 3).regs .reset [], stateWith_inv attacking_ok deepest_ok.1 _ _ _,
    by unfold stateWith; rw [slot_setSlot_same]; exact deepest_ok.2⟩

end Sys2Proof.Tests
end

/-! PROOF. Every step keeps the invariant `State.Inv`. First all that a command can do, said once;
then each operation on a unit, a slot or the accumulator keeps its part of the invariant; then the step. -/

namespace Sys2Proof.Machine

/-! ### All that a command can do -/

/-- The operations a command can perform on an envelope unit (42_envelope.md rules R122, R124, R126, R128, R130). -/
inductive EnvMove (e : Envelope) : Envelope → Prop where
  | param (stg : Stage) (v : Int) (hs : stg ≠ .finished) : EnvMove e (e.setParam stg v)
  | keyScale (stg : Stage) (tc coef key : Int) (hs : stg = .hold ∨ stg = .decay) :
      EnvMove e (e.setDur (sat64 (kstime tc coef key)) stg)
  | tick (dt : Int) : EnvMove e (e.update dt)
  | release : EnvMove e e.doRelease
  | finish : EnvMove e e.finish

/-- The operations a command can perform on an LFO unit (43_lfo.md rules R152, R154, R156). -/
inductive LfoMove (o : Lfo) : Lfo → Prop where
  | delay (v : Int) : LfoMove o { o with dly := sat64 (max v 0) }
  | frequency (v : Word) : LfoMove o { o with frq := v }
  | tick (dt : Int) : LfoMove o (o.update dt)

/-- All the effects a command can have before it is counted; every later fact about commands that does not depend on the
values written is a case analysis of this. -/
inductive CommandEffect (s : State) : Instr → State → Prop where
  /-- `NOP`. -/
  | nothing : CommandEffect s .nop s
  /-- A range check of 30_encoding.md rule R76 fails (log 14). -/
  | illegal (i : Instr) (hi : ¬ i.WellFormed s.params.nmod) : CommandEffect s i (s.raiseIllegal (encode i))
  /-- One operand register is written, and nothing else. -/
  | register (i : Instr) (rd : Reg) (v : Word) : CommandEffect s i (s.setReg rd v)
  /-- One envelope unit moves. -/
  | envelope (i : Instr) (u : EnvSel) (e : Envelope) (he : EnvMove (s.env u) e) : CommandEffect s i (s.setEnv u e)
  /-- One LFO unit moves. -/
  | oscillator (i : Instr) (u : LfoSel) (o : Lfo) (ho : LfoMove (s.lfo u) o) : CommandEffect s i (s.setLfo u o)
  /-- `MCFG` loads a slot below `NMOD` (44_modulator.md rule R180). -/
  | load (slot : BitVec 6) (rs1 : Reg) (hs : slot.toNat < s.params.nmod) :
      CommandEffect s (.mcfg slot rs1) (s.setSlot slot (Slot.ofDescriptor (s.reg rs1)))
  /-- `MUPD` (rule R182). -/
  | notify (kind : Kind) (width : RawWidth) (rs1 rs2 : Reg) :
      CommandEffect s (.mupd kind width rs1 rs2) (s.notifyCtl kind (low7 (s.reg rs1)) width (s.regInt rs2))
  /-- `MSUM` (rule R184). -/
  | sum (g : BitVec 6) : CommandEffect s (.msum g) (s.resolve g)
  /-- `RDDIRTY` (rule R190). -/
  | takeDirty (rd : Reg) : CommandEffect s (.rddirty rd) { s.setReg rd s.dirty with dirty := 0 }
  /-- `VINIT` (45_utility.md rule R220). -/
  | renew : CommandEffect s .vinit s.initVoice

theorem done_eq_next {s t : State} (h : done s = .next t) : t = s := by
  injection h with h
  exact h.symm

theorem slot_lt_of_slotFault {nmod : Nat} {slot : BitVec 6} (h : slotFault nmod slot = none) : slot.toNat < nmod := by
  unfold slotFault at h
  split at h
  · assumption
  · cases h

theorem not_finished_of_wellFormed {nmod : Nat} {u : EnvSel} {stg : Stage} {r : Reg}
    (h : (Instr.esetp u stg r).WellFormed nmod) : stg ≠ .finished := by
  rintro rfl
  cases h

theorem hold_or_decay_of_wellFormed {nmod : Nat} {u : EnvSel} {stg : Stage} {r1 r2 r3 : Reg}
    (h : (Instr.esetks u stg r1 r2 r3).WellFormed nmod) : stg = .hold ∨ stg = .decay := by
  by_contra hn
  simp only [Instr.WellFormed, Instr.rangeFault, if_neg hn, reduceCtorEq] at h

/-- All that a command can do. -/
theorem exec_effect {i : Instr} {s t : State} (h : exec i s = .next t) : CommandEffect s i t := by
  cases i with
  | nop => obtain rfl := done_eq_next h; exact .nothing
  | cb2r | k2hz | tc2s | ac2hz | joinb | tblrd | eget | estg | lget | rdacc | geff | li | lif | mov | fadd | fsub | fmul
  | i2f | f2i => obtain rfl := done_eq_next h; exact .register _ _ _
  | mget | mmatch | mrdd =>
    rcases ifLegal_cases h with ⟨-, rfl⟩ | ⟨hw, rfl⟩
    · exact .register _ _ _
    · exact .illegal _ hw
  | esetp u stg rs1 =>
    rcases ifLegal_cases h with ⟨hw, rfl⟩ | ⟨hw, rfl⟩
    · exact .envelope _ u _ (.param stg _ (not_finished_of_wellFormed hw))
    · exact .illegal _ hw
  | esetks u stg rs1 rs2 rs3 =>
    rcases ifLegal_cases h with ⟨hw, rfl⟩ | ⟨hw, rfl⟩
    · exact .envelope _ u _ (.keyScale stg _ _ _ (hold_or_decay_of_wellFormed hw))
    · exact .illegal _ hw
  | eupd u rs1 => obtain rfl := done_eq_next h; exact .envelope _ u _ (.tick _)
  | erel u => obtain rfl := done_eq_next h; exact .envelope _ u _ .release
  | efin u => obtain rfl := done_eq_next h; exact .envelope _ u _ .finish
  | lsetd u rs1 => obtain rfl := done_eq_next h; exact .oscillator _ u _ (.delay _)
  | lsetf u rs1 => obtain rfl := done_eq_next h; exact .oscillator _ u _ (.frequency _)
  | lupd u rs1 => obtain rfl := done_eq_next h; exact .oscillator _ u _ (.tick _)
  | mcfg slot rs1 =>
    rcases ifLegal_cases h with ⟨hw, rfl⟩ | ⟨hw, rfl⟩
    · exact .load slot rs1 (slot_lt_of_slotFault hw)
    · exact .illegal _ hw
  | mupd kind width rs1 rs2 => obtain rfl := done_eq_next h; exact .notify kind width rs1 rs2
  | msum gen => obtain rfl := done_eq_next h; exact .sum gen
  | rddirty rd => obtain rfl := done_eq_next h; exact .takeDirty rd
  | vinit => obtain rfl := done_eq_next h; exact .renew

/-! ### Saturation keeps signs and small ranges -/

theorem satInt_nonneg {v : Int} (h : 0 ≤ v) : 0 ≤ satInt v := by
  simp only [satInt, clamp, minFx, maxFx]
  omega

theorem toInt_sat64_nonneg {v : Int} (h : 0 ≤ v) : 0 ≤ (sat64 v).toInt := by
  rw [toInt_sat64]
  exact satInt_nonneg h

/-- A value of `[-ONE, ONE]` is written as it is. -/
theorem toInt_sat64_of_unit {v : Int} (h : -oneFx ≤ v) (h' : v ≤ oneFx) : (sat64 v).toInt = v :=
  toInt_sat64_of_range (by simp only [oneFx, minFx] at *; omega) (by simp only [oneFx, maxFx] at *; omega)

theorem toInt_sat64_fraction {v : Int} (h : 0 ≤ v) (h' : v ≤ oneFx) :
    0 ≤ (sat64 v).toInt ∧ (sat64 v).toInt ≤ oneFx := by
  rw [toInt_sat64_of_unit (le_trans (by decide) h) h']
  exact ⟨h, h'⟩

theorem clamp_fraction (v : Int) : 0 ≤ clamp v 0 oneFx ∧ clamp v 0 oneFx ≤ oneFx := by
  simp only [clamp, oneFx]
  omega

/-! ### Envelope units (10_state.md rule R24) -/

theorem kstime_nonneg (tc coef key : Int) : 0 ≤ kstime tc coef key := exp2c_nonneg _ (by decide)

/-- The value of a legal unit is a fraction of `[0, ONE]` (42_envelope.md rule R131). -/
theorem eval_range {e : Envelope} (h : e.Ok) : 0 ≤ e.eval ∧ e.eval ≤ oneFx := by
  obtain ⟨ht, -, hs, hs', hr, hr', -⟩ := h
  have hp (d : Int) := prog_range (d := d) ht
  have hone : 0 ≤ oneFx := by decide
  unfold Envelope.eval
  cases e.stg with
  | delay | finished => exact ⟨le_rfl, hone⟩
  | hold => exact ⟨hone, le_rfl⟩
  | attack => exact hp _
  | sustain => exact ⟨hs, hs'⟩
  | decay =>
    obtain ⟨-, h0, h1⟩ := fmul_fraction (a := oneFx - e.sus.toInt) (by omega) (by omega) (hp e.durDecay.toInt).1 (hp _).2
    constructor <;> dsimp only <;> omega
  | release =>
    obtain ⟨-, h0, h1⟩ := fmul_fraction hr hr' (hp e.durRelease.toInt).1 (hp _).2
    constructor <;> dsimp only <;> omega

theorem Envelope.reset_ok : Envelope.reset.Ok :=
  ⟨by decide, fun stg => by cases stg <;> decide, by decide, by decide, by decide, by decide, fun _ => rfl⟩

theorem setDur_ok {e : Envelope} (h : e.Ok) {v : Word} (hv : 0 ≤ v.toInt) (stg : Stage) : (e.setDur v stg).Ok := by
  obtain ⟨ht, hd, hs, hs', hr, hr', hz⟩ := h
  have hdur : ∀ x, 0 ≤ ((e.setDur v stg).dur x).toInt := by
    intro x
    by_cases hstg : stg ≠ .sustain ∧ stg ≠ .finished
    · rw [dur_setDur e v hstg]
      split
      · exact hv
      · exact hd x
    · obtain rfl | rfl : stg = .sustain ∨ stg = .finished := by tauto
      · exact hd x
      · exact hd x
  unfold Envelope.Ok
  simp only [setDur_t, setDur_sus, setDur_rstart, setDur_stg]
  exact ⟨ht, hdur, hs, hs', hr, hr', hz⟩

theorem setParam_ok {e : Envelope} (h : e.Ok) (stg : Stage) (v : Int) : (e.setParam stg v).Ok := by
  unfold Envelope.setParam
  split
  · obtain ⟨ht, hd, -, -, hr, hr', hz⟩ := h
    obtain ⟨hc, hc'⟩ := clamp_fraction v
    obtain ⟨hsus, hsus'⟩ := toInt_sat64_fraction hc hc'
    exact ⟨ht, hd, hsus, hsus', hr, hr', hz⟩
  · exact setDur_ok h (toInt_sat64_nonneg (le_max_right v 0)) stg

/-- Leaving an elapsed stage carries an excess that is not negative, and none into Sustain or Finished. -/
theorem leaveStage_ok {e : Envelope} (h : e.Ok) (hd : (e.dur e.stg).toInt ≤ e.t.toInt) : e.leaveStage.Ok := by
  obtain ⟨-, hdur, hs, hs', hr, hr', -⟩ := h
  unfold Envelope.leaveStage
  split
  · next htimed =>
    obtain ⟨hsus, hfin⟩ := (timed_iff _).1 htimed
    exact ⟨toInt_sat64_nonneg (by omega), hdur, hs, hs', hr, hr', fun hz => (hz.elim hsus hfin).elim⟩
  · exact ⟨BitVec.toInt_zero.ge, hdur, hs, hs', hr, hr', fun _ => rfl⟩

theorem settle_ok (n : Nat) {e : Envelope} (h : e.Ok) : (Envelope.settle n e).Ok := by
  induction n generalizing e with
  | zero => exact h
  | succ n ih =>
    unfold Envelope.settle
    split
    · next hc => exact ih (leaveStage_ok h hc.2)
    · exact h

theorem update_ok {e : Envelope} (h : e.Ok) (dt : Int) : (e.update dt).Ok := by
  unfold Envelope.update
  split
  · exact h
  · next hc =>
    push Not at hc
    obtain ⟨hdt, hsus, hfin⟩ := hc
    obtain ⟨ht, hdur, hs, hs', hr, hr', -⟩ := h
    exact settle_ok 4 ⟨toInt_sat64_nonneg (by omega), hdur, hs, hs', hr, hr', fun hz => (hz.elim hsus hfin).elim⟩

theorem doRelease_ok {e : Envelope} (h : e.Ok) : e.doRelease.Ok := by
  obtain ⟨hv, hv'⟩ := eval_range h
  obtain ⟨hstart, hstart'⟩ := toInt_sat64_fraction hv hv'
  unfold Envelope.doRelease
  split
  · exact h
  · obtain ⟨-, hdur, hs, hs', -, -, -⟩ := h
    exact ⟨BitVec.toInt_zero.ge, hdur, hs, hs', hstart, hstart', fun _ => rfl⟩

theorem finish_ok {e : Envelope} (h : e.Ok) : e.finish.Ok := by
  obtain ⟨-, hdur, hs, hs', hr, hr', -⟩ := h
  exact ⟨BitVec.toInt_zero.ge, hdur, hs, hs', hr, hr', fun _ => rfl⟩

theorem EnvMove.keeps_ok {e e' : Envelope} (hm : EnvMove e e') (h : e.Ok) : e'.Ok := by
  cases hm with
  | param stg v _ => exact setParam_ok h stg v
  | keyScale stg tc coef key _ => exact setDur_ok h (toInt_sat64_nonneg (kstime_nonneg tc coef key)) stg
  | tick dt => exact update_ok h dt
  | release => exact doRelease_ok h
  | finish => exact finish_ok h

/-! ### LFO units (10_state.md rule R26) -/

theorem Lfo.reset_ok : Lfo.reset.Ok := ⟨by decide, by decide⟩

/-- The time toward the delay stays or grows by a positive tick (43_lfo.md rule R156). -/
theorem update_td (o : Lfo) (dt : Int) :
    (o.update dt).td = o.td ∨ 0 < dt ∧ (o.update dt).td = sat64 (o.td.toInt + dt) := by
  unfold Lfo.update
  split
  · exact .inl rfl
  · next hdt =>
    split
    · exact .inl rfl
    · refine .inr ⟨by omega, ?_⟩
      unfold Lfo.updateDelayed
      split <;> rfl

theorem LfoMove.keeps_ok {o o' : Lfo} (hm : LfoMove o o') (h : o.Ok) : o'.Ok := by
  obtain ⟨hdly, htd⟩ := h
  cases hm with
  | delay v => exact ⟨toInt_sat64_nonneg (le_max_right v 0), htd⟩
  | frequency v => exact ⟨hdly, htd⟩
  | tick dt =>
    obtain ⟨hkeep, -, -⟩ := update_keeps o dt
    refine ⟨hkeep ▸ hdly, ?_⟩
    rcases update_td o dt with hsame | ⟨hpos, hgrow⟩
    · rwa [hsame]
    · rw [hgrow]
      exact toInt_sat64_nonneg (by omega)

/-! ### Modulator slots (10_state.md rule R28) -/

theorem Slot.empty_ok : Slot.empty.Ok := ⟨by decide, fun _ => rfl, by decide, by decide, by decide, by decide⟩

/-- A valid slot whose cached values lie in `[-ONE, ONE]` is legal once its contribution is computed anew. -/
theorem withContrib_ok {m : Slot} (hv : m.valid = true) (hs : -oneFx ≤ m.srcv.toInt ∧ m.srcv.toInt ≤ oneFx)
    (ha : -oneFx ≤ m.amtv.toInt ∧ m.amtv.toInt ≤ oneFx) : m.withContrib.Ok :=
  ⟨rfl, fun hf => absurd (hv.symm.trans hf) (by decide), hs.1, hs.2, ha.1, ha.2⟩

/-- A loaded slot starts from cached values 0 and ONE (44_modulator.md rule R180). -/
theorem ofDescriptor_ok (d : Word) : (Slot.ofDescriptor d).Ok := by
  unfold Slot.ofDescriptor
  split
  · have hone : -oneFx ≤ (sat64 oneFx).toInt ∧ (sat64 oneFx).toInt ≤ oneFx := by decide
    refine withContrib_ok rfl ?_ hone
    dsimp only
    split
    · decide
    · exact hone
  · exact Slot.empty_ok

/-- A normalised controller value is written as it is, in `[-ONE, ONE]` (rules R176, R177). -/
theorem toInt_sat64_norm (x : SlotInput) (width : RawWidth) (raw : Int) :
    -oneFx ≤ (sat64 (x.norm width raw)).toInt ∧ (sat64 (x.norm width raw)).toInt ≤ oneFx := by
  obtain ⟨hlow, hhigh⟩ := norm_range x width raw
  have hone : -oneFx ≤ normLow x.pol := by cases x.pol <;> decide
  rw [toInt_sat64_of_unit (hone.trans hlow) hhigh]
  exact ⟨hone.trans hlow, hhigh⟩

theorem valid_of_matchesCtl {m : Slot} {kind : Kind} {idx : BitVec 7} (h : m.matchesCtl kind idx = true) :
    m.valid = true := by
  rcases (matchesCtl_iff m kind idx).1 h with ⟨hv, -⟩ | ⟨hv, -⟩ <;> exact hv

theorem notify_ok {m : Slot} (h : m.Ok) (kind : Kind) (idx : BitVec 7) (width : RawWidth) (raw : Int) :
    (m.notify kind idx width raw).Ok := by
  unfold Slot.notify
  split
  · next hmatch =>
    obtain ⟨-, -, hs, hs', ha, ha'⟩ := h
    refine withContrib_ok (valid_of_matchesCtl hmatch) ?_ ?_
    · dsimp only
      split
      · exact toInt_sat64_norm m.src width raw
      · exact ⟨hs, hs'⟩
    · dsimp only
      split
      · exact toInt_sat64_norm m.amt width raw
      · exact ⟨ha, ha'⟩
  · exact h

/-! ### Contributions and sums (44_modulator.md rules R179, R183) -/

/-- 2^47, the bound of rule R183 on one contribution: ONE times the greatest amount. -/
abbrev contribBound : Int := 140737488355328

/-- A fraction of `[-ONE, ONE]` times a 16-bit amount. -/
theorem unit_mul_amount_range {f : Int} (hf : -oneFx ≤ f) (hf' : f ≤ oneFx) (a : BitVec 16) :
    -contribBound ≤ f * a.toInt ∧ f * a.toInt ≤ contribBound := by
  have h1 : -32768 ≤ a.toInt := by simpa using BitVec.le_toInt a
  have h2 : a.toInt < 32768 := by simpa using BitVec.toInt_lt (x := a)
  simp only [oneFx, contribBound] at *
  constructor <;> nlinarith

/-- The contribution of a legal slot is its exact product, within 2^47 (rules R179, R183). -/
theorem contrib_exact {m : Slot} (h : m.Ok) :
    m.contrib.toInt = m.srcv.toInt * m.amtv.toInt / 4294967296 * m.amount.toInt ∧
      -contribBound ≤ m.contrib.toInt ∧ m.contrib.toInt ≤ contribBound := by
  obtain ⟨hc, -, hs, hs', ha, ha'⟩ := h
  obtain ⟨hmul, hlow, hhigh⟩ := fmul_unit hs hs' ha ha'
  obtain ⟨hb, hb'⟩ := unit_mul_amount_range hlow hhigh m.amount
  have hexact : m.contrib.toInt = m.srcv.toInt * m.amtv.toInt / 4294967296 * m.amount.toInt := by
    rw [hc, Slot.mac, hmul]
    exact toInt_sat64_of_range (le_trans (by decide) hb) (le_trans hb' (by decide))
  rw [hexact]
  exact ⟨rfl, hb, hb'⟩

/-- The sum of at most 64 legal contributions is within 2^53 (rule R183). -/
theorem boundSum_range {s : State} (h : ∀ i, (s.slot i).Ok) (g : BitVec 6) :
    -accBound ≤ boundSum s g ∧ boundSum s g ≤ accBound := by
  have hterm (i : Fin 64) : -contribBound ≤ (s.mods[i]).contrib.toInt ∧ (s.mods[i]).contrib.toInt ≤ contribBound :=
    (contrib_exact (h (BitVec.ofFin i))).2
  have hcard : (Finset.univ : Finset (Fin 64)).card = 64 := by decide
  unfold boundSum
  constructor
  · refine le_trans ?_ (Finset.card_nsmul_le_sum _ _ (-contribBound) fun i _ => ?_)
    · rw [hcard]; decide
    · split
      · exact (hterm i).1
      · decide
  · refine le_trans (Finset.sum_le_card_nsmul _ _ contribBound fun i _ => ?_) ?_
    · split
      · exact (hterm i).2
      · decide
    · rw [hcard]; decide

/-- A sum over legal slots is written as it is (rule R183). -/
theorem toInt_sat64_boundSum {s : State} (h : ∀ i, (s.slot i).Ok) (g : BitVec 6) :
    (sat64 (boundSum s g)).toInt = boundSum s g := by
  obtain ⟨hlow, hhigh⟩ := boundSum_range h g
  exact toInt_sat64_of_range (le_trans (by decide) hlow) (le_trans hhigh (by decide))

/-! ### The invariant over the state's updates -/

theorem sameEnvs_of_fields {s t : State} (hvol : t.vol = s.vol) (hmenv : t.menv = s.menv) : SameEnvs s t :=
  fun u => by cases u <;> assumption

theorem sameLfos_of_fields {s t : State} (hvib : t.vib = s.vib) (hmlfo : t.mlfo = s.mlfo) : SameLfos s t :=
  fun u => by cases u <;> assumption

/-- With the parameters, the units and the slots as they were, only the accumulator has to be looked at. -/
theorem inv_of_same_voice {s t : State} (hs : s.Inv) (hp : t.params = s.params) (he : SameEnvs s t) (hl : SameLfos s t)
    (hm : SameSlots s t) (ha : ∀ g, -accBound ≤ (t.accAt g).toInt ∧ (t.accAt g).toInt ≤ accBound) : t.Inv := by
  obtain ⟨hlegal, henv, hlfo, hslot, hbeyond, -⟩ := hs
  refine ⟨hp ▸ hlegal, fun u => ?_, fun u => ?_, fun i => ?_, fun i hi => ?_, ha⟩
  · rw [he u]; exact henv u
  · rw [hl u]; exact hlfo u
  · rw [hm i]; exact hslot i
  · rw [hm i]; exact hbeyond i (hp ▸ hi)

/-- An update that keeps the fields the invariant speaks of keeps the invariant. -/
theorem inv_of_same_fields {s t : State} (hs : s.Inv) (hp : t.params = s.params) (hvol : t.vol = s.vol)
    (hmenv : t.menv = s.menv) (hvib : t.vib = s.vib) (hmlfo : t.mlfo = s.mlfo) (hmods : t.mods = s.mods)
    (hacc : t.acc = s.acc) : t.Inv := by
  have ⟨_, _, _, _, _, hsum⟩ := hs
  refine inv_of_same_voice hs hp (sameEnvs_of_fields hvol hmenv) (sameLfos_of_fields hvib hmlfo) (slot_congr hmods)
    fun g => ?_
  rw [accAt_congr hacc]
  exact hsum g

theorem inv_setReg {s : State} (hs : s.Inv) (r : Reg) (v : Word) : (s.setReg r v).Inv :=
  inv_of_same_fields hs rfl rfl rfl rfl rfl rfl rfl

theorem inv_clearDirty {s : State} (hs : s.Inv) : { s with dirty := 0 }.Inv :=
  inv_of_same_fields hs rfl rfl rfl rfl rfl rfl rfl

theorem inv_raiseIllegal {s : State} (hs : s.Inv) (w : Cmd) : (s.raiseIllegal w).Inv :=
  inv_of_same_fields hs rfl rfl rfl rfl rfl rfl rfl

theorem inv_ackIllegal {s : State} (hs : s.Inv) : s.ackIllegal.Inv :=
  inv_of_same_fields hs rfl rfl rfl rfl rfl rfl rfl

theorem inv_countCmd {s : State} (hs : s.Inv) : s.countCmd.Inv :=
  inv_of_same_fields hs rfl rfl rfl rfl rfl rfl rfl

theorem inv_setRdata {s : State} (hs : s.Inv) (v : Word) : (s.setRdata v).Inv :=
  inv_of_same_fields hs rfl rfl rfl rfl rfl rfl rfl

theorem inv_withBus {s : State} (hs : s.Inv) (b : List HostEvent) : (s.withBus b).Inv :=
  inv_of_same_fields hs rfl rfl rfl rfl rfl rfl rfl

theorem inv_setEnv {s : State} (hs : s.Inv) (u : EnvSel) {e : Envelope} (he : e.Ok) : (s.setEnv u e).Inv := by
  obtain ⟨hlegal, henv, hlfo, hslot, hbeyond, hacc⟩ := hs
  obtain ⟨-, -, -, hlfos, hslots, ⟨hsums, -⟩, ⟨-, -, -, hparams⟩, -⟩ := writesEnv_setEnv s u e
  refine ⟨hparams ▸ hlegal, fun x => ?_, fun x => hlfos x ▸ hlfo x, fun i => hslots i ▸ hslot i,
    fun i hi => (hslots i).trans (hbeyond i (hparams ▸ hi)), fun g => hsums g ▸ hacc g⟩
  rw [env_setEnv]
  split
  · exact he
  · exact henv x

theorem inv_setLfo {s : State} (hs : s.Inv) (u : LfoSel) {o : Lfo} (ho : o.Ok) : (s.setLfo u o).Inv := by
  obtain ⟨hlegal, henv, hlfo, hslot, hbeyond, hacc⟩ := hs
  obtain ⟨-, -, -, henvs, hslots, ⟨hsums, -⟩, ⟨-, -, -, hparams⟩, -⟩ := writesLfo_setLfo s u o
  refine ⟨hparams ▸ hlegal, fun x => henvs x ▸ henv x, fun x => ?_, fun i => hslots i ▸ hslot i,
    fun i hi => (hslots i).trans (hbeyond i (hparams ▸ hi)), fun g => hsums g ▸ hacc g⟩
  rw [lfo_setLfo]
  split
  · exact ho
  · exact hlfo x

/-- Only a slot below `NMOD` may be written (log 7). -/
theorem inv_setSlot {s : State} (hs : s.Inv) {i : BitVec 6} (hi : i.toNat < s.params.nmod) {m : Slot} (hm : m.Ok) :
    (s.setSlot i m).Inv := by
  obtain ⟨hlegal, henv, hlfo, hslot, hbeyond, hacc⟩ := hs
  obtain ⟨-, hothers, -, henvs, hlfos, ⟨hsums, -⟩, ⟨-, -, -, hparams⟩, -⟩ := writesSlot_setSlot s i m
  refine ⟨hparams ▸ hlegal, fun x => henvs x ▸ henv x, fun x => hlfos x ▸ hlfo x, fun j => ?_, fun j hj => ?_,
    fun g => hsums g ▸ hacc g⟩
  · rw [slot_setSlot]
    split
    · exact hm
    · exact hslot j
  · rw [hparams] at hj
    have hne : j ≠ i := by rintro rfl; omega
    exact (hothers j hne).trans (hbeyond j hj)

theorem inv_notifyAll {s : State} (hs : s.Inv) (kind : Kind) (idx : BitVec 7) (width : RawWidth) (raw : Int) :
    (s.notifyAll kind idx width raw).Inv := by
  obtain ⟨hlegal, henv, hlfo, hslot, hbeyond, hacc⟩ := hs
  have henvs : SameEnvs s (s.notifyAll kind idx width raw) :=
    sameEnvs_of_fields (notifyAll_vol s kind idx width raw) (notifyAll_menv s kind idx width raw)
  have hlfos : SameLfos s (s.notifyAll kind idx width raw) :=
    sameLfos_of_fields (notifyAll_vib s kind idx width raw) (notifyAll_mlfo s kind idx width raw)
  refine ⟨(notifyAll_params s kind idx width raw).symm ▸ hlegal, fun u => ?_, fun u => ?_, fun i => ?_, fun i hi => ?_,
    fun g => ?_⟩
  · rw [henvs u]; exact henv u
  · rw [hlfos u]; exact hlfo u
  · rw [slot_notifyAll]
    split
    · exact notify_ok (hslot i) kind idx width raw
    · exact hslot i
  · rw [notifyAll_params] at hi
    rw [slot_notifyAll, if_neg (by omega)]
    exact hbeyond i hi
  · rw [accAt_congr (notifyAll_acc s kind idx width raw)]
    exact hacc g

/-- A resolved entry is a sum over legal slots, so it is within the bound whatever stood there before. -/
theorem inv_resolveAll {s : State} (hs : s.Inv) (d : BitVec 64) : (s.resolveAll d).Inv := by
  have ⟨_, _, _, hslot, _, hacc⟩ := hs
  refine inv_of_same_voice hs (resolveAll_params s d)
    (sameEnvs_of_fields (resolveAll_vol s d) (resolveAll_menv s d))
    (sameLfos_of_fields (resolveAll_vib s d) (resolveAll_mlfo s d)) (slot_congr (resolveAll_mods s d)) fun g => ?_
  rw [accAt_resolveAll]
  split
  · rw [toInt_sat64_boundSum hslot]
    exact boundSum_range hslot g
  · exact hacc g

/-- A state with legal parameters and its voice at the reset values satisfies the invariant. -/
theorem inv_of_reset_voice {t : State} (hp : t.params.Legal) (hvol : t.vol = .reset) (hmenv : t.menv = .reset)
    (hvib : t.vib = .reset) (hmlfo : t.mlfo = .reset) (hmods : t.mods = Vector.replicate 64 .empty)
    (hacc : t.acc = Vector.replicate 64 0) : t.Inv := by
  have hslot : ∀ i, t.slot i = Slot.empty := fun i => by simp [State.slot, hmods]
  have hsum : ∀ g, t.accAt g = 0 := fun g => by simp [State.accAt, hacc]
  refine ⟨hp, fun u => ?_, fun u => ?_, fun i => hslot i ▸ Slot.empty_ok, fun i _ => hslot i,
    fun g => hsum g ▸ by decide⟩
  · have henv : t.env u = .reset := by cases u <;> assumption
    exact henv ▸ Envelope.reset_ok
  · have hlfo : t.lfo u = .reset := by cases u <;> assumption
    exact hlfo ▸ Lfo.reset_ok

theorem inv_initVoice {s : State} (hs : s.Inv) : s.initVoice.Inv :=
  inv_of_reset_voice ((initVoice_params s).symm ▸ hs.1) (initVoice_vol s) (initVoice_menv s) (initVoice_vib s)
    (initVoice_mlfo s) (initVoice_mods s) (initVoice_acc s)

theorem inv_platformReset {s : State} (hs : s.Inv) : s.platformReset.Inv :=
  inv_of_reset_voice ((platformReset_params s).symm ▸ hs.1) (platformReset_vol s) (platformReset_menv s)
    (platformReset_vib s) (platformReset_mlfo s) (platformReset_mods s) (platformReset_acc s)

/-! ### Commands and steps -/

/-- Every command keeps the invariant. -/
theorem CommandEffect.keeps_inv {s t : State} {i : Instr} (h : CommandEffect s i t) (hs : s.Inv) : t.Inv := by
  have ⟨_, henv, hlfo, _⟩ := hs
  cases h with
  | nothing => exact hs
  | illegal _ _ => exact inv_raiseIllegal hs _
  | register _ rd v => exact inv_setReg hs rd v
  | envelope _ u e he => exact inv_setEnv hs u (he.keeps_ok (henv u))
  | oscillator _ u o ho => exact inv_setLfo hs u (ho.keeps_ok (hlfo u))
  | load slot rs1 hi => exact inv_setSlot hs hi (ofDescriptor_ok _)
  | notify kind width rs1 rs2 => exact inv_resolveAll (inv_notifyAll hs _ _ _ _) _
  | sum g => exact inv_resolveAll hs _
  | takeDirty rd => exact inv_clearDirty (inv_setReg hs rd _)
  | renew => exact inv_initVoice hs

/-- Every effect of a step keeps the invariant. -/
theorem StepEffect.keeps_inv {s t : State} (h : StepEffect s t) (hs : s.Inv) : t.Inv := by
  cases h with
  | idle _ => exact hs
  | read off size rest _ => exact inv_setRdata (inv_withBus hs rest) _
  | ignored _ _ _ rest _ _ => exact inv_withBus hs rest
  | operand off _ _ x rest _ _ => exact inv_setReg (inv_withBus hs rest) _ x
  | ack _ rest _ => exact inv_ackIllegal (inv_withBus hs rest)
  | illegal w _ rest _ _ => exact inv_countCmd (inv_raiseIllegal (inv_withBus hs rest) w)
  | command w i rest t' _ _ he => exact inv_countCmd ((exec_effect he).keeps_inv (inv_withBus hs rest))
  | reset rest _ => exact inv_platformReset (inv_withBus hs rest)

/-- Settles O20: the invariant is inductive, by cases on what a step and a command can do. -/
theorem stepKeepsTheInvariant : Obligations.StepKeepsTheInvariant := by
  unfold Obligations.StepKeepsTheInvariant
  intro s t hs h
  exact (step_effect h).keeps_inv hs

end Sys2Proof.Machine

/-! PROOF. The state as a whole, part one: what the accumulator, the dirty set and the envelope units can do in one step.
Every statement is a case analysis of `StepEffect` and `CommandEffect`. -/

namespace Sys2Proof

/-! ### The words of VINIT and RDDIRTY -/

/-- A word is the format-R word of its own fields (30_encoding.md rule R70). -/
theorem encR_fields (w : Cmd) : encR (opOf w) (rdOf w) (rs1Of w) (rs2Of w) (rs3Of w) (imm8Of w) = w := by
  unfold encR opOf rdOf rs1Of rs2Of rs3Of imm8Of
  iterate 5 rw [BitVec.extractLsb'_append_extractLsb'_eq_extractLsb' (by rfl)]
  exact BitVec.extractLsb'_eq_self

/-- A sub-field's check passed: the value it read. -/
theorem ok_of_map_eq_ok {ε α β : Type} {f : α → β} {x : Except ε α} {b : β} (h : x.map f = .ok b) :
    ∃ a, x = .ok a ∧ f a = b := by
  cases x with
  | error c => cases h
  | ok a => exact ⟨a, rfl, by injection h⟩

theorem ok_of_bind_eq_ok {ε α β : Type} {f : α → Except ε β} {x : Except ε α} {b : β} (h : x.bind f = .ok b) :
    ∃ a, x = .ok a ∧ f a = .ok b := by
  cases x with
  | error c => cases h
  | ok a => exact ⟨a, rfl, h⟩

/-- What a row builds is a command of that row. -/
theorem opcode_of_build {op : Opcode} {w : Cmd} {i : Instr} (h : build op w = .ok i) : i.opcode = op := by
  cases op with
  | esetp | esetks =>
    obtain ⟨u, -, h⟩ := ok_of_bind_eq_ok h
    obtain ⟨st, -, rfl⟩ := ok_of_map_eq_ok h
    rfl
  | tblrd | eupd | erel | efin | eget | estg | lsetd | lsetf | lupd | lget =>
    obtain ⟨u, -, rfl⟩ := ok_of_map_eq_ok h
    rfl
  | nop | cb2r | k2hz | tc2s | ac2hz | joinb | mcfg | mupd | msum | mget | mmatch | rdacc | geff | rddirty | mrdd
  | li | lif | mov | fadd | fsub | fmul | i2f | f2i | vinit =>
    injection h with h
    subst h
    rfl

/-- A word of a row that uses at most `rd` has zeros in every other field (rule R74). -/
theorem word_of_rd_row {op : Opcode} {w : Cmd} {used : Bool} (hc : op.row.code = opOf w)
    (hr : op.row.reservedClear w = true) (hrow : op.row = rowR op.row.code used false false false 0) :
    w = encR op.row.code (rdOf w) 0 0 0 0 ∧ (used = false → rdOf w = 0) := by
  rw [hrow] at hr
  simp only [OpRow.reservedClear, rowR, Bool.false_or, Bool.and_eq_true, Bool.or_eq_true, beq_iff_eq] at hr
  obtain ⟨⟨⟨⟨hrd, h1⟩, h2⟩, h3⟩, h8⟩ := hr
  have himm : imm8Of w = 0 := by rwa [show ~~~(0 : BitVec 8) = BitVec.allOnes 8 by decide, BitVec.and_allOnes] at h8
  refine ⟨?_, fun hu => hrd.resolve_left (by simp [hu])⟩
  conv_lhs => rw [← encR_fields w, ← hc, h1, h2, h3, himm]

theorem word_of_decode_vinit {nmod : Nat} {w : Cmd} (h : decode nmod w = .ok .vinit) : w = 0x7F000000 := by
  obtain ⟨op, hc, hr, hb, -⟩ := decode_ok_cases h
  obtain rfl : Opcode.vinit = op := opcode_of_build hb
  obtain ⟨hw, hrd⟩ := word_of_rd_row (used := false) hc hr rfl
  rw [hw, hrd rfl]
  rfl

theorem word_of_decode_rddirty {nmod : Nat} {w : Cmd} {rd : Reg} (h : decode nmod w = .ok (.rddirty rd)) :
    w = 0x37#8 ++ rd ++ 0#20 := by
  obtain ⟨op, hc, hr, hb, -⟩ := decode_ok_cases h
  obtain rfl : Opcode.rddirty = op := opcode_of_build hb
  obtain ⟨hw, -⟩ := word_of_rd_row (used := true) hc hr rfl
  obtain rfl : rdOf w = rd := by injection hb with hb; injection hb
  rw [hw]
  generalize rdOf w = r
  revert r
  decide

end Sys2Proof

namespace Sys2Proof.Machine

/-! ### What a step can do to the voice -/

/-- A step that does not issue the word of `VINIT` does not run it. -/
theorem ne_vinit_of_decode {s : State} {w : Cmd} {i : Instr} {nmod : Nat} (hw : s.NextCommand w)
    (hd : decode nmod w = .ok i) (hvinit : ¬ s.NextCommand 0x7F000000) : i ≠ .vinit := by
  rintro rfl
  exact hvinit (word_of_decode_vinit hd ▸ hw)

/-- All that a step can do to the units, the slots, the sums and the marks: keep them, reset them, or run a decoded
command. -/
theorem StepEffect.voice_cases {s t : State} (h : StepEffect s t) :
    (SameEnvs s t ∧ SameLfos s t ∧ SameSlots s t ∧ SameSums s t) ∨
      (s.NextReset ∧ ∃ rest, t = (s.withBus rest).platformReset) ∨
      ∃ w i rest t', s.NextCommand w ∧ decode s.params.nmod w = .ok i ∧ CommandEffect (s.withBus rest) i t' ∧
        t = t'.countCmd := by
  have hkeep (u : State) (hvol : u.vol = s.vol) (hmenv : u.menv = s.menv) (hvib : u.vib = s.vib)
      (hmlfo : u.mlfo = s.mlfo) (hmods : u.mods = s.mods) (hacc : u.acc = s.acc) (hdirty : u.dirty = s.dirty) :
      SameEnvs s u ∧ SameLfos s u ∧ SameSlots s u ∧ SameSums s u :=
    ⟨sameEnvs_of_fields hvol hmenv, sameLfos_of_fields hvib hmlfo, slot_congr hmods, accAt_congr hacc, hdirty⟩
  cases h with
  | idle | read | ignored | operand | ack | illegal => exact .inl (hkeep _ rfl rfl rfl rfl rfl rfl rfl)
  | reset rest hb => exact .inr (.inl ⟨⟨rest, hb⟩, rest, rfl⟩)
  | command w i rest t' hw hd he => exact .inr (.inr ⟨w, i, rest, t', hw, hd, exec_effect he, rfl⟩)

/-! ### The accumulator and the dirty set (10_state.md rules R29, R30) -/

/-- All that a command can do to the accumulator and the dirty set: keep both, resolve a set of entries over new slots,
deliver and clear the marks, or empty both. -/
theorem CommandEffect.sums_cases {s t : State} {i : Instr} (h : CommandEffect s i t) :
    SameSums s t ∨
      (∃ (v : State) (d : BitVec 64), v.acc = s.acc ∧ v.dirty = s.dirty ∧ t = v.resolveAll d) ∨
      (∃ rd, i = .rddirty rd ∧ t = { s.setReg rd s.dirty with dirty := 0 }) ∨
      (i = .vinit ∧ t = s.initVoice) := by
  cases h with
  | nothing | illegal | register | load => exact .inl ⟨fun _ => rfl, rfl⟩
  | envelope _ u e _ =>
    obtain ⟨-, -, -, -, -, hsums, -, -⟩ := writesEnv_setEnv s u e
    exact .inl hsums
  | oscillator _ u o _ =>
    obtain ⟨-, -, -, -, -, hsums, -, -⟩ := writesLfo_setLfo s u o
    exact .inl hsums
  | notify => exact .inr (.inl ⟨_, _, notifyAll_acc .., notifyAll_dirty .., rfl⟩)
  | sum => exact .inr (.inl ⟨s, _, rfl, rfl, rfl⟩)
  | takeDirty rd => exact .inr (.inr (.inl ⟨rd, rfl, rfl⟩))
  | renew => exact .inr (.inr (.inr ⟨rfl, rfl⟩))

/-- With every slot empty and the accumulator cleared, an entry is the sum over no slot. -/
theorem accAt_eq_boundSum_of_reset {t : State} (hm : t.mods = Vector.replicate 64 .empty)
    (ha : t.acc = Vector.replicate 64 0) (g : BitVec 6) : t.accAt g = sat64 (boundSum t g) := by
  have hsum : boundSum t g = 0 := by
    unfold boundSum
    rw [hm]
    exact Finset.sum_eq_zero fun i _ => if_neg (by simp [Slot.empty])
  rw [hsum]
  simp only [State.accAt, ha, Vector.getElem_replicate]
  rfl

/-- Resolving leaves an entry or makes it the sum over the slots of the state after (44_modulator.md rule R183). -/
theorem accAt_resolveAll_cases (s : State) (d : BitVec 64) (g : BitVec 6) :
    (s.resolveAll d).accAt g = s.accAt g ∨ (s.resolveAll d).accAt g = sat64 (boundSum (s.resolveAll d) g) := by
  rw [accAt_resolveAll, boundSum_congr (resolveAll_mods s d) (resolveAll_params s d)]
  split
  · exact .inr rfl
  · exact .inl rfl

theorem CommandEffect.accAt_cases {s t : State} {i : Instr} (h : CommandEffect s i t) (g : BitVec 6) :
    t.accAt g = s.accAt g ∨ t.accAt g = sat64 (boundSum t g) := by
  rcases h.sums_cases with ⟨hacc, -⟩ | ⟨v, d, hacc, -, rfl⟩ | ⟨rd, -, rfl⟩ | ⟨-, rfl⟩
  · exact .inl (hacc g)
  · rw [← accAt_congr hacc]
    exact accAt_resolveAll_cases v d g
  · exact .inl rfl
  · exact .inr (accAt_eq_boundSum_of_reset (initVoice_mods s) (initVoice_acc s) g)

/-- Settles O22, by cases on what a step and a command can do to the accumulator. -/
theorem accumulatorOnlyRecomputed : Obligations.AccumulatorOnlyRecomputed := by
  unfold Obligations.AccumulatorOnlyRecomputed
  intro s t g h
  rcases (step_effect h).voice_cases with ⟨-, -, -, hacc, -⟩ | ⟨-, rest, rfl⟩ | ⟨w, i, rest, t', -, -, hc, rfl⟩
  · exact .inl (hacc g)
  · exact .inr (accAt_eq_boundSum_of_reset (platformReset_mods _) (platformReset_acc _) g)
  · exact hc.accAt_cases g

/-- Resolving marks every entry it recomputes (rule R183). -/
theorem dirtyAt_of_accAt_resolveAll_ne {s : State} {d : BitVec 64} {g : BitVec 6}
    (h : (s.resolveAll d).accAt g ≠ s.accAt g) : (s.resolveAll d).dirtyAt g = true := by
  rw [accAt_resolveAll] at h
  split at h
  · next hd => rw [dirtyAt_resolveAll, hd, Bool.or_true]
  · exact absurd rfl h

/-- Resolving takes no mark away (rule R183). -/
theorem dirtyAt_resolveAll_of_dirtyAt {s : State} {g : BitVec 6} (h : s.dirtyAt g = true) (d : BitVec 64) :
    (s.resolveAll d).dirtyAt g = true := by
  rw [dirtyAt_resolveAll, h, Bool.true_or]

/-- A command other than `VINIT` marks the entries it changes. -/
theorem CommandEffect.dirtyAt_of_accAt_ne {s t : State} {i : Instr} (h : CommandEffect s i t) (hi : i ≠ .vinit)
    {g : BitVec 6} (hg : t.accAt g ≠ s.accAt g) : t.dirtyAt g = true := by
  rcases h.sums_cases with ⟨hacc, -⟩ | ⟨v, d, hacc, -, rfl⟩ | ⟨rd, -, rfl⟩ | ⟨hv, -⟩
  · exact absurd (hacc g) hg
  · rw [← accAt_congr hacc] at hg
    exact dirtyAt_of_accAt_resolveAll_ne hg
  · exact absurd rfl hg
  · exact absurd hv hi

/-- A command other than `VINIT` that takes a mark away is `RDDIRTY`, which delivers the old mask (rule R190). -/
theorem CommandEffect.rddirty_of_mark_lost {s t : State} {i : Instr} (h : CommandEffect s i t) (hi : i ≠ .vinit)
    {g : BitVec 6} (hs : s.dirtyAt g = true) (ht : t.dirtyAt g = false) :
    ∃ rd, i = .rddirty rd ∧ t.reg rd = s.dirty ∧ t.dirty = 0 := by
  rcases h.sums_cases with ⟨-, hdirty⟩ | ⟨v, d, -, hdirty, rfl⟩ | ⟨rd, rfl, rfl⟩ | ⟨hv, -⟩
  · rw [dirtyAt_congr hdirty, hs] at ht
    cases ht
  · rw [← dirtyAt_congr hdirty] at hs
    rw [dirtyAt_resolveAll_of_dirtyAt hs d] at ht
    cases ht
  · exact ⟨rd, rfl, reg_setReg_same s rd s.dirty, rfl⟩
  · exact absurd hv hi

/-- Settles O23, by cases on what a step and a command can do to the accumulator and the dirty set. -/
theorem dirtySetTracksRecomputation : Obligations.DirtySetTracksRecomputation := by
  unfold Obligations.DirtySetTracksRecomputation
  intro s t g h hreset hvinit
  rcases (step_effect h).voice_cases with
    ⟨-, -, -, hacc, hdirty⟩ | ⟨hr, -⟩ | ⟨w, i, rest, t', hw, hd, hc, rfl⟩
  · refine ⟨fun hne => absurd (hacc g) hne, fun hs ht => ?_⟩
    rw [dirtyAt_congr hdirty, hs] at ht
    cases ht
  · exact absurd hr hreset
  · have hi := ne_vinit_of_decode hw hd hvinit
    refine ⟨hc.dirtyAt_of_accAt_ne hi, fun hs ht => ?_⟩
    obtain ⟨rd, rfl, hreg, hzero⟩ := hc.rddirty_of_mark_lost hi hs ht
    exact ⟨rd, w, hw, word_of_decode_rddirty hd, hreg, hzero⟩

/-! ### Envelope stages (10_state.md rule R25, 42_envelope.md rules R121, R125) -/

@[simp] theorem setParam_stg (e : Envelope) (stg : Stage) (v : Int) : (e.setParam stg v).stg = e.stg := by
  unfold Envelope.setParam
  split
  · rfl
  · exact setDur_stg ..

@[simp] theorem setParam_t (e : Envelope) (stg : Stage) (v : Int) : (e.setParam stg v).t = e.t := by
  unfold Envelope.setParam
  split
  · rfl
  · exact setDur_t ..

theorem code_le_stageSucc (stg : Stage) : stg.code.toNat ≤ (stageSucc stg).code.toNat := by
  cases stg <;> decide

/-- Finished has the greatest code of all stages. -/
theorem code_le_finished (stg : Stage) : stg.code.toNat ≤ Stage.finished.code.toNat := by
  cases stg <;> decide

theorem code_le_release {stg : Stage} (h : stg ≠ .finished) : stg.code.toNat ≤ Stage.release.code.toNat := by
  cases stg with
  | finished => exact absurd rfl h
  | delay | attack | hold | decay | sustain | release => decide

/-- The loop of rule R125 goes forward only. -/
theorem code_le_settle (n : Nat) (e : Envelope) : e.stg.code.toNat ≤ (Envelope.settle n e).stg.code.toNat := by
  induction n generalizing e with
  | zero => exact le_rfl
  | succ n ih =>
    unfold Envelope.settle
    split
    · calc e.stg.code.toNat
        _ ≤ e.leaveStage.stg.code.toNat := by rw [leaveStage_stg]; exact code_le_stageSucc e.stg
        _ ≤ _ := ih e.leaveStage
    · exact le_rfl

/-- No move of a unit takes its stage back. -/
theorem EnvMove.code_le {e e' : Envelope} (h : EnvMove e e') : e.stg.code.toNat ≤ e'.stg.code.toNat := by
  cases h with
  | param stg v _ => rw [setParam_stg]
  | keyScale stg _ _ _ _ => rw [setDur_stg]
  | tick dt =>
    unfold Envelope.update
    split
    · exact le_rfl
    · exact code_le_settle 4 { e with t := sat64 (e.t.toInt + dt) }
  | release =>
    unfold Envelope.doRelease
    split
    · exact le_rfl
    · next hn => exact code_le_release fun hf => hn (.inr hf)
  | finish => exact code_le_finished e.stg

/-- A legal unit in Finished keeps its stage and its time through every move: `EFIN` writes the time 0 it has. -/
theorem EnvMove.keeps_finished {e e' : Envelope} (h : EnvMove e e') (hok : e.Ok) (hf : e.stg = .finished) :
    e'.stg = .finished ∧ e'.t = e.t := by
  cases h with
  | param stg v _ => exact ⟨(setParam_stg e stg v).trans hf, setParam_t e stg v⟩
  | keyScale stg _ _ _ _ => exact ⟨(setDur_stg ..).trans hf, setDur_t ..⟩
  | tick dt =>
    unfold Envelope.update
    rw [if_pos (.inr (.inr hf))]
    exact ⟨hf, rfl⟩
  | release =>
    unfold Envelope.doRelease
    rw [if_pos (.inr hf)]
    exact ⟨hf, rfl⟩
  | finish =>
    obtain ⟨-, -, -, -, -, -, hzero⟩ := hok
    exact ⟨rfl, (hzero (.inr hf)).symm⟩

/-- A command other than `VINIT` leaves a unit as it was or moves it. -/
theorem CommandEffect.env_cases {s t : State} {i : Instr} (h : CommandEffect s i t) (hi : i ≠ .vinit) (u : EnvSel) :
    t.env u = s.env u ∨ EnvMove (s.env u) (t.env u) := by
  cases h with
  | nothing | illegal | register | load | takeDirty => exact .inl (sameEnvs_of_fields (s := s) rfl rfl u)
  | envelope _ x e he =>
    rw [env_setEnv]
    split
    · next hx => exact .inr (hx ▸ he)
    · exact .inl rfl
  | oscillator _ x o _ =>
    obtain ⟨-, -, -, henvs, -⟩ := writesLfo_setLfo s x o
    exact .inl (henvs u)
  | notify kind width rs1 rs2 =>
    exact .inl (sameEnvs_of_fields ((resolveAll_vol _ _).trans (notifyAll_vol ..))
      ((resolveAll_menv _ _).trans (notifyAll_menv ..)) u)
  | sum g => exact .inl (sameEnvs_of_fields (resolveAll_vol _ _) (resolveAll_menv _ _) u)
  | renew => exact absurd rfl hi

/-- A step but `VINIT` and reset leaves a unit as it was or moves it. -/
theorem StepEffect.env_cases {s t : State} (h : StepEffect s t) (hreset : ¬ s.NextReset)
    (hvinit : ¬ s.NextCommand 0x7F000000) (u : EnvSel) : t.env u = s.env u ∨ EnvMove (s.env u) (t.env u) := by
  rcases h.voice_cases with ⟨henvs, -⟩ | ⟨hr, -⟩ | ⟨w, i, rest, t', hw, hd, hc, rfl⟩
  · exact .inl (henvs u)
  · exact absurd hr hreset
  · have hi := ne_vinit_of_decode hw hd hvinit
    have hcount : t'.countCmd.env u = t'.env u := sameEnvs_of_fields (s := t') rfl rfl u
    have hbus : (s.withBus rest).env u = s.env u := sameEnvs_of_fields (s := s) rfl rfl u
    rw [hcount, ← hbus]
    exact hc.env_cases hi u

/-- Settles O24, by cases on the moves of an envelope unit. -/
theorem finishedIsTerminal : Obligations.FinishedIsTerminal := by
  unfold Obligations.FinishedIsTerminal
  intro s t u hinv h hreset hvinit
  obtain ⟨-, hok, -⟩ := hinv
  rcases (step_effect h).env_cases hreset hvinit u with hsame | hmove
  · rw [hsame]
    exact ⟨le_rfl, fun hf => ⟨hf, rfl⟩⟩
  · exact ⟨hmove.code_le, hmove.keeps_finished (hok u)⟩

end Sys2Proof.Machine

/-! PROOF. The state as a whole, part two: the illegal-command flag, the command counter, the host window, reset, and the
ranges of the units' and the sums' values. -/

namespace Sys2Proof.Machine

/-! ### What the oldest event is -/

theorem not_nextCommand_of_idle {s : State} (hb : s.bus = []) (w : Cmd) : ¬ s.NextCommand w := by
  rintro ⟨d, r, hb', -⟩
  rw [hb] at hb'
  cases hb'

theorem not_nextReset_of_idle {s : State} (hb : s.bus = []) : ¬ s.NextReset := by
  rintro ⟨r, hb'⟩
  rw [hb] at hb'
  cases hb'

/-- Only a 32-bit write to `CMD` issues a command (20_memory.md rule R60). -/
theorem head_of_nextCommand {s : State} {e : HostEvent} {rest : List HostEvent} {w : Cmd} (hb : s.bus = e :: rest)
    (h : s.NextCommand w) : ∃ data, e = .write 0x80 .b4 data := by
  obtain ⟨d, r, hb', -⟩ := h
  rw [hb] at hb'
  injection hb' with he _
  exact ⟨d, he⟩

theorem head_of_nextReset {s : State} {e : HostEvent} {rest : List HostEvent} (hb : s.bus = e :: rest)
    (h : s.NextReset) : e = .reset := by
  obtain ⟨r, hb'⟩ := h
  rw [hb] at hb'
  injection hb'

/-! ### Commands and the control registers (10_state.md rules R31, R33, R34) -/

/-- A command counts nothing itself; issuing it does. -/
theorem CommandEffect.cmdcnt_eq {s t : State} {i : Instr} (h : CommandEffect s i t) : t.cmdcnt = s.cmdcnt := by
  cases h with
  | nothing | illegal | register | load | takeDirty => rfl
  | envelope _ u e _ => exact setEnv_cmdcnt s u e
  | oscillator _ u o _ => exact setLfo_cmdcnt s u o
  | notify kind width rs1 rs2 => exact (resolveAll_cmdcnt _ _).trans (notifyAll_cmdcnt ..)
  | sum g => exact resolveAll_cmdcnt s _
  | renew => exact initVoice_cmdcnt s

/-- A command that passes its range check raises nothing (60_exceptions.md rule R240). -/
theorem CommandEffect.keeps_illegal_flag {s t : State} {i : Instr} (h : CommandEffect s i t)
    (hi : i.WellFormed s.params.nmod) : t.ill = s.ill ∧ t.illw = s.illw := by
  cases h with
  | illegal _ hn => exact absurd hi hn
  | nothing | register | load | takeDirty => exact ⟨rfl, rfl⟩
  | envelope _ u e _ => exact ⟨setEnv_ill s u e, setEnv_illw s u e⟩
  | oscillator _ u o _ => exact ⟨setLfo_ill s u o, setLfo_illw s u o⟩
  | notify kind width rs1 rs2 =>
    exact ⟨(resolveAll_ill _ _).trans (notifyAll_ill ..), (resolveAll_illw _ _).trans (notifyAll_illw ..)⟩
  | sum g => exact ⟨resolveAll_ill s _, resolveAll_illw s _⟩
  | renew => exact ⟨initVoice_ill s, initVoice_illw s⟩

/-- All that a step can do to `ILL` and `ILLW`: keep them, clear `ILL`, be reset, or raise the word it refused. -/
theorem StepEffect.illegal_cases {s t : State} (h : StepEffect s t) :
    ((t.ill = s.ill ∨ t.ill = false) ∧ t.illw = s.illw) ∨ (s.NextReset ∧ t.ill = false) ∨
      ∃ w c, s.NextCommand w ∧ decode s.params.nmod w = .error c ∧ t.illw = if s.ill then s.illw else w := by
  cases h with
  | idle | read | ignored | operand => exact .inl ⟨.inl rfl, rfl⟩
  | ack => exact .inl ⟨.inr rfl, rfl⟩
  | illegal w c rest hw hd => exact .inr (.inr ⟨w, c, hw, hd, rfl⟩)
  | command w i rest t' _ hd he =>
    obtain ⟨-, -, -, -, hi⟩ := decode_ok_cases hd
    obtain ⟨hill, hillw⟩ := (exec_effect he).keeps_illegal_flag (s := s.withBus rest) hi
    exact .inl ⟨.inl hill, hillw⟩
  | reset rest hb => exact .inr (.inl ⟨⟨rest, hb⟩, platformReset_ill _⟩)

/-- Settles O10, by cases on what a step can do to `ILL` and `ILLW`. -/
theorem onlyIllegalWordsRaise : Obligations.OnlyIllegalWordsRaise := by
  unfold Obligations.OnlyIllegalWordsRaise
  intro s t h
  rcases (step_effect h).illegal_cases with ⟨hill, hillw⟩ | ⟨hr, hill⟩ | ⟨w, c, hw, hd, hillw⟩
  · refine ⟨fun h0 h1 => ?_, fun hne => absurd hillw hne⟩
    rcases hill with hill | hill <;> simp [hill, h0] at h1
  · exact ⟨fun _ h1 => by simp [hill] at h1, fun _ => .inl hr⟩
  · refine ⟨fun h0 _ => ⟨w, c, hw, hd, by rw [hillw, h0]; rfl⟩, fun hne => .inr ⟨w, c, hw, hd, ?_⟩⟩
    cases h0 : s.ill with
    | false => exact ⟨rfl, by rw [hillw, h0]; rfl⟩
    | true => exact absurd (by rw [hillw, h0]; rfl) hne

/-- All that a step can do to `CMDCNT`: count the command it issued, be reset, or keep it. -/
theorem StepEffect.cmdcnt_cases {s t : State} (h : StepEffect s t) :
    ((∃ w, s.NextCommand w) ∧ t.cmdcnt = s.cmdcnt + 1) ∨ (s.NextReset ∧ t.cmdcnt = 0) ∨
      (¬ s.NextReset ∧ (¬ ∃ w, s.NextCommand w) ∧ t.cmdcnt = s.cmdcnt) := by
  have hother {e : HostEvent} {rest : List HostEvent} (hb : s.bus = e :: rest) (hr : e ≠ .reset)
      (hc : ∀ data, e ≠ .write 0x80 .b4 data) : ¬ s.NextReset ∧ ¬ ∃ w, s.NextCommand w :=
    ⟨fun hn => hr (head_of_nextReset hb hn), fun ⟨_, hn⟩ => (head_of_nextCommand hb hn).elim hc⟩
  cases h with
  | idle hb => exact .inr (.inr ⟨not_nextReset_of_idle hb, fun ⟨w, hw⟩ => not_nextCommand_of_idle hb w hw, rfl⟩)
  | read off size rest hb =>
    obtain ⟨hr, hc⟩ := hother hb (by simp) (by simp)
    exact .inr (.inr ⟨hr, hc, rfl⟩)
  | ignored off size v rest hb hne =>
    obtain ⟨hr, hc⟩ := hother hb (by simp) fun data he => hne (by injection he with ho hs; exact ⟨ho, hs⟩)
    exact .inr (.inr ⟨hr, hc, rfl⟩)
  | operand off size v x rest hb ho =>
    obtain ⟨hr, hc⟩ := hother hb (by simp) fun data he => by
      injection he with ho'
      subst ho'
      exact absurd ho (by decide)
    exact .inr (.inr ⟨hr, hc, rfl⟩)
  | ack v rest hb =>
    obtain ⟨hr, hc⟩ := hother hb (by simp) (by simp)
    exact .inr (.inr ⟨hr, hc, rfl⟩)
  | illegal w c rest hw hd => exact .inl ⟨⟨w, hw⟩, rfl⟩
  | command w i rest t' hw hd he =>
    exact .inl ⟨⟨w, hw⟩, congrArg (· + 1) (exec_effect he).cmdcnt_eq⟩
  | reset rest hb => exact .inr (.inl ⟨⟨rest, hb⟩, platformReset_cmdcnt _⟩)

/-- Settles O19, by cases on what a step can do to `CMDCNT`. -/
theorem commandsAreCounted : Obligations.CommandsAreCounted := by
  unfold Obligations.CommandsAreCounted
  intro s t h
  rcases (step_effect h).cmdcnt_cases with ⟨hw, hcnt⟩ | ⟨hr, hcnt⟩ | ⟨hr, hw, hcnt⟩
  · have hnr : ¬ s.NextReset := hw.elim fun _ => nextCommand_not_reset
    exact ⟨fun _ => hcnt, fun hr => absurd hr hnr, fun hn => absurd hw hn⟩
  · exact ⟨fun ⟨_, hw⟩ => absurd hr (nextCommand_not_reset hw), fun _ => hcnt, fun _ hn => absurd hr hn⟩
  · exact ⟨fun h => absurd h hw, fun h => absurd h hr, fun _ _ => hcnt⟩

/-- Settles O6: serving a write to `CMD` issues its word, which runs and counts what it decodes to. -/
theorem stepRunsTheDecodedCommand : Obligations.StepRunsTheDecodedCommand := by
  unfold Obligations.StepRunsTheDecodedCommand
  intro s t data rest i hb hd he
  rw [step_of_bus hb, serve_cmd_write]
  unfold issue
  rw [show decode (s.withBus rest).params.nmod _ = .ok i from hd]
  dsimp only
  rw [he]
  rfl

/-! ### Reads of the operand registers (20_memory.md rules R53, R54) -/

theorem step_read {s : State} {off : BitVec 8} {size : AccessSize} {rest : List HostEvent}
    (hb : s.bus = .read off size :: rest) :
    step s = .next ((s.withBus rest).setRdata (windowRead (s.withBus rest) off size)) := by
  rw [step_of_bus hb]
  rfl

theorem regAt_eq (off : BitVec 8) : regAt off = BitVec.ofNat 4 (off.toNat / 8) := by
  apply BitVec.eq_of_toNat_eq
  simp only [regAt, BitVec.extractLsb'_toNat, Nat.shiftRight_eq_div_pow, BitVec.toNat_ofNat]

/-- Bit 2 of an aligned offset tells where in its register the access begins. -/
theorem mod_eight_of_aligned {off : BitVec 8} (h : off.toNat % 4 = 0) :
    off.toNat % 8 = if inHighHalf off then 4 else 0 := by
  simp only [inHighHalf, BitVec.getLsbD, Nat.testBit_eq_decide_div_mod_eq, decide_eq_true_eq]
  split <;> omega

theorem halfOf_eq (high : Bool) (v : Word) : halfOf high v = v.extractLsb' (8 * if high then 4 else 0) 32 := by
  cases high <;> rfl

/-- The bytes of a zero-extended half: four of the register's, then zeros. -/
theorem busByte_setWidth_extractLsb' (v : Word) (start k : Nat) :
    busByte ((v.extractLsb' (8 * start) 32).setWidth 64) k =
      if k < 4 then v.extractLsb' (8 * (start + k)) 8 else 0 := by
  ext j hj
  simp only [busByte, BitVec.getElem_extractLsb', BitVec.getLsbD_setWidth, BitVec.getLsbD_extractLsb']
  split
  · next hk =>
    rw [BitVec.getElem_extractLsb', decide_eq_true (by omega), decide_eq_true (by omega), Bool.true_and, Bool.true_and]
    congr 1
    omega
  · next hk =>
    rw [decide_eq_false (p := 8 * k + j < 32) (by omega)]
    simp

/-- A byte of the image inside the register that holds an offset. -/
theorem imageByte_of_regAt (s : State) {off : BitVec 8} {k : Nat} (hk : off.toNat % 8 + k < 8) :
    imageByte s (off.toNat + k) = (s.reg (regAt off)).extractLsb' (8 * (off.toNat % 8 + k)) 8 := by
  have hq : (off.toNat + k) / 8 = off.toNat / 8 := by omega
  have hr : (off.toNat + k) % 8 = off.toNat % 8 + k := by omega
  rw [imageByte, hq, hr, regAt_eq]

theorem windowRead_b4 (s : State) {off : BitVec 8} (h : off.toNat < 128) (ha : off.toNat % 4 = 0) :
    windowRead s off .b4 = (halfOf (inHighHalf off) (s.reg (regAt off))).setWidth 64 := by
  have hs : supported off .b4 = true := by simp [supported, ha]
  rw [windowRead, if_pos hs, if_pos h]

theorem windowRead_b8 (s : State) {off : BitVec 8} (h : off.toNat < 128) (ha : off.toNat % 8 = 0) :
    windowRead s off .b8 = s.reg (regAt off) := by
  have hs : supported off .b8 = true := by simp [supported, ha, h]
  rw [windowRead, if_pos hs, if_pos h]

/-- The bytes of a supported read are those of the image, then zeros (rules R53, R54). -/
theorem busByte_windowRead (s : State) {off : BitVec 8} {size : AccessSize} (h : OperandAccess off size) {k : Nat}
    (hk : k < 8) :
    busByte (windowRead s off size) k = if k < size.bytes then imageByte s (off.toNat + k) else 0 := by
  obtain ⟨hoff, ⟨rfl, ha⟩ | ⟨rfl, ha⟩⟩ := h
  · have hm := mod_eight_of_aligned ha
    rw [windowRead_b4 s hoff ha, halfOf_eq, ← hm, busByte_setWidth_extractLsb', AccessSize.bytes]
    split
    · rw [imageByte_of_regAt s (by omega)]
    · rfl
  · rw [windowRead_b8 s hoff ha, AccessSize.bytes, if_pos hk, imageByte_of_regAt s (by omega), ha, Nat.zero_add]
    rfl

/-- Settles O13: the value read is the window's, whose bytes are those of the image. -/
theorem operandReadsAreTheByteImage : Obligations.OperandReadsAreTheByteImage := by
  unfold Obligations.OperandReadsAreTheByteImage
  intro s off size rest hb ha
  exact ⟨_, step_read hb, rfl, fun k hk => busByte_windowRead (s.withBus rest) ha hk⟩

/-! ### The control registers in the window (rules R52, R58) -/

theorem step_read_control {s : State} {off : BitVec 8} {rest : List HostEvent} (hb : s.bus = .read off .b4 :: rest)
    (h : 128 ≤ off.toNat) (ha : off.toNat % 4 = 0) :
    step s = .next { s with bus := rest, rdata := (controlReg s off).setWidth 64 } := by
  have hs : supported off .b4 = true := by simp [supported, ha]
  rw [step_read hb, windowRead, if_pos hs, if_neg (by omega)]
  rfl

theorem getLsbD_append_ofBool_zero {n : Nat} (x : BitVec n) (b : Bool) : (x ++ BitVec.ofBool b).getLsbD 0 = b := by
  rw [BitVec.getLsbD_append, if_pos Nat.one_pos]
  cases b <;> rfl

theorem getLsbD_append_ofBool_succ {n : Nat} (x : BitVec n) (b : Bool) (k : Nat) :
    (x ++ BitVec.ofBool b).getLsbD (k + 1) = x.getLsbD k := by
  rw [BitVec.getLsbD_append, if_neg (by omega), Nat.add_sub_cancel]

/-- `STATUS` bit by bit (10_state.md rule R31). -/
theorem statusWord_bits (s : State) :
    (statusWord s).getLsbD 0 = s.ill ∧ ((statusWord s).getLsbD 1 = true ↔ s.vol.stg = .finished) ∧
      ((statusWord s).getLsbD 2 = true ↔ s.menv.stg = .finished) ∧ ((statusWord s).getLsbD 3 = true ↔ s.dirty ≠ 0) ∧
      (statusWord s).getLsbD 4 = s.vib.run ∧ (statusWord s).getLsbD 5 = s.mlfo.run ∧
      ∀ k, 6 ≤ k → (statusWord s).getLsbD k = false := by
  unfold statusWord
  refine ⟨?ill, ?vfin, ?mfin, ?dnz, ?lrun0, ?lrun1, fun k hk => ?zeros⟩
  case ill => exact getLsbD_append_ofBool_zero ..
  case vfin =>
    rw [getLsbD_append_ofBool_succ, getLsbD_append_ofBool_zero]
    exact beq_iff_eq
  case mfin =>
    iterate 2 rw [getLsbD_append_ofBool_succ]
    rw [getLsbD_append_ofBool_zero]
    exact beq_iff_eq
  case dnz =>
    iterate 3 rw [getLsbD_append_ofBool_succ]
    rw [getLsbD_append_ofBool_zero]
    exact bne_iff_ne
  case lrun0 =>
    iterate 4 rw [getLsbD_append_ofBool_succ]
    exact getLsbD_append_ofBool_zero ..
  case lrun1 =>
    iterate 5 rw [getLsbD_append_ofBool_succ]
    exact getLsbD_append_ofBool_zero ..
  case zeros =>
    obtain ⟨j, rfl⟩ := Nat.exists_eq_add_of_le' hk
    iterate 6 rw [getLsbD_append_ofBool_succ]
    exact BitVec.getLsbD_zero

/-- `PARAM` field by field (10_state.md rule R35). -/
theorem paramWord_fields (p : Params) :
    (paramWord p).extractLsb' 0 8 = BitVec.ofNat 8 p.nmod ∧ (paramWord p).extractLsb' 8 8 = BitVec.ofNat 8 p.kbands ∧
      ((paramWord p).getLsbD 16 = true ↔ p.shape = .triangle) ∧ ∀ k, 17 ≤ k → (paramWord p).getLsbD k = false := by
  unfold paramWord
  refine ⟨?nmod, ?kbands, ?shape, fun k hk => ?zeros⟩
  case nmod => exact BitVec.extractLsb'_append_eq_right
  case kbands =>
    ext j hj
    rw [BitVec.getElem_extractLsb', BitVec.getLsbD_append, if_neg (by omega), BitVec.getLsbD_append,
      if_pos (by omega), Nat.add_sub_cancel_left, BitVec.getLsbD_eq_getElem hj]
  case shape =>
    rw [BitVec.getLsbD_append, if_neg (by decide), BitVec.getLsbD_append, if_neg (by decide)]
    cases p.shape <;> decide
  case zeros =>
    obtain ⟨j, rfl⟩ := Nat.exists_eq_add_of_le hk
    iterate 3 rw [BitVec.getLsbD_append, if_neg (by omega)]
    exact BitVec.getLsbD_zero

/-- Settles O15, by cases on the offset. -/
theorem controlRegisterReads : Obligations.ControlRegisterReads := by
  unfold Obligations.ControlRegisterReads
  intro s off rest hb h ha
  refine ⟨_, _, step_read_control hb h ha, rfl, ?_⟩
  unfold controlReg
  split
  · exact statusWord_bits s
  split
  · rfl
  split
  · rfl
  split
  · rfl
  split
  · exact paramWord_fields s.params
  · rfl

/-- A 32-bit write above `CMD` is the acknowledgement of `ILL` or ignored (20_memory.md rule R58). -/
theorem windowWrite_above_cmd (s : State) {off : BitVec 8} (v : Word) (h : 128 < off.toNat) (ha : off.toNat % 4 = 0) :
    windowWrite s off .b4 v = .next (if off = 0x84 ∧ v.getLsbD 0 = true then s.ackIllegal else s) := by
  have hs : supported off .b4 = true := by simp [supported, ha]
  have hcmd : off ≠ 0x80 := by rintro rfl; exact absurd h (by decide)
  rw [windowWrite, if_pos hs, if_neg (by omega), if_neg hcmd]
  by_cases hst : off = 0x84
  · simp only [hst, if_true, true_and, done]
  · simp only [hst, if_false, false_and, done]

/-- Settles O16: the write acknowledges `ILL` or is ignored. -/
theorem controlRegisterWrites : Obligations.ControlRegisterWrites := by
  unfold Obligations.ControlRegisterWrites
  intro s off data rest hb h ha
  have hstep : step s = windowWrite (s.withBus rest) off .b4 data := step_of_bus hb
  rw [hstep, windowWrite_above_cmd _ data h ha]
  refine ⟨_, rfl, ?_⟩
  split
  · exact ⟨rfl, rfl⟩
  · exact ⟨rfl, rfl⟩

/-! ### Reset (10_state.md rule R38, 70_reset_and_hazards.md rule R260) -/

/-- Settles O17: serving the reset input is the platform's reset. -/
theorem platformResetEffect : Obligations.PlatformResetEffect := by
  unfold Obligations.PlatformResetEffect
  intro s rest hb
  rw [step_of_bus hb]
  rfl

theorem reset_reg (r : Reg) : State.reset.reg r = 0 := Vector.getElem_replicate _
theorem reset_env (u : EnvSel) : State.reset.env u = .reset := by cases u <;> rfl
theorem reset_lfo (u : LfoSel) : State.reset.lfo u = .reset := by cases u <;> rfl
theorem reset_slot (i : BitVec 6) : State.reset.slot i = .empty := Vector.getElem_replicate _
theorem reset_accAt (g : BitVec 6) : State.reset.accAt g = 0 := Vector.getElem_replicate _

/-- Settles O18, piece by piece of the state. -/
theorem resetValues : Obligations.ResetValues := by
  unfold Obligations.ResetValues
  refine ⟨reset_reg, fun u => ?_, fun u => ?_, fun i => ?_, reset_accAt, rfl, rfl, rfl, rfl, rfl, by decide⟩
  · rw [reset_env]
    exact ⟨rfl, rfl, fun stg => by cases stg <;> rfl, rfl, rfl⟩
  · rw [reset_lfo]
    exact ⟨rfl, rfl, rfl, rfl, rfl⟩
  · rw [reset_slot]
    exact ⟨rfl, by decide, rfl, rfl, rfl⟩

/-- Settles O21: a state with its voice at the reset values satisfies the invariant. -/
theorem resetSatisfiesTheInvariant : Obligations.ResetSatisfiesTheInvariant := by
  unfold Obligations.ResetSatisfiesTheInvariant
  exact inv_of_reset_voice (by decide) rfl rfl rfl rfl rfl rfl

/-! ### Ranges (10_state.md rule R24, 44_modulator.md rules R179, R183) -/

/-- Settles O39. -/
theorem envelopeValueInRange : Obligations.EnvelopeValueInRange := by
  unfold Obligations.EnvelopeValueInRange
  exact fun _ hok => eval_range hok

/-- Settles O55: contributions and sums of legal slots are exact and bounded. -/
theorem sumsNeverSaturate : Obligations.SumsNeverSaturate := by
  unfold Obligations.SumsNeverSaturate
  rintro s ⟨-, -, -, hslot, -⟩
  exact ⟨fun i => contrib_exact (hslot i), fun g => ⟨toInt_sat64_boundSum hslot g, boundSum_range hslot g⟩⟩

end Sys2Proof.Machine

/-! PROOF. The host window and the machine as a whole: no step stops, reads change nothing, and a write of an operand
register replaces the bytes it names. -/

namespace Sys2Proof.Machine

/-! ### Nothing stops PSC (60_exceptions.md rules R240, R241) -/

theorem ifLegal_answers (i : Instr) (s t : State) : ∃ t', ifLegal i s t = .next t' := by
  by_cases hw : i.WellFormed s.params.nmod
  · exact ⟨_, ifLegal_of_wellFormed hw⟩
  · exact ⟨_, ifLegal_of_not_wellFormed hw⟩

/-- Every command has a meaning: its effect, or the exception where its range check fails. -/
theorem exec_answers (i : Instr) (s : State) : ∃ t, exec i s = .next t := by
  cases i with
  | esetp | esetks | mcfg | mget | mmatch | mrdd => exact ifLegal_answers _ _ _
  | nop | cb2r | k2hz | tc2s | ac2hz | joinb | tblrd | eupd | erel | efin | eget | estg | lsetd | lsetf | lupd | lget
  | mupd | msum | rdacc | geff | rddirty | li | lif | mov | fadd | fsub | fmul | i2f | f2i | vinit => exact ⟨_, rfl⟩

/-- Every word is served, legal or not (30_encoding.md rule R80). -/
theorem issue_answers (w : Cmd) (s : State) : ∃ t, issue w s = .next t := by
  unfold issue
  split
  · exact ⟨_, rfl⟩
  · next i _ =>
    obtain ⟨t, ht⟩ := exec_answers i s
    exact ⟨_, by rw [ht]; rfl⟩

theorem windowWrite_answers (s : State) (off : BitVec 8) (size : AccessSize) (v : Word) :
    ∃ t, windowWrite s off size v = .next t := by
  unfold windowWrite
  split
  · split
    · exact ⟨_, rfl⟩
    split
    · exact issue_answers _ s
    split
    · exact ⟨_, rfl⟩
    · exact ⟨_, rfl⟩
  · exact ⟨_, rfl⟩

theorem serve_answers (e : HostEvent) (s : State) : ∃ t, serve e s = .next t := by
  cases e with
  | read off size => exact ⟨_, rfl⟩
  | write off size v => exact windowWrite_answers s off size v
  | reset => exact ⟨_, rfl⟩

/-- Settles O9: an idle step keeps the state, and every event is served. -/
theorem nothingStopsPsc : Obligations.NothingStopsPsc := by
  unfold Obligations.NothingStopsPsc
  intro s
  cases hb : s.bus with
  | nil => exact ⟨s, by rw [step, stepOnce, hb]⟩
  | cons e rest =>
    rw [step_of_bus hb]
    exact serve_answers e _

/-! ### Reads change nothing (20_memory.md rule R57) -/

/-- What a read returns depends neither on what the host has issued nor on what it last read. -/
@[simp] theorem windowRead_withBus (s : State) (b : List HostEvent) (off : BitVec 8) (size : AccessSize) :
    windowRead (s.withBus b) off size = windowRead s off size := rfl

@[simp] theorem windowRead_setRdata (s : State) (v : Word) (off : BitVec 8) (size : AccessSize) :
    windowRead (s.setRdata v) off size = windowRead s off size := rfl

/-- Settles O12: the second read meets the registers the first one met. -/
theorem readsChangeNothing : Obligations.ReadsChangeNothing := by
  unfold Obligations.ReadsChangeNothing
  intro s off size rest hb
  refine ⟨_, step_read hb, rfl, fun more hmore => ?_⟩
  rw [step_read (rest := more) (by simpa using hmore)]
  simp only [windowRead_withBus, windowRead_setRdata]
  rfl

/-! ### Writes of the operand registers (20_memory.md rules R53, R54) -/

/-- The bytes of two joined halves: four of the low one, then four of the high one. -/
theorem busByte_append (hi lo : BitVec 32) (j : Nat) :
    busByte (hi ++ lo) j = if j < 4 then lo.extractLsb' (8 * j) 8 else hi.extractLsb' (8 * (j - 4)) 8 := by
  unfold busByte
  split
  · rw [BitVec.extractLsb'_append_eq_of_add_le (by omega)]
  · rw [BitVec.extractLsb'_append_eq_of_le (by omega), show 8 * j - 32 = 8 * (j - 4) by omega]

theorem extractLsb'_half (v : Word) (start : Nat) {k : Nat} (hk : k < 4) :
    (v.extractLsb' start 32).extractLsb' (8 * k) 8 = v.extractLsb' (start + 8 * k) 8 := by
  ext b hb
  rw [BitVec.getElem_extractLsb', BitVec.getElem_extractLsb', BitVec.getLsbD_extractLsb', decide_eq_true (by omega),
    Bool.true_and, Nat.add_assoc]

/-- The bytes of a register with one half replaced: four of the data's, the other four as they were. -/
theorem busByte_setHalf (high : Bool) (v data : Word) {j : Nat} (hj : j < 8) :
    busByte (setHalf high v (data.extractLsb' 0 32)) j =
      if (if high then 4 else 0) ≤ j ∧ j < (if high then 4 else 0) + 4 then busByte data (j - if high then 4 else 0)
      else busByte v j := by
  cases high with
  | false =>
    change busByte (v.extractLsb' 32 32 ++ data.extractLsb' 0 32) j = if 0 ≤ j ∧ j < 0 + 4 then busByte data j else _
    rw [busByte_append]
    split
    · next h => rw [extractLsb'_half _ _ h, if_pos (by omega), Nat.zero_add, busByte]
    · next h => rw [extractLsb'_half _ _ (by omega), if_neg (by omega), busByte, show 32 + 8 * (j - 4) = 8 * j by omega]
  | true =>
    change busByte (data.extractLsb' 0 32 ++ v.extractLsb' 0 32) j = if 4 ≤ j ∧ j < 8 then busByte data (j - 4) else _
    rw [busByte_append]
    split
    · next h => rw [extractLsb'_half _ _ h, if_neg (by omega), Nat.zero_add, busByte]
    · next h => rw [extractLsb'_half _ _ (by omega), if_pos (by omega), Nat.zero_add, busByte]

theorem imageByte_setReg (s : State) (r : Reg) (w : Word) {a : Nat} (ha : a < 128) :
    imageByte (s.setReg r w) a = if a / 8 = r.toNat then busByte w (a % 8) else imageByte s a := by
  have hr : r = BitVec.ofNat 4 (a / 8) ↔ a / 8 = r.toNat := by
    rw [← BitVec.toNat_inj, BitVec.toNat_ofNat, Nat.mod_eq_of_lt (by omega), eq_comm]
  unfold imageByte
  rw [reg_setReg]
  simp only [hr]
  split
  · rfl
  · rfl

/-- A supported write gives one register a value that has the data's bytes inside the access and its own outside. -/
theorem writeOperand_bytes (s : State) {off : BitVec 8} {size : AccessSize} (h : OperandAccess off size) (data : Word) :
    ∃ w, writeOperand s off size data = s.setReg (regAt off) w ∧ ∀ j < 8,
      busByte w j = if off.toNat % 8 ≤ j ∧ j < off.toNat % 8 + size.bytes then busByte data (j - off.toNat % 8)
        else busByte (s.reg (regAt off)) j := by
  obtain ⟨-, ⟨rfl, ha⟩ | ⟨rfl, ha⟩⟩ := h
  · refine ⟨_, rfl, fun j hj => ?_⟩
    rw [mod_eight_of_aligned ha, busByte_setHalf _ _ _ hj]
    rfl
  · refine ⟨_, rfl, fun j hj => ?_⟩
    rw [ha, if_pos ⟨Nat.zero_le j, by rw [AccessSize.bytes]; omega⟩, Nat.sub_zero]

/-- A supported access stays inside its register. -/
theorem operandAccess_fits {off : BitVec 8} {size : AccessSize} (h : OperandAccess off size) :
    off.toNat % 8 + size.bytes ≤ 8 := by
  obtain ⟨-, ⟨rfl, ha⟩ | ⟨rfl, ha⟩⟩ := h
  · rw [AccessSize.bytes]
    omega
  · rw [AccessSize.bytes]
    omega

theorem regAt_toNat {off : BitVec 8} (h : off.toNat < 128) : (regAt off).toNat = off.toNat / 8 := by
  rw [regAt_eq, BitVec.toNat_ofNat, Nat.mod_eq_of_lt (by omega)]

/-- A supported write replaces the bytes of the image inside the access and no other (rule R54). -/
theorem imageByte_writeOperand (s : State) {off : BitVec 8} {size : AccessSize} (h : OperandAccess off size)
    (data : Word) {a : Nat} (ha : a < 128) :
    imageByte (writeOperand s off size data) a =
      if off.toNat ≤ a ∧ a < off.toNat + size.bytes then busByte data (a - off.toNat) else imageByte s a := by
  have hfits := operandAccess_fits h
  obtain ⟨w, hw, hbytes⟩ := writeOperand_bytes s h data
  obtain ⟨hoff, -⟩ := h
  rw [hw, imageByte_setReg s _ w ha, regAt_toNat hoff]
  by_cases hreg : a / 8 = off.toNat / 8
  · rw [if_pos hreg, hbytes _ (by omega)]
    by_cases hin : off.toNat ≤ a ∧ a < off.toNat + size.bytes
    · rw [if_pos hin, if_pos (by omega), show a % 8 - off.toNat % 8 = a - off.toNat by omega]
    · rw [if_neg hin, if_neg (by omega), imageByte, hreg, ← regAt_eq]
      rfl
  · rw [if_neg hreg, if_neg (by omega)]

theorem windowWrite_operand (s : State) {off : BitVec 8} {size : AccessSize} (h : OperandAccess off size) (v : Word) :
    windowWrite s off size v = .next (writeOperand s off size v) := by
  obtain ⟨hoff, hsize⟩ := h
  have hs : supported off size = true := by
    rcases hsize with ⟨rfl, ha⟩ | ⟨rfl, ha⟩
    · simp [supported, ha]
    · simp [supported, ha, hoff]
  rw [windowWrite, if_pos hs, if_pos hoff, done]

/-- Settles O14: the bytes of the image by `imageByte_writeOperand`, the frame because one register is written. -/
theorem operandWritesReplaceTheByteImage : Obligations.OperandWritesReplaceTheByteImage := by
  unfold Obligations.OperandWritesReplaceTheByteImage
  intro s off size data rest hb ha
  have hstep : step s = windowWrite (s.withBus rest) off size data := step_of_bus hb
  refine ⟨_, hstep.trans (windowWrite_operand _ ha data), fun a h => imageByte_writeOperand (s.withBus rest) ha data h, ?_⟩
  obtain ⟨w, hw, -⟩ := writeOperand_bytes (s.withBus rest) ha data
  rw [hw]
  obtain ⟨-, -, henvs, hlfos, hslots, hsums, hcontrol, hrdata, hbus⟩ := writesReg_setReg (s.withBus rest) (regAt off) w
  exact ⟨henvs, hlfos, hslots, hsums, hcontrol, hrdata, hbus⟩

end Sys2Proof.Machine

/-! PROOF. Encoding (30_encoding.md): a command's word decodes up to the command's own range check, a legal word is the word
of the one command it means, and the legal words are those of the opcode map. -/

namespace Sys2Proof

open Laws Machine

/-! ### The word of a command, read back -/

/-- The word of a command is in the row of that command: the row's opcode, every reserved bit zero (rules R74, R75). -/
theorem encode_in_row : ∀ i : Instr,
    opOf (encode i) = i.opcode.row.code ∧ i.opcode.row.reservedClear (encode i) = true
  | .nop => ⟨OpcodeByte.nop, ReservedBitsClear.nop⟩
  | .cb2r rd rs1 => ⟨OpcodeByte.cb2r rd rs1, ReservedBitsClear.cb2r rd rs1⟩
  | .k2hz rd rs1 => ⟨OpcodeByte.k2hz rd rs1, ReservedBitsClear.k2hz rd rs1⟩
  | .tc2s rd rs1 => ⟨OpcodeByte.tc2s rd rs1, ReservedBitsClear.tc2s rd rs1⟩
  | .ac2hz rd rs1 => ⟨OpcodeByte.ac2hz rd rs1, ReservedBitsClear.ac2hz rd rs1⟩
  | .joinb rd rs1 rs2 => ⟨OpcodeByte.joinb rd rs1 rs2, ReservedBitsClear.joinb rd rs1 rs2⟩
  | .tblrd rd rs1 t => ⟨OpcodeByte.tblrd rd rs1 t, ReservedBitsClear.tblrd rd rs1 t⟩
  | .esetp u st rs1 => ⟨OpcodeByte.esetp u st rs1, ReservedBitsClear.esetp u st rs1⟩
  | .esetks u st rs1 rs2 rs3 => ⟨OpcodeByte.esetks u st rs1 rs2 rs3, ReservedBitsClear.esetks u st rs1 rs2 rs3⟩
  | .eupd u rs1 => ⟨OpcodeByte.eupd u rs1, ReservedBitsClear.eupd u rs1⟩
  | .erel u => ⟨OpcodeByte.erel u, ReservedBitsClear.erel u⟩
  | .efin u => ⟨OpcodeByte.efin u, ReservedBitsClear.efin u⟩
  | .eget rd u => ⟨OpcodeByte.eget rd u, ReservedBitsClear.eget rd u⟩
  | .estg rd u => ⟨OpcodeByte.estg rd u, ReservedBitsClear.estg rd u⟩
  | .lsetd u rs1 => ⟨OpcodeByte.lsetd u rs1, ReservedBitsClear.lsetd u rs1⟩
  | .lsetf u rs1 => ⟨OpcodeByte.lsetf u rs1, ReservedBitsClear.lsetf u rs1⟩
  | .lupd u rs1 => ⟨OpcodeByte.lupd u rs1, ReservedBitsClear.lupd u rs1⟩
  | .lget rd u => ⟨OpcodeByte.lget rd u, ReservedBitsClear.lget rd u⟩
  | .mcfg slot rs1 => ⟨OpcodeByte.mcfg slot rs1, ReservedBitsClear.mcfg slot rs1⟩
  | .mupd kind width rs1 rs2 => ⟨OpcodeByte.mupd kind width rs1 rs2, ReservedBitsClear.mupd kind width rs1 rs2⟩
  | .msum gen => ⟨OpcodeByte.msum gen, ReservedBitsClear.msum gen⟩
  | .mget rd slot => ⟨OpcodeByte.mget rd slot, ReservedBitsClear.mget rd slot⟩
  | .mmatch kind rd rs1 slot => ⟨OpcodeByte.mmatch kind rd rs1 slot, ReservedBitsClear.mmatch kind rd rs1 slot⟩
  | .rdacc rd gen => ⟨OpcodeByte.rdacc rd gen, ReservedBitsClear.rdacc rd gen⟩
  | .geff rd rs1 gen => ⟨OpcodeByte.geff rd rs1 gen, ReservedBitsClear.geff rd rs1 gen⟩
  | .rddirty rd => ⟨OpcodeByte.rddirty rd, ReservedBitsClear.rddirty rd⟩
  | .mrdd rd slot => ⟨OpcodeByte.mrdd rd slot, ReservedBitsClear.mrdd rd slot⟩
  | .li rd imm => ⟨OpcodeByte.li rd imm, ReservedBitsClear.li rd imm⟩
  | .lif rd imm => ⟨OpcodeByte.lif rd imm, ReservedBitsClear.lif rd imm⟩
  | .mov rd rs1 => ⟨OpcodeByte.mov rd rs1, ReservedBitsClear.mov rd rs1⟩
  | .fadd rd rs1 rs2 => ⟨OpcodeByte.fadd rd rs1 rs2, ReservedBitsClear.fadd rd rs1 rs2⟩
  | .fsub rd rs1 rs2 => ⟨OpcodeByte.fsub rd rs1 rs2, ReservedBitsClear.fsub rd rs1 rs2⟩
  | .fmul rd rs1 rs2 => ⟨OpcodeByte.fmul rd rs1 rs2, ReservedBitsClear.fmul rd rs1 rs2⟩
  | .i2f rd rs1 => ⟨OpcodeByte.i2f rd rs1, ReservedBitsClear.i2f rd rs1⟩
  | .f2i rd rs1 => ⟨OpcodeByte.f2i rd rs1, ReservedBitsClear.f2i rd rs1⟩
  | .vinit => ⟨OpcodeByte.vinit, ReservedBitsClear.vinit⟩

/-- The row of a command builds the command from its word, well formed or not: every field and every sub-field is read
back (rules R70, R72). -/
theorem build_encode (i : Instr) : build i.opcode (encode i) = .ok i := by
  cases i with
  | esetp u st | esetks u st => simp [Instr.opcode, encode, build, Except.bind, Except.map]
  | tblrd | eupd | erel | efin | eget | estg | lsetd | lsetf | lupd | lget =>
    simp [Instr.opcode, encode, build, Except.map]
  | nop | cb2r | k2hz | tc2s | ac2hz | joinb | mcfg | mupd | msum | mget | mmatch | rdacc | geff | rddirty | mrdd
  | li | lif | mov | fadd | fsub | fmul | i2f | f2i | vinit => simp [Instr.opcode, encode, build]

/-- A word of a row with its reserved bits zero decodes to what the row builds, after the range checks (rule R80). -/
theorem decode_of_row {op : Opcode} {w : Cmd} (hc : op.row.code = opOf w) (hr : op.row.reservedClear w = true)
    (nmod : Nat) : decode nmod w = (build op w).bind (checkRange nmod) := by
  unfold decode
  rw [← hc, ofByte_code]
  exact if_pos hr

/-- Decoding the word of a command leaves only the command's own range check (rule R76 cases 4 and 5). -/
theorem decode_encode (nmod : Nat) (i : Instr) : decode nmod (encode i) = checkRange nmod i := by
  obtain ⟨hc, hr⟩ := encode_in_row i
  rw [decode_of_row hc.symm hr, build_encode, Except.bind]

/-- Settles O1: the range check that `decode_encode` leaves is passed. -/
theorem decodeOfEncode : Obligations.DecodeOfEncode := by
  unfold Obligations.DecodeOfEncode
  intro nmod i hi
  rw [decode_encode, checkRange, hi]

/-- Settles O3: the range check that `decode_encode` leaves is the one that fails. -/
theorem illFormedWordsRefused : Obligations.IllFormedWordsRefused := by
  unfold Obligations.IllFormedWordsRefused
  intro nmod i c hc
  rw [decode_encode, checkRange, hc]

/-! ### A legal word, written again -/

/-- A format-I word is the format-R word of the same bits (rule R70). -/
theorem encI_fields (w : Cmd) : encI (opOf w) (rdOf w) (imm20Of w) = w := by
  unfold encI opOf rdOf imm20Of
  iterate 2 rw [BitVec.extractLsb'_append_extractLsb'_eq_extractLsb' (by rfl)]
  exact BitVec.extractLsb'_eq_self

/-! The bits of `imm8` that its sub-fields keep are the bits its row uses (rules R72, R75). -/

theorem immLow2_low2Of (b : BitVec 8) : immLow2 (low2Of b) = b &&& 0x03 := by revert b; decide

theorem immStage_fields (b : BitVec 8) : immStage (stgOf b) (low2Of b) = b &&& 0x73 := by revert b; decide

theorem immLow6_low6Of (b : BitVec 8) : immLow6 (low6Of b) = b &&& 0x3F := by revert b; decide

theorem immMupd_fields (b : BitVec 8) : immMupd (b.extractLsb' 0 1) (b.extractLsb' 1 1) = b &&& 0x03 := by
  revert b; decide

theorem immMmatch_fields (b : BitVec 8) : immMmatch (b.extractLsb' 6 1) (low6Of b) = b &&& 0x7F := by
  revert b; decide

/-! A code that names a value is the code of that value (rules R25, R72). -/

theorem envSel_ofCode_eq_ok_iff {c : BitVec 2} {u : EnvSel} : EnvSel.ofCode c = .ok u ↔ c = u.code := by
  constructor
  · revert c; cases u <;> decide
  · rintro rfl; exact envSel_ofCode_code u

theorem lfoSel_ofCode_eq_ok_iff {c : BitVec 2} {u : LfoSel} : LfoSel.ofCode c = .ok u ↔ c = u.code := by
  constructor
  · revert c; cases u <;> decide
  · rintro rfl; exact lfoSel_ofCode_code u

theorem stage_ofCode_eq_ok_iff {c : BitVec 3} {st : Stage} : Stage.ofCode c = .ok st ↔ c = st.code := by
  constructor
  · revert c; cases st <;> decide
  · rintro rfl; exact stage_ofCode_code st

theorem table_ofCode_eq_ok_iff {c : BitVec 2} {t : Table} : Table.ofCode c = .ok t ↔ c = t.code := by
  constructor
  · revert c; cases t <;> decide
  · rintro rfl; exact table_ofCode_code t

@[simp] theorem kind_code_ofCode (b : BitVec 1) : (Kind.ofCode b).code = b := by revert b; decide

@[simp] theorem rawWidth_code_ofCode (b : BitVec 1) : (RawWidth.ofCode b).code = b := by revert b; decide

/-- A field whose reserved bits are zero is its used bits. -/
theorem eq_ite_of_used_or_zero {n : Nat} {used : Bool} {x : BitVec n} (h : used = true ∨ x = 0) :
    x = if used then x else 0 := by
  rcases h with rfl | rfl <;> simp

/-- A word of a row with its reserved bits zero is the row's opcode and the fields and bits the row uses. -/
theorem word_of_row {r : OpRow} {w : Cmd} (hc : r.code = opOf w) (hr : r.reservedClear w = true) :
    w = encR r.code (if r.rd then rdOf w else 0) (if r.rs1 then rs1Of w else 0) (if r.rs2 then rs2Of w else 0)
      (if r.rs3 then rs3Of w else 0) (imm8Of w &&& r.imm8) := by
  simp only [OpRow.reservedClear, Bool.and_eq_true, Bool.or_eq_true, beq_iff_eq] at hr
  obtain ⟨⟨⟨⟨hrd, h1⟩, h2⟩, h3⟩, h8⟩ := hr
  have himm : imm8Of w &&& r.imm8 = imm8Of w := by
    calc imm8Of w &&& r.imm8 = (imm8Of w &&& r.imm8) ||| (imm8Of w &&& ~~~ r.imm8) := by
          rw [h8]; exact BitVec.or_zero.symm
      _ = imm8Of w := by rw [← BitVec.and_or_distrib_left, BitVec.or_not_self, BitVec.and_allOnes]
  rw [← eq_ite_of_used_or_zero hrd, ← eq_ite_of_used_or_zero h1, ← eq_ite_of_used_or_zero h2,
    ← eq_ite_of_used_or_zero h3, himm, hc, encR_fields]

/-- What a row builds from a word of that row is written as that word. -/
theorem encode_of_build {op : Opcode} {w : Cmd} {i : Instr} (hc : op.row.code = opOf w)
    (hr : op.row.reservedClear w = true) (hb : build op w = .ok i) : encode i = w := by
  have hw := word_of_row hc hr
  cases op with
  | li | lif =>
    injection hb with hb
    subst hb
    conv_rhs => rw [← encI_fields w, ← hc]
    rfl
  | esetp | esetks =>
    obtain ⟨u, hu, hb⟩ := ok_of_bind_eq_ok hb
    obtain ⟨st, hst, rfl⟩ := ok_of_map_eq_ok hb
    rw [encode, ← envSel_ofCode_eq_ok_iff.1 hu, ← stage_ofCode_eq_ok_iff.1 hst, immStage_fields]
    exact hw.symm
  | tblrd =>
    obtain ⟨t, ht, rfl⟩ := ok_of_map_eq_ok hb
    rw [encode, ← table_ofCode_eq_ok_iff.1 ht, immLow2_low2Of]
    exact hw.symm
  | eupd | erel | efin | eget | estg =>
    obtain ⟨u, hu, rfl⟩ := ok_of_map_eq_ok hb
    rw [encode, ← envSel_ofCode_eq_ok_iff.1 hu, immLow2_low2Of]
    exact hw.symm
  | lsetd | lsetf | lupd | lget =>
    obtain ⟨u, hu, rfl⟩ := ok_of_map_eq_ok hb
    rw [encode, ← lfoSel_ofCode_eq_ok_iff.1 hu, immLow2_low2Of]
    exact hw.symm
  | mcfg | msum | mget | rdacc | geff | mrdd =>
    injection hb with hb
    subst hb
    rw [encode, immLow6_low6Of]
    exact hw.symm
  | mupd =>
    injection hb with hb
    subst hb
    rw [encode, kind_code_ofCode, rawWidth_code_ofCode, immMupd_fields]
    exact hw.symm
  | mmatch =>
    injection hb with hb
    subst hb
    rw [encode, kind_code_ofCode, immMmatch_fields]
    exact hw.symm
  | nop | cb2r | k2hz | tc2s | ac2hz | joinb | rddirty | mov | fadd | fsub | fmul | i2f | f2i | vinit =>
    injection hb with hb
    subst hb
    exact (hw.trans (congrArg (encR _ _ _ _ _) BitVec.and_zero)).symm

/-- Settles O2: a word that decodes is a word of a row, with its reserved bits zero, from which the row builds the
command. -/
theorem encodeOfDecode : Obligations.EncodeOfDecode := by
  unfold Obligations.EncodeOfDecode
  intro nmod w i h
  obtain ⟨op, hc, hr, hb, hi⟩ := decode_ok_cases h
  exact ⟨encode_of_build hc hr hb, hi⟩

/-! ### The legal words as the opcode map tells them (rules R74, R75, R76) -/

theorem encR_and (op op' : BitVec 8) (rd rd' rs1 rs1' rs2 rs2' rs3 rs3' : Reg) (b b' : BitVec 8) :
    encR op rd rs1 rs2 rs3 b &&& encR op' rd' rs1' rs2' rs3' b' =
      encR (op &&& op') (rd &&& rd') (rs1 &&& rs1') (rs2 &&& rs2') (rs3 &&& rs3') (b &&& b') := by
  unfold encR
  iterate 5 rw [← BitVec.and_append]

/-- Words agree exactly when their fields do. -/
theorem eq_encR_iff {w : Cmd} {op : BitVec 8} {rd rs1 rs2 rs3 : Reg} {b : BitVec 8} :
    w = encR op rd rs1 rs2 rs3 b ↔
      opOf w = op ∧ rdOf w = rd ∧ rs1Of w = rs1 ∧ rs2Of w = rs2 ∧ rs3Of w = rs3 ∧ imm8Of w = b := by
  constructor
  · rintro rfl
    simp
  · rintro ⟨rfl, rfl, rfl, rfl, rfl, rfl⟩
    exact (encR_fields w).symm

theorem matchWord_eq_encR (r : OpRow) : r.matchWord = encR r.code 0 0 0 0 0 := by
  unfold OpRow.matchWord
  generalize r.code = c
  revert c
  decide

/-- The part of a word that a row's mask keeps, field by field. -/
theorem and_mask_eq_encR (w : Cmd) (r : OpRow) :
    w &&& r.mask = encR (opOf w) (rdOf w &&& ~~~ usedMask 4 r.rd) (rs1Of w &&& ~~~ usedMask 4 r.rs1)
      (rs2Of w &&& ~~~ usedMask 4 r.rs2) (rs3Of w &&& ~~~ usedMask 4 r.rs3) (imm8Of w &&& ~~~ r.imm8) := by
  have hop : opOf w &&& 0xFF#8 = opOf w := BitVec.and_allOnes
  conv_lhs => rw [← encR_fields w]
  conv_rhs => rw [← hop]
  exact encR_and ..

theorem and_not_usedMask_eq_zero_iff {n : Nat} {used : Bool} {x : BitVec n} :
    x &&& ~~~ usedMask n used = 0 ↔ used = true ∨ x = 0 := by
  cases used <;> simp [usedMask]

/-- `w AND mask = match` says that the word has the row's opcode and zeros at the row's reserved bits. -/
theorem and_mask_eq_matchWord_iff {w : Cmd} {r : OpRow} :
    w &&& r.mask = r.matchWord ↔ r.code = opOf w ∧ r.reservedClear w = true := by
  rw [matchWord_eq_encR, eq_encR_iff, and_mask_eq_encR]
  simp only [opOf_encR, rdOf_encR, rs1Of_encR, rs2Of_encR, rs3Of_encR, imm8Of_encR, and_not_usedMask_eq_zero_iff,
    OpRow.reservedClear, Bool.and_eq_true, Bool.or_eq_true, beq_iff_eq, and_assoc, @eq_comm _ r.code]

/-- A word decodes exactly when it is a word of a row, with its reserved bits zero, from which the row builds a well-formed
command (rule R80). -/
theorem decode_eq_ok_iff {nmod : Nat} {w : Cmd} {i : Instr} :
    decode nmod w = .ok i ↔
      ∃ op, op.row.code = opOf w ∧ op.row.reservedClear w = true ∧ build op w = .ok i ∧ i.WellFormed nmod := by
  constructor
  · exact decode_ok_cases
  · rintro ⟨op, hc, hr, hb, hi⟩
    rw [decode_of_row hc hr, hb, Except.bind, checkRange, hi]

/-! The sub-fields of a word on its own bits (rule R72). -/

theorem low2Of_imm8Of (w : Cmd) : low2Of (imm8Of w) = w.extractLsb' 0 2 := by
  unfold low2Of imm8Of
  rw [BitVec.extractLsb'_extractLsb'_of_le (by decide)]

theorem stgOf_imm8Of (w : Cmd) : stgOf (imm8Of w) = w.extractLsb' 4 3 := by
  unfold stgOf imm8Of
  rw [BitVec.extractLsb'_extractLsb'_of_le (by decide)]

theorem low6Of_imm8Of (w : Cmd) : low6Of (imm8Of w) = w.extractLsb' 0 6 := by
  unfold low6Of imm8Of
  rw [BitVec.extractLsb'_extractLsb'_of_le (by decide)]

/-! The codes that each check of rule R76 admits. -/

theorem exists_envSel_code_iff {c : BitVec 2} : (∃ u : EnvSel, EnvSel.ofCode c = .ok u) ↔ c.toNat < 2 := by
  simp only [envSel_ofCode_eq_ok_iff]
  constructor
  · rintro ⟨u, rfl⟩
    cases u <;> decide
  · intro h
    have : c = 0 ∨ c = 1 := by revert c; decide
    rcases this with rfl | rfl
    · exact ⟨.vol, rfl⟩
    · exact ⟨.menv, rfl⟩

theorem exists_lfoSel_code_iff {c : BitVec 2} : (∃ u : LfoSel, LfoSel.ofCode c = .ok u) ↔ c.toNat < 2 := by
  simp only [lfoSel_ofCode_eq_ok_iff]
  constructor
  · rintro ⟨u, rfl⟩
    cases u <;> decide
  · intro h
    have : c = 0 ∨ c = 1 := by revert c; decide
    rcases this with rfl | rfl
    · exact ⟨.vib, rfl⟩
    · exact ⟨.mlfo, rfl⟩

theorem exists_table_code_iff {c : BitVec 2} : (∃ t : Table, Table.ofCode c = .ok t) ↔ c.toNat ≠ 3 := by
  simp only [table_ofCode_eq_ok_iff]
  constructor
  · rintro ⟨t, rfl⟩
    cases t <;> decide
  · intro h
    have : c = 0 ∨ c = 1 ∨ c = 2 := by revert c; decide
    rcases this with rfl | rfl | rfl
    · exact ⟨.cb, rfl⟩
    · exact ⟨.k, rfl⟩
    · exact ⟨.e, rfl⟩

/-- The stage codes `ESETP` takes. -/
theorem exists_stage_code_ne_finished_iff {c : BitVec 3} :
    (∃ st : Stage, Stage.ofCode c = .ok st ∧ st ≠ .finished) ↔ c.toNat < 6 := by
  simp only [stage_ofCode_eq_ok_iff]
  constructor
  · rintro ⟨st, rfl, h⟩
    cases st with
    | finished => exact absurd rfl h
    | delay | attack | hold | decay | sustain | release => decide
  · intro h
    have : c = 0 ∨ c = 1 ∨ c = 2 ∨ c = 3 ∨ c = 4 ∨ c = 5 := by revert c; decide
    rcases this with rfl | rfl | rfl | rfl | rfl | rfl
    · exact ⟨.delay, rfl, nofun⟩
    · exact ⟨.attack, rfl, nofun⟩
    · exact ⟨.hold, rfl, nofun⟩
    · exact ⟨.decay, rfl, nofun⟩
    · exact ⟨.sustain, rfl, nofun⟩
    · exact ⟨.release, rfl, nofun⟩

/-- The stage codes `ESETKS` takes. -/
theorem exists_stage_code_hold_or_decay_iff {c : BitVec 3} :
    (∃ st : Stage, Stage.ofCode c = .ok st ∧ (st = .hold ∨ st = .decay)) ↔ c.toNat = 2 ∨ c.toNat = 3 := by
  simp only [stage_ofCode_eq_ok_iff]
  constructor
  · rintro ⟨st, rfl, rfl | rfl⟩
    · exact .inl rfl
    · exact .inr rfl
  · intro h
    have : c = 2 ∨ c = 3 := by revert c; decide
    rcases this with rfl | rfl
    · exact ⟨.hold, rfl, .inl rfl⟩
    · exact ⟨.decay, rfl, .inr rfl⟩

/-! The range check of each command that has one, as a condition on its operand. -/

theorem slotFault_eq_none_iff {nmod : Nat} {slot : BitVec 6} : slotFault nmod slot = none ↔ slot.toNat < nmod :=
  ⟨slot_lt_of_slotFault, fun h => if_pos h⟩

theorem esetp_wellFormed_iff (nmod : Nat) (u : EnvSel) (st : Stage) (r : Reg) :
    (Instr.esetp u st r).WellFormed nmod ↔ st ≠ .finished :=
  ⟨not_finished_of_wellFormed, fun h => if_neg h⟩

theorem esetks_wellFormed_iff (nmod : Nat) (u : EnvSel) (st : Stage) (r1 r2 r3 : Reg) :
    (Instr.esetks u st r1 r2 r3).WellFormed nmod ↔ st = .hold ∨ st = .decay :=
  ⟨hold_or_decay_of_wellFormed, fun h => if_pos h⟩

/-- What a checked sub-field gives, with no further check. -/
theorem exists_map_wellFormed_iff {α : Type} {f : α → Instr} {nmod : Nat} (hf : ∀ a, (f a).WellFormed nmod)
    (x : Except IllegalCause α) : (∃ i, x.map f = .ok i ∧ i.WellFormed nmod) ↔ ∃ a, x = .ok a := by
  cases x with
  | error c => simp [Except.map]
  | ok a => simpa [Except.map] using hf a

/-- What two checked sub-fields give, the second with a further check. -/
theorem exists_bind_map_wellFormed_iff {α β : Type} {f : α → β → Instr} {p : β → Prop} {nmod : Nat}
    (hf : ∀ a b, (f a b).WellFormed nmod ↔ p b) (x : Except IllegalCause α) (y : Except IllegalCause β) :
    (∃ i, (x.bind fun a => y.map (f a)) = .ok i ∧ i.WellFormed nmod) ↔
      (∃ a, x = .ok a) ∧ ∃ b, y = .ok b ∧ p b := by
  cases x with
  | error c => simp [Except.bind]
  | ok a =>
    cases y with
    | error c => simp [Except.bind, Except.map]
    | ok b => simp [Except.bind, Except.map, hf]

theorem exists_ok_wellFormed_iff {j : Instr} {nmod : Nat} :
    (∃ i, (Except.ok j : Except IllegalCause Instr) = .ok i ∧ i.WellFormed nmod) ↔ j.WellFormed nmod := by
  simp

/-- A row builds a well-formed command from a word exactly when the range checks hold on the word's bits (rule R76). -/
theorem exists_build_wellFormed_iff (nmod : Nat) (op : Opcode) (w : Cmd) :
    (∃ i, build op w = .ok i ∧ i.WellFormed nmod) ↔ RangeChecks nmod op w := by
  cases op with
  | esetp =>
    refine (exists_bind_map_wellFormed_iff (fun u st => esetp_wellFormed_iff nmod u st (rs1Of w)) _ _).trans ?_
    rw [exists_envSel_code_iff, exists_stage_code_ne_finished_iff, low2Of_imm8Of, stgOf_imm8Of]
    rfl
  | esetks =>
    refine (exists_bind_map_wellFormed_iff (fun u st => esetks_wellFormed_iff nmod u st _ _ _) _ _).trans ?_
    rw [exists_envSel_code_iff, exists_stage_code_hold_or_decay_iff, low2Of_imm8Of, stgOf_imm8Of]
    rfl
  | tblrd =>
    refine (exists_map_wellFormed_iff (fun _ => rfl) _).trans ?_
    rw [exists_table_code_iff, low2Of_imm8Of]
    rfl
  | eupd | erel | efin | eget | estg =>
    refine (exists_map_wellFormed_iff (fun _ => rfl) _).trans ?_
    rw [exists_envSel_code_iff, low2Of_imm8Of]
    rfl
  | lsetd | lsetf | lupd | lget =>
    refine (exists_map_wellFormed_iff (fun _ => rfl) _).trans ?_
    rw [exists_lfoSel_code_iff, low2Of_imm8Of]
    rfl
  | mcfg | mget | mmatch | mrdd =>
    refine exists_ok_wellFormed_iff.trans (slotFault_eq_none_iff.trans ?_)
    rw [low6Of_imm8Of]
    rfl
  | nop | cb2r | k2hz | tc2s | ac2hz | joinb | mupd | msum | rdacc | geff | rddirty | li | lif | mov | fadd | fsub
  | fmul | i2f | f2i | vinit =>
    exact exists_ok_wellFormed_iff.trans (iff_of_true rfl trivial)

/-- Settles O4: the row and its reserved bits by the mask, the rest by the range checks. -/
theorem legalWordsAreTheOpcodeMap : Obligations.LegalWordsAreTheOpcodeMap := by
  unfold Obligations.LegalWordsAreTheOpcodeMap
  intro nmod w
  simp only [and_mask_eq_matchWord_iff, ← exists_build_wellFormed_iff, decode_eq_ok_iff]
  constructor
  · rintro ⟨i, op, hc, hr, hi⟩
    exact ⟨op, opcode_mem_all op, ⟨hc, hr⟩, i, hi⟩
  · rintro ⟨op, -, ⟨hc, hr⟩, i, hi⟩
    exact ⟨i, op, hc, hr, hi⟩

/-- Settles O5: the decoder run on each word. -/
theorem sampleWordsDecode : Obligations.SampleWordsDecode := by
  unfold Obligations.SampleWordsDecode
  exact ⟨rfl, rfl, rfl, rfl, rfl, rfl, rfl, rfl, rfl, rfl, rfl, rfl, rfl, rfl, rfl, rfl⟩

/-! ### A term that fails a range check (log 14) -/

/-- Running such a term is raising IllegalCommand with its own word. -/
theorem exec_of_not_wellFormed {i : Instr} {s : State} (h : ¬ i.WellFormed s.params.nmod) :
    exec i s = .next (s.raiseIllegal (encode i)) := by
  cases i with
  | esetp | esetks | mcfg | mget | mmatch | mrdd => exact ifLegal_of_not_wellFormed h
  | nop | cb2r | k2hz | tc2s | ac2hz | joinb | tblrd | eupd | erel | efin | eget | estg | lsetd | lsetf | lupd | lget
  | mupd | msum | rdacc | geff | rddirty | li | lif | mov | fadd | fsub | fmul | i2f | f2i | vinit => exact absurd rfl h

/-- Settles O8: the exception sets `ILL`, captures the word and touches no other field. -/
theorem illFormedCommandsRaise : Obligations.IllFormedCommandsRaise := by
  unfold Obligations.IllFormedCommandsRaise
  intro i s h
  exact ⟨_, exec_of_not_wellFormed h, rfl, rfl, rfl, fun _ => rfl, sameEnvs_of_fields rfl rfl, sameLfos_of_fields rfl rfl,
    fun _ => rfl, ⟨fun _ => rfl, rfl⟩, rfl, ⟨rfl, rfl⟩⟩

end Sys2Proof

/-! PROOF. The conversion engines (41_conversion.md): the words of their commands, the order and the bounds of the ROM's words,
then each engine's result against its rule. -/

namespace Sys2Proof

/-! ### The words of register commands (30_encoding.md rules R70, R75) -/

theorem isWordOf_encode (i : Instr) : Machine.IsWordOf (encode i) i := fun nmod h => decodeOfEncode nmod i h

theorem encR_rs1_zeros (op : BitVec 8) (rd rs1 : Reg) : encR op rd rs1 0 0 0 = op ++ rd ++ rs1 ++ 0#16 := by
  unfold encR
  ext i hi
  simp only [BitVec.getElem_append]
  interval_cases i <;> simp

theorem encR_rs2_zeros (op : BitVec 8) (rd rs1 rs2 : Reg) :
    encR op rd rs1 rs2 0 0 = op ++ rd ++ rs1 ++ rs2 ++ 0#12 := by
  unfold encR
  ext i hi
  simp only [BitVec.getElem_append]
  interval_cases i <;> simp

theorem encR_low2_zeros (op : BitVec 8) (rd rs1 : Reg) (u : BitVec 2) :
    encR op rd rs1 0 0 (immLow2 u) = op ++ rd ++ rs1 ++ 0#14 ++ u := by
  unfold encR immLow2
  ext i hi
  simp only [BitVec.getElem_append]
  interval_cases i <;> simp

end Sys2Proof

namespace Sys2Proof.Machine

/-! ### The commands as register writes (rules R91, R93, R96, R97, R98, R100) -/

theorem exec_cb2r (rd rs1 : Reg) (s : State) :
    exec (.cb2r rd rs1) s = .next (s.setReg rd (sat64 (centibelToRatio (s.regInt rs1)))) := rfl

theorem exec_k2hz (rd rs1 : Reg) (s : State) :
    exec (.k2hz rd rs1) s = .next (s.setReg rd (sat64 (keyToHeltz s.params.kbands (s.regInt rs1)))) := rfl

theorem exec_tc2s (rd rs1 : Reg) (s : State) :
    exec (.tc2s rd rs1) s = .next (s.setReg rd (sat64 (exp2c (s.regInt rs1) oneFx))) := rfl

theorem exec_ac2hz (rd rs1 : Reg) (s : State) :
    exec (.ac2hz rd rs1) s = .next (s.setReg rd (sat64 (exp2c (s.regInt rs1) k8176))) := rfl

theorem exec_joinb (rd rs1 rs2 : Reg) (s : State) :
    exec (.joinb rd rs1 rs2) s = .next (s.setReg rd (joinBytes (s.reg rs1) (s.reg rs2))) := rfl

theorem exec_tblrd (rd rs1 : Reg) (tb : Table) (s : State) :
    exec (.tblrd rd rs1 tb) s = .next (s.setReg rd (tableRead tb (s.regInt rs1))) := rfl

/-- A command that answers the state with one register written meets its claim at that value. -/
theorem exists_next_writesReg {i : Instr} {s : State} {rd : Reg} {v : Word} (h : exec i s = .next (s.setReg rd v)) :
    ∃ t, exec i s = .next t ∧ WritesReg rd v s t :=
  ⟨_, h, writesReg_setReg s rd v⟩

/-! ### Saturation (00_scope.md rule R8) -/

theorem sat64_of_range {v : Int} (h : minFx ≤ v) (h' : v ≤ maxFx) : sat64 v = BitVec.ofInt 64 v := by
  unfold sat64
  rw [satInt_of_range h h']

/-- Saturating twice is saturating once. -/
theorem sat64_satInt (v : Int) : sat64 (satInt v) = sat64 v := by
  obtain ⟨hlo, hhi⟩ := satInt_range v
  exact sat64_of_range hlo hhi

/-! ### The words of the ROM (49_rom_tables.md rules R230 to R232) -/

theorem tCb_length : tCb.length = 1441 := by decide +kernel

theorem tCb_isChain : tCb.IsChain (· ≥ ·) := by decide +kernel

theorem tK_word_lt : ∀ w ∈ tK, w < 2 ^ 36 := by decide +kernel

/-- No word of `T_CB` is greater than one before it; past the table's end the words read 0. -/
theorem rom_cb_antitone {i j : Nat} (h : i ≤ j) : rom .cb j ≤ rom .cb i := by
  change tCb.getD j 0 ≤ tCb.getD i 0
  rcases Nat.lt_or_ge j tCb.length with hj | hj
  · rw [List.getD_eq_getElem _ _ hj, List.getD_eq_getElem _ _ (h.trans_lt hj)]
    rcases h.eq_or_lt with rfl | hlt
    · exact le_rfl
    · exact List.pairwise_iff_getElem.1 tCb_isChain.pairwise i j _ hj hlt
  · rw [List.getD_eq_default _ _ hj]
    exact Nat.zero_le _

theorem rom_cb_zero : (rom .cb 0 : Int) = oneFx := rfl

theorem rom_cb_of_ge {i : Nat} (h : 1441 ≤ i) : rom .cb i = 0 :=
  List.getD_eq_default _ _ (tCb_length.trans_le h)

theorem rom_k_lt (i : Nat) : rom .k i < 2 ^ 36 := by
  change tK.getD i 0 < _
  rcases Nat.lt_or_ge i tK.length with hi | hi
  · rw [List.getD_eq_getElem _ _ hi]
    exact tK_word_lt _ (List.getElem_mem hi)
  · rw [List.getD_eq_default _ _ hi]
    norm_num

/-! ### CB2R (41_conversion.md rule R91) -/

/-- The two bounds of rule R91 agree with the table: its word 0 is `ONE`, and past its end it reads 0. -/
theorem centibelToRatio_eq_rom (x : Int) : centibelToRatio x = rom .cb (x / 4294967296).toNat := by
  unfold centibelToRatio fxOfInt
  rw [shl_32, shr_32]
  split
  · next hneg =>
    have hzero : (x / 4294967296).toNat = 0 := by omega
    rw [hzero, rom_cb_zero]
  · split
    · next htop => rw [rom_cb_of_ge (by omega), Nat.cast_zero]
    · rfl

theorem centibelToRatio_antitone {x y : Int} (h : x ≤ y) : centibelToRatio y ≤ centibelToRatio x := by
  rw [centibelToRatio_eq_rom, centibelToRatio_eq_rom]
  exact Nat.cast_le.2 (rom_cb_antitone (by omega))

theorem centibelToRatio_range (x : Int) : 0 ≤ centibelToRatio x ∧ centibelToRatio x ≤ oneFx := by
  rw [centibelToRatio_eq_rom, ← rom_cb_zero]
  exact ⟨Nat.cast_nonneg _, Nat.cast_le.2 (rom_cb_antitone (Nat.zero_le _))⟩

/-- Settles O27: the ratio is a word of a table that never rises and starts at `ONE`. -/
theorem cb2rIsAntitone : Obligations.CB2RIsAntitone := by
  unfold Obligations.CB2RIsAntitone
  intro x y h
  exact ⟨centibelToRatio_antitone h, (centibelToRatio_range y).1, (centibelToRatio_range x).2⟩

/-- The ratio is written as it is. -/
theorem sat64_centibelToRatio (x : Int) : sat64 (centibelToRatio x) = BitVec.ofInt 64 (centibelToRatio x) := by
  obtain ⟨hlo, hhi⟩ := centibelToRatio_range x
  simp only [oneFx] at hhi
  exact sat64_of_range (by simp only [minFx]; omega) (by simp only [maxFx]; omega)

/-- Settles O26: the engine's three cases are the rule's, and saturation does not act on them. -/
theorem cb2rLooksUpTheRatio : Obligations.CB2RLooksUpTheRatio := by
  unfold Obligations.CB2RLooksUpTheRatio
  intro rd rs1 s
  refine ⟨encR_rs1_zeros 0x01 rd rs1 ▸ isWordOf_encode (.cb2r rd rs1), exists_next_writesReg ?_⟩
  rw [exec_cb2r, sat64_centibelToRatio, centibelToRatio, fxOfInt, shl_32, shr_32]
  rfl

/-! ### K2HZ (rules R92, R93) -/

theorem keyToHeltz_of_neg {x : Int} (h : x < 0) (kbands : Nat) : keyToHeltz kbands x = oneFx := if_pos h

/-- A key that is not negative converts by its band and its index. -/
theorem keyToHeltz_of_nonneg {x : Int} (h : 0 ≤ x) (kbands : Nat) :
    keyToHeltz kbands x =
      if kbands ≤ (keyBand (keyCents x)).toNat then oneFx
      else (rom .k (keyIndex (keyCents x)).toNat : Int) * 2 ^ (keyBand (keyCents x)).toNat := by
  have hband := keyBand_nonneg (keyCents x)
  have htop : (kbands : Int) ≤ keyBand (keyCents x) ↔ kbands ≤ (keyBand (keyCents x)).toNat := by omega
  unfold keyToHeltz shl
  rw [if_neg (by omega)]
  simp only [htop, Nat.cast_pow, Nat.cast_ofNat]

theorem keyCents_nonneg {x : Int} (h : 0 ≤ x) : 0 ≤ keyCents x := by rw [keyCents_eq]; omega

/-- Whole cents are the floor of a hundredth of the key. -/
theorem keyCents_floor (x : Int) : keyCents x * 4294967296 ≤ x * 100 ∧ x * 100 < (keyCents x + 1) * 4294967296 := by
  rw [keyCents_eq]; omega

/-- Settles O28: the band and the index of rule R92 are the fold of the whole cents. -/
theorem k2hzFoldsIntoBands : Obligations.K2HZFoldsIntoBands := by
  unfold Obligations.K2HZFoldsIntoBands
  intro rd rs1 s
  refine ⟨encR_rs1_zeros 0x02 rd rs1 ▸ isWordOf_encode (.k2hz rd rs1), _, _, exec_k2hz rd rs1 s,
    writesReg_setReg _ _ _, ?_⟩
  split
  · next hneg => exact keyToHeltz_of_neg hneg _
  · next hneg =>
    have hx : 0 ≤ s.regInt rs1 := by omega
    have hband := keyBand_nonneg (keyCents (s.regInt rs1))
    obtain ⟨hindex, hindex'⟩ := keyIndex_range (keyCents_nonneg hx)
    obtain ⟨hfloor, hfloor'⟩ := keyCents_floor (s.regInt rs1)
    have hfold : keyIndex (keyCents (s.regInt rs1)) =
        keyCents (s.regInt rs1) + 300 - 1200 * keyBand (keyCents (s.regInt rs1)) := rfl
    exact ⟨keyCents (s.regInt rs1), (keyBand (keyCents (s.regInt rs1))).toNat, (keyIndex (keyCents (s.regInt rs1))).toNat,
      hfloor, hfloor', by omega, by omega, keyToHeltz_of_nonneg hx _⟩

theorem keyCents_octave (x : Int) : keyCents (x + 12 * 4294967296) = keyCents x + 1200 := by
  rw [keyCents_eq, keyCents_eq]; omega

theorem keyBand_octave {c : Int} (h : 0 ≤ c) : keyBand (c + 1200) = keyBand c + 1 := by
  unfold keyBand
  rw [if_neg (by omega)]
  split <;> omega

theorem keyIndex_octave {c : Int} (h : 0 ≤ c) : keyIndex (c + 1200) = keyIndex c := by
  unfold keyIndex
  rw [keyBand_octave h]
  omega

/-- With the legal number of bands a frequency is at most 2^56, so it is written as it is. -/
theorem toInt_sat64_keyToHeltz {kbands : Nat} (hk : kbands ≤ 20) (x : Int) :
    (sat64 (keyToHeltz kbands x)).toInt = keyToHeltz kbands x := by
  have hrange : 0 ≤ keyToHeltz kbands x ∧ keyToHeltz kbands x ≤ 2 ^ 36 * 2 ^ 20 := by
    rcases lt_or_ge x 0 with hx | hx
    · rw [keyToHeltz_of_neg hx]
      norm_num
    · rw [keyToHeltz_of_nonneg hx]
      split
      · norm_num
      · next hband =>
        refine ⟨by positivity, ?_⟩
        have hpow : 2 ^ (keyBand (keyCents x)).toNat ≤ 2 ^ 20 := Nat.pow_le_pow_right (by norm_num) (by omega)
        exact_mod_cast Nat.mul_le_mul (rom_k_lt _).le hpow
  apply toInt_sat64_of_range <;> simp only [minFx, maxFx] <;> omega

/-- Settles O29: an octave up is the next band at the same index. -/
theorem k2hzDoublesPerOctave : Obligations.K2HZDoublesPerOctave := by
  unfold Obligations.K2HZDoublesPerOctave
  intro kbands x hk hx htop
  refine ⟨?_, toInt_sat64_keyToHeltz hk _, toInt_sat64_keyToHeltz hk _⟩
  have hc := keyCents_nonneg hx
  have hband := keyBand_nonneg (keyCents x)
  rw [keyCents_octave, keyBand_octave hc] at htop
  have hnext : (keyBand (keyCents x) + 1).toNat = (keyBand (keyCents x)).toNat + 1 := by omega
  rw [keyToHeltz_of_nonneg (by omega), keyToHeltz_of_nonneg hx, keyCents_octave, keyBand_octave hc, keyIndex_octave hc,
    hnext, if_neg (by omega), if_neg (by omega), pow_succ]
  ring

/-! ### TC2S and AC2HZ (rules R94, R96, R97) -/

/-- `exp2c` before saturation, in the two cases of rule R94. -/
def expRounded (x scale : Int) : Int :=
  if expShift x ≤ 0 then shl (expProduct x scale) (-expShift x).toNat
  else shr (expProduct x scale + shl 1 (expShift x - 1).toNat) (expShift x).toNat

theorem exp2c_eq_satInt (x scale : Int) : exp2c x scale = satInt (expRounded x scale) := by
  unfold exp2c expRounded
  split <;> rfl

/-- Shifting left by `k` is multiplying by `2^k`, which leaves nothing to round. -/
theorem floor_mul_two_pow (n : Int) (k : Nat) : ⌊(n : ℚ) * 2 ^ (k : Int) + 1 / 2⌋ = shl n k := by
  have hint : (n : ℚ) * 2 ^ (k : Int) = ((shl n k : Int) : ℚ) := by
    unfold shl
    push_cast
    rw [zpow_natCast]
  rw [hint, Int.floor_intCast_add]
  norm_num

/-- Adding half of `2^(k+1)` and shifting right by `k + 1` rounds the quotient to nearest, ties upward. -/
theorem floor_div_two_pow (n : Int) (k : Nat) :
    ⌊(n : ℚ) * 2 ^ (-((k + 1 : Nat) : Int)) + 1 / 2⌋ = shr (n + shl 1 k) (k + 1) := by
  have hquot : (n : ℚ) * 2 ^ (-((k + 1 : Nat) : Int)) + 1 / 2 = ((n + shl 1 k : Int) : ℚ) / ((2 ^ (k + 1) : Nat) : ℚ) := by
    rw [zpow_neg, zpow_natCast, pow_succ, pow_succ]
    unfold shl
    push_cast
    field_simp
  rw [hquot, Rat.floor_intCast_div_natCast]
  rfl

/-- The product of rule R94 with its polynomial written out, times the power of two that rule R94 shifts by, rounded. -/
theorem expTarget_eq_floor (x scale : Int) :
    expTarget x scale = ⌊((expProduct x scale : Int) : ℚ) * 2 ^ (-expShift x) + 1 / 2⌋ := by
  have hpow : -expShift x = x / 4294967296 / 1200 - 126 := by
    unfold expShift
    rw [shr_32]
    omega
  rw [hpow]
  unfold expTarget expProduct expPoly expFraction aLn
  simp only [shr_32]
  rfl

/-- Both cases of rule R94 are the one rational rounding. -/
theorem expRounded_eq_expTarget (x scale : Int) : expRounded x scale = expTarget x scale := by
  rw [expTarget_eq_floor]
  unfold expRounded
  split
  · next hs =>
    have hk : -expShift x = ((-expShift x).toNat : Int) := by omega
    rw [hk, floor_mul_two_pow, Int.toNat_natCast]
  · next hs =>
    have hk : expShift x = (((expShift x - 1).toNat + 1 : Nat) : Int) := by omega
    have hk' : (expShift x).toNat = (expShift x - 1).toNat + 1 := by omega
    rw [hk', ← floor_div_two_pow, ← hk]

/-- What an exponential engine writes is the rounded product, saturated once. -/
theorem sat64_exp2c (x scale : Int) : sat64 (exp2c x scale) = sat64 (expTarget x scale) := by
  rw [exp2c_eq_satInt, sat64_satInt, expRounded_eq_expTarget]

/-- Settles O30: both commands run the engine, each with its own scale. -/
theorem exponentialEnginesRoundOnce : Obligations.ExponentialEnginesRoundOnce := by
  unfold Obligations.ExponentialEnginesRoundOnce
  intro rd rs1 s
  refine ⟨⟨encR_rs1_zeros 0x03 rd rs1 ▸ isWordOf_encode (.tc2s rd rs1), exists_next_writesReg ?_⟩,
    encR_rs1_zeros 0x04 rd rs1 ▸ isWordOf_encode (.ac2hz rd rs1), exists_next_writesReg ?_⟩
  · rw [exec_tc2s, sat64_exp2c]
  · rw [exec_ac2hz, sat64_exp2c]
    rfl

/-! ### JOINB and TBLRD (rules R98, R100) -/

theorem low7_toNat (v : Word) : ((low7 v).toNat : Int) = v.toInt % 128 := by
  unfold low7
  rw [BitVec.extractLsb'_toNat, BitVec.toInt_eq_toNat_bmod]
  simp only [Int.bmod_def]
  omega

/-- Two 7-bit halves make a 14-bit number; no carry leaves the low half. -/
theorem joinBytes_eq (msb lsb : Word) :
    joinBytes msb lsb = BitVec.ofInt 64 (msb.toInt % 128 * 128 + lsb.toInt % 128) := by
  have hm := (low7 msb).isLt
  have hl := (low7 lsb).isLt
  have hnat : joinBytes msb lsb = BitVec.ofNat 64 ((low7 msb).toNat * 128 + (low7 lsb).toNat) := by
    apply BitVec.eq_of_toNat_eq
    simp only [joinBytes, BitVec.toNat_add, BitVec.toNat_shiftLeft, BitVec.toNat_setWidth, BitVec.toNat_ofNat,
      Nat.shiftLeft_eq]
    omega
  rw [hnat, ← low7_toNat, ← low7_toNat, ← BitVec.ofInt_natCast]
  push_cast
  rfl

/-- Settles O31, one command after the other; the index range of `TBLRD` is the table's length. -/
theorem joinbAndTblrdResults : Obligations.JoinbAndTblrdResults := by
  unfold Obligations.JoinbAndTblrdResults
  constructor
  · intro rd rs1 rs2 s
    refine ⟨encR_rs2_zeros 0x05 rd rs1 rs2 ▸ isWordOf_encode (.joinb rd rs1 rs2), exists_next_writesReg ?_⟩
    rw [exec_joinb, joinBytes_eq]
    rfl
  · intro rd rs1 tb s
    refine ⟨encR_low2_zeros 0x06 rd rs1 tb.code ▸ isWordOf_encode (.tblrd rd rs1 tb), exists_next_writesReg ?_⟩
    rw [exec_tblrd]
    cases tb <;> rfl

end Sys2Proof.Machine

/-! PROOF. The envelope units (42_envelope.md): the words of their commands, what each command writes, the loop of rule R125
over a split time, and the value of a unit across a release. -/

namespace Sys2Proof

/-! ### The words of unit commands (30_encoding.md rules R70, R72, R75) -/

theorem encR_stage (op : BitVec 8) (rs1 rs2 rs3 : Reg) (stg : BitVec 3) (u : BitVec 2) :
    encR op 0 rs1 rs2 rs3 (immStage stg u) = op ++ 0#4 ++ rs1 ++ rs2 ++ rs3 ++ 0#1 ++ stg ++ 0#2 ++ u := by
  unfold encR immStage
  ext i hi
  simp only [BitVec.getElem_append]
  interval_cases i <;> simp

theorem encR_rs1_stage (op : BitVec 8) (rs1 : Reg) (stg : BitVec 3) (u : BitVec 2) :
    encR op 0 rs1 0 0 (immStage stg u) = op ++ 0#4 ++ rs1 ++ 0#9 ++ stg ++ 0#2 ++ u := by
  unfold encR immStage
  ext i hi
  simp only [BitVec.getElem_append]
  interval_cases i <;> simp

theorem encR_rd_low2 (op : BitVec 8) (rd : Reg) (u : BitVec 2) :
    encR op rd 0 0 0 (immLow2 u) = op ++ rd ++ 0#18 ++ u := by
  unfold encR immLow2
  ext i hi
  simp only [BitVec.getElem_append]
  interval_cases i <;> simp

theorem encR_only_low2 (op : BitVec 8) (u : BitVec 2) : encR op 0 0 0 0 (immLow2 u) = op ++ 0#22 ++ u := by
  unfold encR immLow2
  ext i hi
  simp only [BitVec.getElem_append]
  interval_cases i <;> simp

end Sys2Proof

namespace Sys2Proof.Machine

/-! ### The commands as writes of a unit or a register (rules R122, R124, R126, R128, R130, R132, R134) -/

theorem exec_esetp {u : EnvSel} {stg : Stage} (h : stg ≠ .finished) (rs1 : Reg) (s : State) :
    exec (.esetp u stg rs1) s = .next (s.setEnv u ((s.env u).setParam stg (s.regInt rs1))) :=
  ifLegal_of_wellFormed ((esetp_wellFormed_iff _ u stg rs1).2 h)

theorem exec_esetks {u : EnvSel} {stg : Stage} (h : stg = .hold ∨ stg = .decay) (rs1 rs2 rs3 : Reg) (s : State) :
    exec (.esetks u stg rs1 rs2 rs3) s =
      .next (s.setEnv u ((s.env u).setDur (sat64 (kstime (s.regInt rs1) (s.regInt rs2) (s.regInt rs3))) stg)) :=
  ifLegal_of_wellFormed ((esetks_wellFormed_iff _ u stg rs1 rs2 rs3).2 h)

theorem exec_eupd (u : EnvSel) (rs1 : Reg) (s : State) :
    exec (.eupd u rs1) s = .next (s.setEnv u ((s.env u).update (s.regInt rs1))) := rfl

theorem exec_erel (u : EnvSel) (s : State) : exec (.erel u) s = .next (s.setEnv u (s.env u).doRelease) := rfl

theorem exec_efin (u : EnvSel) (s : State) : exec (.efin u) s = .next (s.setEnv u (s.env u).finish) := rfl

theorem exec_eget (rd : Reg) (u : EnvSel) (s : State) :
    exec (.eget rd u) s = .next (s.setReg rd (sat64 (s.env u).eval)) := rfl

theorem exec_estg (rd : Reg) (u : EnvSel) (s : State) :
    exec (.estg rd u) s = .next (s.setReg rd ((s.env u).stg.code.setWidth 64)) := rfl

/-- A command that answers the state with one envelope unit written meets its claim at that unit. -/
theorem exists_next_writesEnv {i : Instr} {s : State} {u : EnvSel} {e : Envelope} (h : exec i s = .next (s.setEnv u e)) :
    ∃ t, exec i s = .next t ∧ WritesEnv u e s t :=
  ⟨_, h, writesEnv_setEnv s u e⟩

/-- The same, with what the claim says of the unit. -/
theorem exists_next_writesEnv_and {i : Instr} {s : State} {u : EnvSel} {e : Envelope} {P : Envelope → Prop}
    (h : exec i s = .next (s.setEnv u e)) (he : P e) : ∃ t e', exec i s = .next t ∧ WritesEnv u e' s t ∧ P e' :=
  ⟨_, e, h, writesEnv_setEnv s u e, he⟩

/-! ### Writes of a unit, one after another -/

@[simp] theorem setEnv_setEnv (s : State) (u : EnvSel) (e e' : Envelope) : (s.setEnv u e).setEnv u e' = s.setEnv u e' := by
  cases u <;> rfl

@[simp] theorem regInt_setEnv (s : State) (u : EnvSel) (e : Envelope) (r : Reg) : (s.setEnv u e).regInt r = s.regInt r := by
  cases u <;> rfl

theorem setEnv_injective {s : State} {u : EnvSel} {e e' : Envelope} (h : s.setEnv u e = s.setEnv u e') : e = e' := by
  rw [← env_setEnv_same s u e, h, env_setEnv_same]

/-! ### Parameters (rules R122 to R124) -/

theorem setsDuration_setDur (e : Envelope) (v : Word) {stg : Stage} (h : stg ≠ .sustain ∧ stg ≠ .finished) :
    SetsDuration stg v e (e.setDur v stg) :=
  ⟨(dur_setDur e v h stg).trans (if_pos rfl), fun x hx => (dur_setDur e v h x).trans (if_neg hx), setDur_stg .., setDur_t ..,
    setDur_sus .., setDur_rstart ..⟩

theorem toInt_range (v : Word) : minFx ≤ v.toInt ∧ v.toInt ≤ maxFx := by
  rw [← sat64_toInt v, toInt_sat64]
  exact satInt_range _

/-- A register's value that is read as 0 when negative is written as it is. -/
theorem sat64_max_zero (v : Word) : sat64 (max v.toInt 0) = BitVec.ofInt 64 (max v.toInt 0) := by
  obtain ⟨-, hmax⟩ := toInt_range v
  exact sat64_of_range (le_max_of_le_right (by decide)) (max_le hmax (by decide))

/-- A level of `[0, ONE]` is written as it is. -/
theorem sat64_clamp_fraction (v : Int) : sat64 (clamp v 0 oneFx) = BitVec.ofInt 64 (clamp v 0 oneFx) := by
  obtain ⟨hlo, hhi⟩ := clamp_fraction v
  exact sat64_of_range (le_trans (by decide) hlo) (le_trans hhi (by decide))

/-- Settles O33: Sustain is the one stage whose parameter is a level; every other stage has a duration. -/
theorem esetpSetsOneParameter : Obligations.EsetpSetsOneParameter := by
  unfold Obligations.EsetpSetsOneParameter
  intro u stg rs1 s hstg
  refine ⟨encR_rs1_stage 0x10 rs1 stg.code u.code ▸ isWordOf_encode (.esetp u stg rs1),
    exists_next_writesEnv_and (exec_esetp hstg rs1 s) ?_⟩
  unfold Envelope.setParam
  split
  · rw [sat64_clamp_fraction]
    rfl
  · next hsus =>
    unfold State.regInt
    rw [sat64_max_zero]
    exact setsDuration_setDur _ _ ⟨hsus, hstg⟩

/-- Rule R123 with its fixed-point operations written out. -/
theorem sat64_kstime (tc coef key : Int) :
    sat64 (kstime tc coef key) =
      sat64 (expTarget (satInt (tc + satInt (coef * satInt (60 * 4294967296 - key) / 4294967296))) 4294967296) := by
  unfold kstime
  rw [sat64_exp2c, fadd, fmul, fsub, fxOfInt, shl_32, shr_32]

/-- Settles O34: the stage has a duration, and what is written to it is the key-scaled time. -/
theorem esetksScalesByKey : Obligations.EsetksScalesByKey := by
  unfold Obligations.EsetksScalesByKey
  intro u stg rs1 rs2 rs3 s hstg
  refine ⟨encR_stage 0x11 rs1 rs2 rs3 stg.code u.code ▸ isWordOf_encode (.esetks u stg rs1 rs2 rs3),
    exists_next_writesEnv_and (exec_esetks hstg rs1 rs2 rs3 s) ?_⟩
  have hdur : stg ≠ .sustain ∧ stg ≠ .finished := by rcases hstg with rfl | rfl <;> decide
  rw [sat64_kstime]
  exact setsDuration_setDur _ _ hdur

/-! ### Time (rules R125 to R127) -/

/-- The unit after `dt` more in its stage, before the loop of rule R125. -/
def Envelope.elapse (e : Envelope) (dt : Int) : Envelope := { e with t := sat64 (e.t.toInt + dt) }

theorem update_of_not_ticking {e : Envelope} {dt : Int} (h : dt ≤ 0 ∨ e.stg = .sustain ∨ e.stg = .finished) :
    e.update dt = e := if_pos h

/-- A positive tick of a timed stage runs the loop after the time has grown. -/
theorem update_whileAdvances {e : Envelope} {dt : Int} (h : ¬ (dt ≤ 0 ∨ e.stg = .sustain ∨ e.stg = .finished)) :
    WhileAdvances (e.elapse dt) (e.update dt) := by
  unfold Envelope.update
  rw [if_neg h]
  exact advance_whileAdvances e dt

/-- Settles O35: the bounded loop of the machine is the loop of the rule (`advance_whileAdvances`). -/
theorem eupdRunsTheLoop : Obligations.EupdRunsTheLoop := by
  unfold Obligations.EupdRunsTheLoop
  intro u rs1 s
  refine ⟨encR_low2_zeros 0x12 0 rs1 u.code ▸ isWordOf_encode (.eupd u rs1),
    exists_next_writesEnv_and (exec_eupd u rs1 s) ?_⟩
  split
  · next h => exact update_of_not_ticking h
  · next h => exact update_whileAdvances h

theorem toInt_elapse {e : Envelope} {dt : Int} (h : minFx ≤ e.t.toInt + dt) (h' : e.t.toInt + dt ≤ maxFx) :
    (e.elapse dt).t.toInt = e.t.toInt + dt := toInt_sat64_of_range h h'

@[simp] theorem dur_elapse (e : Envelope) (dt : Int) (stg : Stage) : (e.elapse dt).dur stg = e.dur stg := by
  cases stg <;> rfl

/-- Time that grows twice grows once by the sum, where the first growth does not saturate. -/
theorem elapse_elapse {e : Envelope} {a : Int} (h : minFx ≤ e.t.toInt + a) (h' : e.t.toInt + a ≤ maxFx) (b : Int) :
    (e.elapse a).elapse b = e.elapse (a + b) := by
  rw [Envelope.elapse, toInt_elapse h h', add_assoc]
  rfl

/-- The unit in its next stage `n`, with the excess over the stage it leaves, as the `turn` of `WhileAdvances` says it. -/
def Envelope.carry (e : Envelope) (n : Stage) : Envelope :=
  { e with t := sat64 (e.t.toInt - (e.dur e.stg).toInt), stg := n }

theorem dur_carry (e : Envelope) (n stg : Stage) : (e.carry n).dur stg = e.dur stg := by
  cases stg <;> rfl

theorem toInt_carry {e : Envelope} (hstage : 0 ≤ (e.dur e.stg).toInt) (hd : (e.dur e.stg).toInt ≤ e.t.toInt) (n : Stage) :
    (e.carry n).t.toInt = e.t.toInt - (e.dur e.stg).toInt := by
  obtain ⟨-, hmax⟩ := toInt_range e.t
  exact toInt_sat64_of_range (by simp only [minFx]; omega) (by omega)

/-- With more time in the stage it leaves, a unit carries that much more into the next one. -/
theorem carry_elapse {e : Envelope} {b : Int} (hstage : 0 ≤ (e.dur e.stg).toInt) (hd : (e.dur e.stg).toInt ≤ e.t.toInt)
    (h : minFx ≤ e.t.toInt + b) (h' : e.t.toInt + b ≤ maxFx) (n : Stage) :
    (e.elapse b).carry n = (e.carry n).elapse b := by
  have htime : (e.elapse b).t.toInt - ((e.elapse b).dur e.stg).toInt = (e.carry n).t.toInt + b := by
    rw [dur_elapse, toInt_elapse h h', toInt_carry hstage hd, add_sub_right_comm]
  exact congrArg (fun v => { e with t := sat64 v, stg := n }) htime

/-- The loop may run before `b` is added to the time of a timed stage as well as after: a stage that the loop leaves early has
elapsed with the greater time too, and the excess it carries grows by `b`. -/
theorem WhileAdvances.elapse_update {e e' : Envelope} (h : WhileAdvances e e') {b : Int} (hb : 0 < b)
    (htimed : stageTimed e.stg = true) (ht : 0 ≤ e.t.toInt) (hdur : ∀ stg, 0 ≤ (e.dur stg).toInt)
    (hmax : e.t.toInt + b ≤ maxFx) : WhileAdvances (e.elapse b) (e'.update b) := by
  have hgrown {x : Envelope} (hx : 0 ≤ x.t.toInt) : minFx ≤ x.t.toInt + b := by simp only [minFx]; omega
  have helapsed {x : Envelope} (hx : 0 ≤ x.t.toInt) (hxmax : x.t.toInt + b ≤ maxFx)
      (hd : (x.dur x.stg).toInt ≤ x.t.toInt) : ((x.elapse b).dur x.stg).toInt ≤ (x.elapse b).t.toInt := by
    rw [dur_elapse, toInt_elapse (hgrown hx) hxmax]
    omega
  induction h with
  | leave e _ =>
    obtain ⟨hsus, hfin⟩ := (timed_iff _).1 htimed
    exact update_whileAdvances (by simp [hsus, hfin, hb])
  | turn e e' n hn hd hm _ ih =>
    have hstage := hdur e.stg
    have hcarry : (e.carry n).t.toInt = e.t.toInt - (e.dur e.stg).toInt := toInt_carry hstage hd n
    have hrest : WhileAdvances ((e.carry n).elapse b) (e'.update b) :=
      ih ((timed_iff n).2 hm) (hcarry.symm ▸ by omega) (fun stg => dur_carry e n stg ▸ hdur stg) (hcarry.symm ▸ by omega)
    rw [← carry_elapse hstage hd (hgrown ht) hmax] at hrest
    exact .turn _ _ n hn (helapsed ht hmax hd) hm hrest
  | last e n hn hd hm =>
    rw [update_of_not_ticking (.inr hm)]
    exact .last _ n hn (helapsed ht hmax hd) hm

/-- Two ticks of a legal unit whose time stays below saturation are one. -/
theorem update_update {e : Envelope} (h : e.Ok) {a b : Int} (ha : 0 < a) (hb : 0 < b)
    (hmax : e.t.toInt + (a + b) ≤ maxFx) : (e.update a).update b = e.update (a + b) := by
  obtain ⟨ht, hdur, -⟩ := h
  by_cases hstop : e.stg = .sustain ∨ e.stg = .finished
  · rw [update_of_not_ticking (.inr hstop), update_of_not_ticking (.inr hstop), update_of_not_ticking (.inr hstop)]
  · have hticks {dt : Int} (hdt : 0 < dt) : ¬ (dt ≤ 0 ∨ e.stg = .sustain ∨ e.stg = .finished) := by
      rintro (h | h)
      · omega
      · exact hstop h
    have hlo : minFx ≤ e.t.toInt + a := by simp only [minFx]; omega
    have hhi : e.t.toInt + a ≤ maxFx := by omega
    have hta : (e.elapse a).t.toInt = e.t.toInt + a := toInt_elapse hlo hhi
    have hsplit : WhileAdvances ((e.elapse a).elapse b) ((e.update a).update b) :=
      (update_whileAdvances (hticks ha)).elapse_update hb ((timed_iff _).2 (not_or.1 hstop)) (by omega)
        (fun stg => dur_elapse e a stg ▸ hdur stg) (by omega)
    rw [elapse_elapse hlo hhi] at hsplit
    exact whileAdvances_unique hsplit (update_whileAdvances (hticks (by omega)))

/-- `EUPD` twice answers the state of one `EUPD` exactly if the unit is the same. -/
theorem eupd_splits_iff (s : State) (u : EnvSel) (ra rb rc : Reg) :
    (∃ t1 t2, exec (.eupd u ra) s = .next t1 ∧ exec (.eupd u rb) t1 = .next t2 ∧ exec (.eupd u rc) s = .next t2) ↔
      ((s.env u).update (s.regInt ra)).update (s.regInt rb) = (s.env u).update (s.regInt rc) := by
  have htwo : exec (.eupd u rb) (s.setEnv u ((s.env u).update (s.regInt ra))) =
      .next (s.setEnv u (((s.env u).update (s.regInt ra)).update (s.regInt rb))) := by
    rw [exec_eupd, env_setEnv_same, regInt_setEnv, setEnv_setEnv]
  constructor
  · rintro ⟨t1, t2, h1, h2, h3⟩
    cases h1
    cases h3
    exact setEnv_injective (Host.Outcome.next.inj (htwo.symm.trans h2))
  · intro h
    exact ⟨_, _, exec_eupd u ra s, htwo, h ▸ exec_eupd u rc s⟩

/-- Settles O40. -/
theorem ticksMaySplitBelowSaturation : Obligations.TicksMaySplitBelowSaturation := by
  unfold Obligations.TicksMaySplitBelowSaturation
  intro s u ra rb rc hok ha hb hc hmax
  rw [eupd_splits_iff, hc]
  exact update_update hok ha hb (hc ▸ hmax)

/-- The counterexample of log 15: a unit in Delay, 5 ulp below the greatest time and with that time as its duration. -/
def nearSaturation : Envelope :=
  { Envelope.reset with t := 0x7FFFFFFFFFFFFFFA, durDelay := 0x7FFFFFFFFFFFFFFF, durAttack := 100 }

/-- Reset with that unit and ticks of 10, 50 and 60 ulp in `f1`, `f2` and `f3`. -/
def splitCounterexample : State :=
  (((State.reset.setEnv .vol nearSaturation).setReg 1 10).setReg 2 50).setReg 3 60

theorem nearSaturation_ok : nearSaturation.Ok :=
  ⟨by decide, fun stg => by cases stg <;> decide, by decide, by decide, by decide, by decide, fun h => absurd h (by decide)⟩

theorem splitCounterexample_inv : splitCounterexample.Inv :=
  inv_setReg (inv_setReg (inv_setReg (inv_setEnv resetSatisfiesTheInvariant .vol nearSaturation_ok) 1 10) 2 50) 3 60

/-- The tick of 10 loses 5 ulp to saturation: two ticks leave Attack at 50 ulp, one tick leaves it at 0. -/
theorem nearSaturation_split : (nearSaturation.update 10).update 50 ≠ nearSaturation.update 60 := by decide

/-- Refutes O41: the first tick saturates the time of `splitCounterexample`. -/
theorem not_ticksMaySplitAsWorded : ¬ Obligations.TicksMaySplitAsWorded := by
  unfold Obligations.TicksMaySplitAsWorded
  intro h
  have hten : splitCounterexample.regInt 1 = 10 := by decide
  have hfifty : splitCounterexample.regInt 2 = 50 := by decide
  have hsixty : splitCounterexample.regInt 3 = 60 := by decide
  have hsplit := (eupd_splits_iff _ .vol 1 2 3).1
    (h splitCounterexample .vol 1 2 3 splitCounterexample_inv (by omega) (by omega) (by omega))
  rw [hten, hfifty, hsixty] at hsplit
  exact nearSaturation_split hsplit

/-! ### Release, finish and the value of a unit (rules R128 to R134) -/

/-- Settles O36. -/
theorem erelAndEfinEffects : Obligations.ErelAndEfinEffects := by
  unfold Obligations.ErelAndEfinEffects
  intro u s
  exact ⟨⟨encR_only_low2 0x13 u.code ▸ isWordOf_encode (.erel u), exists_next_writesEnv (exec_erel u s)⟩,
    encR_only_low2 0x14 u.code ▸ isWordOf_encode (.efin u), exists_next_writesEnv (exec_efin u s)⟩

/-- A ramp at its start: no progress has been made. -/
theorem prog_zero {d : Int} (h : 0 < d) : prog 0 d = 0 := by
  rw [prog_eq_progress, progress, if_neg (by omega), zero_mul, Int.zero_ediv]
  rfl

theorem fmul_zero (a : Int) : fmul a 0 = 0 := by
  rw [fmul, mul_zero, shr_32]
  rfl

/-- The value of a unit that enters Release is its release start. -/
theorem eval_enters_release (e : Envelope) (v : Word) (h : 0 < e.durRelease.toInt) :
    ({ e with rstart := v, stg := .release, t := 0 } : Envelope).eval = v.toInt := by
  change v.toInt - fmul v.toInt (prog 0 e.durRelease.toInt) = v.toInt
  rw [prog_zero h, fmul_zero, sub_zero]

/-- Settles O42: the value is a fraction, so the release start holds it exactly. -/
theorem releaseIsContinuous : Obligations.ReleaseIsContinuous := by
  unfold Obligations.ReleaseIsContinuous
  intro s t u hok hdur h
  rw [exec_erel] at h
  obtain rfl : s.setEnv u (s.env u).doRelease = t := by injection h
  rw [env_setEnv_same, Envelope.doRelease]
  split
  · rfl
  · obtain ⟨hlo, hhi⟩ := eval_range hok
    rw [eval_enters_release _ _ hdur, toInt_sat64_of_unit (le_trans (by decide) hlo) hhi]

/-- A fraction of a ramp, with the arithmetic of the progress and of the product written out. -/
theorem fmul_prog (a t d : Int) : fmul a (prog t d) = satInt (a * progress t d / 4294967296) := by
  rw [fmul, shr_32, prog_eq_progress]

/-- Settles O37, by the stage of the unit; the three ramps are the rule's. -/
theorem egetReturnsTheStageValue : Obligations.EgetReturnsTheStageValue := by
  unfold Obligations.EgetReturnsTheStageValue
  intro rd u s
  refine ⟨encR_rd_low2 0x15 rd u.code ▸ isWordOf_encode (.eget rd u), _, _, exec_eget rd u s, writesReg_setReg .., ?_⟩
  unfold Envelope.eval
  cases (s.env u).stg with
  | attack => exact prog_eq_progress ..
  | decay => exact congrArg (oneFx - ·) (fmul_prog ..)
  | release => exact congrArg ((s.env u).rstart.toInt - ·) (fmul_prog ..)
  | delay | hold | sustain | finished => rfl

/-- Settles O38, by the stage of the unit. -/
theorem estgReturnsTheStageCode : Obligations.EstgReturnsTheStageCode := by
  unfold Obligations.EstgReturnsTheStageCode
  intro rd u s
  refine ⟨encR_rd_low2 0x16 rd u.code ▸ isWordOf_encode (.estg rd u), exists_next_writesReg ?_⟩
  rw [exec_estg]
  cases (s.env u).stg <;> rfl

end Sys2Proof.Machine

/-! PROOF. The LFO units (43_lfo.md): the commands as writes of a unit or a register, the delay and the phase, the waveforms,
and what a step can do to a running unit. -/

namespace Sys2Proof.Machine

/-! ### The commands as writes of a unit or a register (rules R152, R154, R156, R158) -/

theorem exec_lsetd (u : LfoSel) (rs1 : Reg) (s : State) :
    exec (.lsetd u rs1) s = .next (s.setLfo u { s.lfo u with dly := sat64 (max (s.regInt rs1) 0) }) := rfl

theorem exec_lsetf (u : LfoSel) (rs1 : Reg) (s : State) :
    exec (.lsetf u rs1) s = .next (s.setLfo u { s.lfo u with frq := s.reg rs1 }) := rfl

theorem exec_lupd (u : LfoSel) (rs1 : Reg) (s : State) :
    exec (.lupd u rs1) s = .next (s.setLfo u ((s.lfo u).update (s.regInt rs1))) := rfl

theorem exec_lget (rd : Reg) (u : LfoSel) (s : State) :
    exec (.lget rd u) s = .next (s.setReg rd (sat64 ((s.lfo u).value s.params.shape))) := rfl

/-- A command that answers the state with one LFO unit written meets its claim at that unit. -/
theorem exists_next_writesLfo {i : Instr} {s : State} {u : LfoSel} {o : Lfo} (h : exec i s = .next (s.setLfo u o)) :
    ∃ t, exec i s = .next t ∧ WritesLfo u o s t :=
  ⟨_, h, writesLfo_setLfo s u o⟩

/-- Settles O43: a delay that is read as 0 when negative is written as it is. -/
theorem lsetdAndLsetfKeepThePhase : Obligations.LsetdAndLsetfKeepThePhase := by
  unfold Obligations.LsetdAndLsetfKeepThePhase
  intro u rs1 s
  refine ⟨⟨encR_low2_zeros 0x20 0 rs1 u.code ▸ isWordOf_encode (.lsetd u rs1), exists_next_writesLfo ?_⟩,
    encR_low2_zeros 0x21 0 rs1 u.code ▸ isWordOf_encode (.lsetf u rs1), exists_next_writesLfo (exec_lsetf u rs1 s)⟩
  rw [exec_lsetd, State.regInt, sat64_max_zero]

/-! ### Ticks (rule R156): the four cases of `update` -/

theorem Lfo.update_of_nonpos (o : Lfo) {dt : Int} (h : dt ≤ 0) : o.update dt = o := if_pos h

theorem Lfo.update_of_running {o : Lfo} {dt : Int} (h : ¬ dt ≤ 0) (hrun : o.run = true) :
    o.update dt = { o with ph := o.turn dt } := (if_neg h).trans (if_pos hrun)

theorem Lfo.update_of_delayed {o : Lfo} {dt : Int} (h : ¬ dt ≤ 0) (hrun : o.run = false) :
    o.update dt = o.updateDelayed dt := (if_neg h).trans (if_neg (ne_true_of_eq_false hrun))

theorem Lfo.update_of_counting {o : Lfo} {dt : Int} (h : ¬ dt ≤ 0) (hrun : o.run = false)
    (hd : satInt (o.td.toInt + dt) < o.dly.toInt) : o.update dt = { o with td := sat64 (o.td.toInt + dt) } :=
  (Lfo.update_of_delayed h hrun).trans (if_pos hd)

theorem Lfo.update_of_crossing {o : Lfo} {dt : Int} (h : ¬ dt ≤ 0) (hrun : o.run = false)
    (hd : ¬ satInt (o.td.toInt + dt) < o.dly.toInt) :
    o.update dt =
      { o with
        td := sat64 (o.td.toInt + dt)
        run := true
        ph := o.turn (satInt (o.td.toInt + dt) - o.dly.toInt) } :=
  (Lfo.update_of_delayed h hrun).trans (if_neg hd)

/-- A unit in its delay counts a positive tick, whether or not the delay elapses. -/
theorem toInt_td_update_of_delayed {o : Lfo} {dt : Int} (h : ¬ dt ≤ 0) (hrun : o.run = false) :
    (o.update dt).td.toInt = satInt (o.td.toInt + dt) := by
  by_cases hd : satInt (o.td.toInt + dt) < o.dly.toInt
  · rw [Lfo.update_of_counting h hrun hd, toInt_sat64]
  · rw [Lfo.update_of_crossing h hrun hd, toInt_sat64]

/-- A pattern grown by a positive amount can saturate only at the top. -/
theorem satInt_toInt_add_of_pos (v : Word) {dt : Int} (h : ¬ dt ≤ 0) :
    satInt (v.toInt + dt) = min (v.toInt + dt) maxFx := by
  obtain ⟨hmin, -⟩ := toInt_range v
  rw [satInt, clamp, max_eq_left (by omega)]

/-- Settles O44, by the cases of `update`: no time passes, a running unit, a unit that stays in its delay, and a unit whose
delay elapses. -/
theorem lupdCountsThenTurns : Obligations.LupdCountsThenTurns := by
  unfold Obligations.LupdCountsThenTurns
  intro u rs1 s
  obtain ⟨hdly, hfrq, -⟩ := update_keeps (s.lfo u) (s.regInt rs1)
  refine ⟨encR_low2_zeros 0x22 0 rs1 u.code ▸ isWordOf_encode (.lupd u rs1), _, _, exec_lupd u rs1 s,
    writesLfo_setLfo .., hdly, hfrq, ?_⟩
  split
  · next hdt => exact Lfo.update_of_nonpos _ hdt
  next hdt =>
  split
  · next hrun =>
    rw [Lfo.update_of_running hdt hrun]
    exact ⟨hrun, rfl, turn_toNat ..⟩
  next hrun =>
  have hrun : (s.lfo u).run = false := Bool.eq_false_of_not_eq_true hrun
  rw [toInt_td_update_of_delayed hdt hrun]
  refine ⟨satInt_toInt_add_of_pos _ hdt, ?_⟩
  split
  · next hd =>
    rw [Lfo.update_of_counting hdt hrun hd]
    exact ⟨hrun, rfl⟩
  · next hd =>
    rw [Lfo.update_of_crossing hdt hrun hd]
    exact ⟨rfl, turn_toNat ..⟩

/-! ### Waveforms (rules R151, R158) -/

/-- The sawtooth is bipolar and never reaches `ONE`. -/
theorem waveSaw_range (p : BitVec 32) : -oneFx ≤ waveSaw p ∧ waveSaw p < oneFx := by
  rw [waveSaw_eq]
  simp only [oneFx]
  omega

/-- The triangle with its phase compared as a natural number. -/
theorem waveTriangle_eq (p : BitVec 32) :
    waveTriangle p =
      if p.toNat < 1073741824 then 4 * (p.toNat : Int)
      else if p.toNat < 3221225472 then 8589934592 - 4 * (p.toNat : Int)
      else 4 * (p.toNat : Int) - 17179869184 := by
  unfold waveTriangle
  simp only [Nat.cast_lt_ofNat]

/-- The triangle is bipolar: it rises to `ONE`, falls to `-ONE` and rises to 0. -/
theorem waveTriangle_range (p : BitVec 32) : -oneFx ≤ waveTriangle p ∧ waveTriangle p ≤ oneFx := by
  have hp := p.isLt
  rw [waveTriangle_eq]
  simp only [oneFx]
  split
  · omega
  · split
    · omega
    · omega

theorem wave_range (shape : LfoShape) (p : BitVec 32) :
    -oneFx ≤ wave shape p ∧ if shape = .saw then wave shape p < oneFx else wave shape p ≤ oneFx := by
  cases shape with
  | saw => exact waveSaw_range p
  | triangle => exact waveTriangle_range p

theorem wave_zero (shape : LfoShape) : wave shape 0 = 0 := by
  cases shape with
  | saw => rfl
  | triangle => exact waveTriangle_eq 0

theorem Lfo.value_of_delayed {o : Lfo} (h : o.run = false) (shape : LfoShape) : o.value shape = 0 :=
  if_neg (ne_true_of_eq_false h)

theorem Lfo.value_of_running {o : Lfo} (h : ¬ o.run = false) (shape : LfoShape) : o.value shape = wave shape o.ph :=
  if_pos (Bool.eq_true_of_not_eq_false h)

/-- What a unit delivers has the range of its waveform, for 0 lies in it. -/
theorem Lfo.value_range (o : Lfo) (shape : LfoShape) :
    -oneFx ≤ o.value shape ∧ if shape = .saw then o.value shape < oneFx else o.value shape ≤ oneFx := by
  by_cases hrun : o.run = false
  · rw [o.value_of_delayed hrun, ← wave_zero shape]
    exact wave_range shape 0
  · rw [o.value_of_running hrun]
    exact wave_range shape o.ph

theorem Lfo.value_of_phase_zero {o : Lfo} (h : o.ph = 0) (shape : LfoShape) : o.value shape = 0 := by
  by_cases hrun : o.run = false
  · exact o.value_of_delayed hrun shape
  · rw [o.value_of_running hrun, h, wave_zero]

/-- A unit's value is written as it is. -/
theorem sat64_value (o : Lfo) (shape : LfoShape) : sat64 (o.value shape) = BitVec.ofInt 64 (o.value shape) := by
  obtain ⟨hlo, hhi⟩ := o.value_range shape
  have htop : o.value shape ≤ oneFx := by
    split at hhi
    · exact hhi.le
    · exact hhi
  exact sat64_of_range (le_trans (by decide) hlo) (le_trans htop (by decide))

/-- Settles O45: the range and the value at phase 0 are those of the waveform, and the waveform is the shape's. -/
theorem lgetSamplesTheWave : Obligations.LgetSamplesTheWave := by
  unfold Obligations.LgetSamplesTheWave
  intro rd u s
  obtain ⟨hlo, hhi⟩ := (s.lfo u).value_range s.params.shape
  refine ⟨encR_rd_low2 0x23 rd u.code ▸ isWordOf_encode (.lget rd u), _, (s.lfo u).value s.params.shape,
    exec_lget rd u s, sat64_value .. ▸ writesReg_setReg .., hlo, hhi, fun h => Lfo.value_of_phase_zero h _, ?_⟩
  split
  · next hrun => exact Lfo.value_of_delayed hrun _
  · next hrun =>
    rw [Lfo.value_of_running hrun]
    cases s.params.shape with
    | saw => exact waveSaw_eq _
    | triangle => exact waveTriangle_eq _

/-! ### Running units (rules R152, R154, R156) -/

/-- No move of a unit stops it or changes its time once it runs. -/
theorem LfoMove.keeps_running {o o' : Lfo} (h : LfoMove o o') (hrun : o.run = true) : o'.run = true ∧ o'.td = o.td := by
  cases h with
  | delay | frequency => exact ⟨hrun, rfl⟩
  | tick dt =>
    obtain ⟨-, -, hruns⟩ := update_keeps o dt
    exact hruns hrun

/-- A command other than `VINIT` leaves a unit as it was or moves it. -/
theorem CommandEffect.lfo_cases {s t : State} {i : Instr} (h : CommandEffect s i t) (hi : i ≠ .vinit) (u : LfoSel) :
    t.lfo u = s.lfo u ∨ LfoMove (s.lfo u) (t.lfo u) := by
  cases h with
  | nothing | illegal | register | load | takeDirty => exact .inl (sameLfos_of_fields (s := s) rfl rfl u)
  | envelope _ x e _ =>
    obtain ⟨-, -, -, hlfos, -⟩ := writesEnv_setEnv s x e
    exact .inl (hlfos u)
  | oscillator _ x o ho =>
    rw [lfo_setLfo]
    split
    · next hx => exact .inr (hx ▸ ho)
    · exact .inl rfl
  | notify kind width rs1 rs2 =>
    exact .inl (sameLfos_of_fields ((resolveAll_vib _ _).trans (notifyAll_vib ..))
      ((resolveAll_mlfo _ _).trans (notifyAll_mlfo ..)) u)
  | sum g => exact .inl (sameLfos_of_fields (resolveAll_vib _ _) (resolveAll_mlfo _ _) u)
  | renew => exact absurd rfl hi

/-- A step but `VINIT` and reset leaves a unit as it was or moves it. -/
theorem StepEffect.lfo_cases {s t : State} (h : StepEffect s t) (hreset : ¬ s.NextReset)
    (hvinit : ¬ s.NextCommand 0x7F000000) (u : LfoSel) : t.lfo u = s.lfo u ∨ LfoMove (s.lfo u) (t.lfo u) := by
  rcases h.voice_cases with ⟨-, hlfos, -⟩ | ⟨hr, -⟩ | ⟨w, i, rest, t', hw, hd, hc, rfl⟩
  · exact .inl (hlfos u)
  · exact absurd hr hreset
  · have hcount : t'.countCmd.lfo u = t'.lfo u := sameLfos_of_fields (s := t') rfl rfl u
    have hbus : (s.withBus rest).lfo u = s.lfo u := sameLfos_of_fields (s := s) rfl rfl u
    rw [hcount, ← hbus]
    exact hc.lfo_cases (ne_vinit_of_decode hw hd hvinit) u

/-- Settles O25, by cases on the moves of an LFO unit. -/
theorem runningLfoRunsOn : Obligations.RunningLfoRunsOn := by
  unfold Obligations.RunningLfoRunsOn
  intro s t u h hreset hvinit hrun
  rcases (step_effect h).lfo_cases hreset hvinit u with hsame | hmove
  · rw [hsame]
    exact ⟨hrun, rfl⟩
  · exact hmove.keeps_running hrun

end Sys2Proof.Machine

/-! PROOF. The modulator slots and the accumulator (44_modulator.md): the words of their commands, normalisation, the reads,
the descriptor word of a slot, and the sums that `MSUM` and `MUPD` recompute. -/

namespace Sys2Proof

/-! ### The words of modulator commands (30_encoding.md rules R70, R72, R75) -/

/-- Two reserved fields side by side are one. -/
theorem append_zeros_append_zeros {n : Nat} (x : BitVec n) (a b : Nat) :
    x ++ 0#a ++ 0#b = (x ++ 0#(a + b)).cast (Nat.add_assoc n a b).symm := by
  rw [BitVec.append_assoc, BitVec.zero_append_zero]

theorem encR_low6_zeros (op : BitVec 8) (rd rs1 : Reg) (x : BitVec 6) :
    encR op rd rs1 0 0 (immLow6 x) = op ++ rd ++ rs1 ++ 0#10 ++ x := by
  unfold encR immLow6
  ext i hi
  simp only [BitVec.getElem_append]
  interval_cases i <;> simp

theorem encR_rd_low6 (op : BitVec 8) (rd : Reg) (x : BitVec 6) :
    encR op rd 0 0 0 (immLow6 x) = op ++ rd ++ 0#14 ++ x :=
  (encR_low6_zeros op rd 0 x).trans (congrArg (· ++ x) (append_zeros_append_zeros (op ++ rd) 4 10))

theorem encR_only_low6 (op : BitVec 8) (x : BitVec 6) : encR op 0 0 0 0 (immLow6 x) = op ++ 0#18 ++ x :=
  (encR_rd_low6 op 0 x).trans (congrArg (· ++ x) (append_zeros_append_zeros op 4 14))

theorem encR_only_rd (op : BitVec 8) (rd : Reg) : encR op rd 0 0 0 0 = op ++ rd ++ 0#20 :=
  (encR_rs1_zeros op rd 0).trans (append_zeros_append_zeros (op ++ rd) 4 16)

theorem encR_mupd (op : BitVec 8) (rs1 rs2 : Reg) (k w : BitVec 1) :
    encR op 0 rs1 rs2 0 (immMupd k w) = op ++ 0#4 ++ rs1 ++ rs2 ++ 0#10 ++ w ++ k := by
  unfold encR immMupd
  ext i hi
  simp only [BitVec.getElem_append]
  interval_cases i <;> simp

theorem encR_mmatch (op : BitVec 8) (rd rs1 : Reg) (k : BitVec 1) (x : BitVec 6) :
    encR op rd rs1 0 0 (immMmatch k x) = op ++ rd ++ rs1 ++ 0#9 ++ k ++ x := by
  unfold encR immMmatch
  ext i hi
  simp only [BitVec.getElem_append]
  interval_cases i <;> simp

end Sys2Proof

namespace Sys2Proof.Machine

/-! ### The commands on legal slots (rules R180, R182, R184, R186 to R191) -/

theorem exec_mcfg {slot : BitVec 6} {s : State} (h : slot.toNat < s.params.nmod) (rs1 : Reg) :
    exec (.mcfg slot rs1) s = .next (s.setSlot slot (Slot.ofDescriptor (s.reg rs1))) :=
  ifLegal_of_wellFormed (slotFault_eq_none_iff.2 h)

theorem exec_mget {slot : BitVec 6} {s : State} (h : slot.toNat < s.params.nmod) (rd : Reg) :
    exec (.mget rd slot) s = .next (s.setReg rd (s.slot slot).contrib) :=
  ifLegal_of_wellFormed (slotFault_eq_none_iff.2 h)

theorem exec_mmatch {slot : BitVec 6} {s : State} (h : slot.toNat < s.params.nmod) (kind : Kind) (rd rs1 : Reg) :
    exec (.mmatch kind rd rs1 slot) s =
      .next (s.setReg rd (if (s.slot slot).matchesCtl kind (low7 (s.reg rs1)) then 1 else 0)) :=
  ifLegal_of_wellFormed (slotFault_eq_none_iff.2 h)

theorem exec_mrdd {slot : BitVec 6} {s : State} (h : slot.toNat < s.params.nmod) (rd : Reg) :
    exec (.mrdd rd slot) s =
      .next (s.setReg rd (if (s.slot slot).valid then (s.slot slot).descriptor else 0)) :=
  ifLegal_of_wellFormed (slotFault_eq_none_iff.2 h)

theorem exec_mupd (kind : Kind) (width : RawWidth) (rs1 rs2 : Reg) (s : State) :
    exec (.mupd kind width rs1 rs2) s = .next (s.notifyCtl kind (low7 (s.reg rs1)) width (s.regInt rs2)) := rfl

theorem exec_msum (g : BitVec 6) (s : State) : exec (.msum g) s = .next (s.resolve g) := rfl

theorem exec_rdacc (rd : Reg) (g : BitVec 6) (s : State) :
    exec (.rdacc rd g) s = .next (s.setReg rd (s.accAt g)) := rfl

theorem exec_geff (rd rs1 : Reg) (g : BitVec 6) (s : State) :
    exec (.geff rd rs1 g) s = .next (s.setReg rd (sat64 (fadd (s.regInt rs1) (s.accAt g).toInt))) := rfl

theorem exec_rddirty (rd : Reg) (s : State) :
    exec (.rddirty rd) s = .next { s.setReg rd s.dirty with dirty := 0 } := rfl

/-- A controller index is its operand modulo 128. -/
theorem low7_eq_ofInt (v : Word) : low7 v = BitVec.ofInt 7 (v.toInt % 128) := by
  rw [← low7_toNat, BitVec.ofInt_natCast, BitVec.ofNat_toNat, BitVec.setWidth_eq]

/-! ### Normalisation (rules R176, R177) -/

theorem directed_eq (dir : Direction) (x : Int) : directed dir x = if dir = .negative then oneFx - x else x := by
  cases dir <;> rfl

theorem polarised_eq (pol : Polarity) (g : Int) : polarised pol g = if pol = .bipolar then 2 * g - oneFx else g := by
  cases pol <;> rfl

theorem normLow_eq (pol : Polarity) : normLow pol = if pol = .bipolar then -oneFx else 0 := by
  cases pol <;> rfl

theorem rawFraction_eq (width : RawWidth) (raw : Int) :
    rawFraction width raw = raw % rawRange width * 4294967296 / (rawRange width - 1) := by
  rw [rawFraction, shl_32, rawOf]

/-- The two curves the spec gives a formula for (rule R176). -/
theorem curved_of_linear_or_switch {c : Curve} (h : c = .linear ∨ c = .switch) (pol : Polarity) (x : Int) :
    curved c pol x = polarised pol (if c = .switch then if halfFx ≤ x then oneFx else 0 else x) := by
  rcases h with rfl | rfl
  · rfl
  · rfl

/-- Settles O54: the range is `norm_range`, and the two curves with a formula are the rule's. -/
theorem normalisationFollowsTheCurve : Obligations.NormalisationFollowsTheCurve := by
  unfold Obligations.NormalisationFollowsTheCurve
  intro x width raw n y z g
  obtain ⟨hlow, hhigh⟩ := norm_range x width raw
  have hn : n = rawRange width := by cases width <;> rfl
  have hz : directed x.dir (rawFraction width raw) = z := by rw [directed_eq, rawFraction_eq, ← hn]
  refine ⟨fun hcurve => ?_, hhigh, normLow_eq x.pol ▸ hlow⟩
  rw [SlotInput.norm, hz, curved_of_linear_or_switch hcurve, polarised_eq]

/-! ### Reads (rules R186 to R190) -/

/-- Settles O53: a register write that also clears the set. -/
theorem rddirtyReadsAndClears : Obligations.RddirtyReadsAndClears := by
  unfold Obligations.RddirtyReadsAndClears
  intro rd s
  obtain ⟨hrd, hregs, henvs, hlfos, hslots, ⟨haccs, -⟩, hcontrol, hhost⟩ := writesReg_setReg s rd s.dirty
  exact ⟨encR_only_rd 0x37 rd ▸ isWordOf_encode (.rddirty rd), _, exec_rddirty rd s, hrd, rfl, hregs, haccs,
    henvs, hlfos, hslots, hcontrol, hhost⟩

/-- Settles O52: the test of the machine is the rule's matching (`matchesCtl_iff`). -/
theorem mmatchTestsTheInputs : Obligations.MmatchTestsTheInputs := by
  unfold Obligations.MmatchTestsTheInputs
  intro kind rd rs1 slot s h
  refine ⟨encR_mmatch 0x34 rd rs1 kind.code slot ▸ isWordOf_encode (.mmatch kind rd rs1 slot), _, _,
    exec_mmatch h kind rd rs1, writesReg_setReg .., ?_⟩
  rw [State.regInt, ← low7_eq_ofInt, ← matchesCtl_iff]
  split
  · next hm => exact ⟨.inr rfl, iff_of_true rfl hm⟩
  · next hm => exact ⟨.inl rfl, iff_of_false (by decide) hm⟩

theorem empty_of_not_valid {s : State} (hs : s.Inv) {i : BitVec 6} (h : (s.slot i).valid = false) :
    s.slot i = Slot.empty := by
  obtain ⟨-, -, -, hslot, -⟩ := hs
  obtain ⟨-, hempty, -⟩ := hslot i
  exact hempty h

/-- Settles O51: three register writes; under the invariant a slot that is not valid is the empty slot. -/
theorem modulatorReadsReturnTheirValue : Obligations.ModulatorReadsReturnTheirValue := by
  unfold Obligations.ModulatorReadsReturnTheirValue
  refine ⟨fun rd slot s h => ?mget, fun rd g s => ?rdacc, fun rd rs1 g s => ?geff⟩
  case mget =>
    refine ⟨encR_rd_low6 0x33 rd slot ▸ isWordOf_encode (.mget rd slot), _, exec_mget h rd, writesReg_setReg ..,
      fun hs hv => ?_⟩
    rw [reg_setReg_same, empty_of_not_valid hs hv]
    rfl
  case rdacc =>
    exact ⟨encR_rd_low6 0x35 rd g ▸ isWordOf_encode (.rdacc rd g), exists_next_writesReg (exec_rdacc rd g s)⟩
  case geff =>
    refine ⟨encR_low6_zeros 0x36 rd rs1 g ▸ isWordOf_encode (.geff rd rs1 g), exists_next_writesReg ?_⟩
    rw [exec_geff, fadd, sat64_satInt]

/-! ### The descriptor word (rules R171, R180, R191) -/

theorem curve_code_ofCode (c : BitVec 2) : (Curve.ofCode c).code = c := by revert c; decide

theorem polCode_polOf (b : BitVec 1) : polCode (polOf b) = b := by revert b; decide

theorem direction_code_ofCode (b : BitVec 1) : (Direction.ofCode b).code = b := by revert b; decide

theorem kind_eq_cc_iff (k : Kind) : k = .cc ↔ k.code = 1 := by cases k <;> decide

theorem polarity_eq_bipolar_iff (p : Polarity) : p = .bipolar ↔ polCode p = 1 := by cases p <;> decide

theorem direction_eq_negative_iff (d : Direction) : d = .negative ↔ d.code = 1 := by cases d <;> decide

theorem ofBool_getLsbD {n : Nat} (x : BitVec n) (i : Nat) : BitVec.ofBool (x.getLsbD i) = x.extractLsb' i 1 := by
  ext j hj
  obtain rfl : j = 0 := by omega
  simp

theorem extractLsb'_one_eq_one_iff {n : Nat} (x : BitVec n) (i : Nat) : x.extractLsb' i 1 = 1 ↔ x.getLsbD i = true := by
  rw [← ofBool_getLsbD]
  cases x.getLsbD i <;> decide

/-- Bits of a part of a word are bits of the word. -/
theorem extractLsb'_extractLsb'_add {n : Nat} (x : BitVec n) {start len start' len' : Nat} (h : start' + len' ≤ len) :
    (x.extractLsb' start len).extractLsb' start' len' = x.extractLsb' (start + start') len' := by
  ext j hj
  simp only [BitVec.getElem_extractLsb', BitVec.getLsbD_extractLsb', decide_eq_true (show start' + j < len by omega),
    Bool.true_and, Nat.add_assoc]

/-- Loading 13 bits as an input loses none of them. -/
theorem toBits_ofBits (b : BitVec 13) : (SlotInput.ofBits b).toBits = b := by
  simp only [SlotInput.toBits, SlotInput.ofBits, ofBool_getLsbD, direction_code_ofCode, polCode_polOf, curve_code_ofCode,
    kind_code_ofCode]
  iterate 5 rw [BitVec.extractLsb'_append_extractLsb'_eq_extractLsb' (by rfl)]
  exact BitVec.extractLsb'_eq_self

theorem toBits_fields (x : SlotInput) :
    x.toBits.extractLsb' 0 7 = x.idx ∧ x.toBits.extractLsb' 7 1 = x.kind.code ∧ x.toBits.extractLsb' 8 2 = x.curve.code ∧
      x.toBits.extractLsb' 10 1 = polCode x.pol ∧ x.toBits.extractLsb' 11 1 = x.dir.code ∧
      x.toBits.extractLsb' 12 1 = BitVec.ofBool x.pres := by
  unfold SlotInput.toBits
  simp (disch := decide) only [BitVec.extractLsb'_append_eq_of_le, BitVec.extractLsb'_append_eq_of_add_le,
    Nat.reduceSub, BitVec.extractLsb'_eq_self, and_self]

/-- A word in which an input's 13 bits stand at `start` holds the input's fields at their places from there. -/
theorem fields_of_toBits {d : Word} {start : Nat} {x : SlotInput} (h : d.extractLsb' start 13 = x.toBits) :
    d.extractLsb' start 7 = x.idx ∧ d.extractLsb' (start + 7) 1 = x.kind.code ∧
      d.extractLsb' (start + 8) 2 = x.curve.code ∧ d.extractLsb' (start + 10) 1 = polCode x.pol ∧
      d.extractLsb' (start + 11) 1 = x.dir.code ∧ d.getLsbD (start + 12) = x.pres := by
  have hpart (start' len' : Nat) (hle : start' + len' ≤ 13) :
      d.extractLsb' (start + start') len' = x.toBits.extractLsb' start' len' := by
    rw [← h, extractLsb'_extractLsb'_add d hle]
  obtain ⟨hidx, hkind, hcurve, hpol, hdir, hpres⟩ := toBits_fields x
  refine ⟨(hpart 0 7 (by decide)).trans hidx, (hpart 7 1 (by decide)).trans hkind, (hpart 8 2 (by decide)).trans hcurve,
    (hpart 10 1 (by decide)).trans hpol, (hpart 11 1 (by decide)).trans hdir, ?_⟩
  rw [← hpart 12 1 (by decide), ← ofBool_getLsbD] at hpres
  exact BitVec.ofBool_eq_iff_eq.1 hpres

/-- The fields of an input loaded from the 13 bits at `start` of a descriptor. -/
theorem ofBits_fields (d : Word) (start : Nat) :
    (SlotInput.ofBits (d.extractLsb' start 13)).idx = d.extractLsb' start 7 ∧
      ((SlotInput.ofBits (d.extractLsb' start 13)).kind = .cc ↔ d.getLsbD (start + 7) = true) ∧
      (SlotInput.ofBits (d.extractLsb' start 13)).curve.code = d.extractLsb' (start + 8) 2 ∧
      ((SlotInput.ofBits (d.extractLsb' start 13)).pol = .bipolar ↔ d.getLsbD (start + 10) = true) ∧
      ((SlotInput.ofBits (d.extractLsb' start 13)).dir = .negative ↔ d.getLsbD (start + 11) = true) ∧
      (SlotInput.ofBits (d.extractLsb' start 13)).pres = d.getLsbD (start + 12) := by
  obtain ⟨hidx, hkind, hcurve, hpol, hdir, hpres⟩ := fields_of_toBits (toBits_ofBits (d.extractLsb' start 13)).symm
  rw [kind_eq_cc_iff, polarity_eq_bipolar_iff, direction_eq_negative_iff, ← hkind, ← hpol, ← hdir]
  exact ⟨hidx.symm, extractLsb'_one_eq_one_iff .., hcurve.symm, extractLsb'_one_eq_one_iff ..,
    extractLsb'_one_eq_one_iff .., hpres.symm⟩

/-- The parts of a descriptor word (rule R171). -/
theorem descriptor_parts (m : Slot) :
    m.descriptor.extractLsb' 0 13 = m.src.toBits ∧ m.descriptor.extractLsb' 13 3 = 0 ∧
      m.descriptor.extractLsb' 16 13 = m.amt.toBits ∧ m.descriptor.extractLsb' 29 3 = 0 ∧
      m.descriptor.extractLsb' 32 6 = m.dest ∧ m.descriptor.getLsbD 38 = false ∧
      m.descriptor.getLsbD 39 = m.valid ∧ m.descriptor.extractLsb' 40 8 = 0 ∧
      m.descriptor.extractLsb' 48 16 = m.amount := by
  rw [← BitVec.ofBool_eq_iff_eq (b := m.descriptor.getLsbD 38),
    ← BitVec.ofBool_eq_iff_eq (b := m.descriptor.getLsbD 39),
    ofBool_getLsbD, ofBool_getLsbD]
  unfold Slot.descriptor
  simp (disch := decide) only [BitVec.extractLsb'_append_eq_of_le, BitVec.extractLsb'_append_eq_of_add_le,
    Nat.reduceSub, BitVec.extractLsb'_eq_self, true_and]
  trivial

/-- Settles O48: a valid slot's descriptor has the parts of rule R171, and its inputs have their fields. -/
theorem mrddReturnsTheFields : Obligations.MrddReturnsTheFields := by
  unfold Obligations.MrddReturnsTheFields
  intro rd slot s h
  refine ⟨encR_rd_low6 0x38 rd slot ▸ isWordOf_encode (.mrdd rd slot), _, _, exec_mrdd h rd, writesReg_setReg .., ?_⟩
  split
  · next hempty => rw [hempty]; rfl
  · next hvalid =>
    have hvalid : (s.slot slot).valid = true := Bool.eq_true_of_not_eq_false hvalid
    obtain ⟨hsrc, h13, hamt, h29, hdest, h38, h39, h40, hamount⟩ := descriptor_parts (s.slot slot)
    obtain ⟨h0, h7, h8, h10, h11, h12⟩ := fields_of_toBits hsrc
    obtain ⟨h16, h23, h24, h26, h27, h28⟩ := fields_of_toBits hamt
    rw [if_pos hvalid]
    exact ⟨h0, h7, h8, h10, h11, h12, h13, h16, h23, h24, h26, h27, h28, h29, hdest, h38, h39.trans hvalid, h40, hamount⟩

/-- A descriptor word is its nine parts (rule R171). -/
theorem descriptor_split (d : Word) :
    d.extractLsb' 48 16 ++ d.extractLsb' 40 8 ++ d.extractLsb' 39 1 ++ d.extractLsb' 38 1 ++ d.extractLsb' 32 6
      ++ d.extractLsb' 29 3 ++ d.extractLsb' 16 13 ++ d.extractLsb' 13 3 ++ d.extractLsb' 0 13 = d := by
  iterate 8 rw [BitVec.extractLsb'_append_extractLsb'_eq_extractLsb' (by rfl)]
  exact BitVec.extractLsb'_eq_self

/-- The mask of the bits rule R171 gives a meaning, part by part. -/
theorem descriptorMask_eq :
    (0xFFFF00BF1FFF1FFF : Word) =
      BitVec.allOnes 16 ++ 0#8 ++ BitVec.allOnes 1 ++ 0#1 ++ BitVec.allOnes 6 ++ 0#3 ++ BitVec.allOnes 13 ++ 0#3
        ++ BitVec.allOnes 13 := by decide

theorem ofDescriptor_of_not_valid {d : Word} (h : d.getLsbD 39 = false) : Slot.ofDescriptor d = Slot.empty :=
  if_neg (ne_true_of_eq_false h)

theorem ofDescriptor_valid (d : Word) : (Slot.ofDescriptor d).valid = d.getLsbD 39 := by
  unfold Slot.ofDescriptor
  split
  · next h => exact h.symm
  · next h => exact (Bool.eq_false_of_not_eq_true h).symm

/-- The descriptor of a loaded slot is the descriptor it was loaded from, its reserved bits 0. -/
theorem descriptor_ofDescriptor {d : Word} (h : d.getLsbD 39 = true) :
    (Slot.ofDescriptor d).descriptor = d &&& 0xFFFF00BF1FFF1FFF := by
  have hload : (Slot.ofDescriptor d).descriptor =
      d.extractLsb' 48 16 ++ 0#8 ++ d.extractLsb' 39 1 ++ 0#1 ++ d.extractLsb' 32 6 ++ 0#3 ++ d.extractLsb' 16 13 ++ 0#3
        ++ d.extractLsb' 0 13 := by
    unfold Slot.ofDescriptor
    rw [if_pos h, ← ofBool_getLsbD d 39, h]
    simp only [Slot.descriptor, Slot.withContrib, toBits_ofBits]
  rw [hload, descriptorMask_eq]
  conv_rhs => rw [← descriptor_split d]
  iterate 8 rw [BitVec.and_append]
  simp only [BitVec.and_allOnes, BitVec.and_zero]

/-- Settles O47: the slot that `MRDD` reads is the one `MCFG` has just loaded. -/
theorem descriptorReadsBack : Obligations.DescriptorReadsBack := by
  unfold Obligations.DescriptorReadsBack
  intro slot rs1 rd s h
  refine ⟨_, _, exec_mcfg h rs1, exec_mrdd (s := s.setSlot slot _) h rd, ?_⟩
  rw [reg_setReg_same, slot_setSlot_same, ofDescriptor_valid]
  split
  · next hv => exact descriptor_ofDescriptor hv
  · rfl

theorem toInt_sat64_one : (sat64 oneFx).toInt = oneFx := by decide

/-- Every field of a slot loaded from a descriptor with bit 39 set, but its contribution (rule R180). -/
theorem ofDescriptor_fields {d : Word} (h : d.getLsbD 39 = true) :
    (Slot.ofDescriptor d).src = SlotInput.ofBits (d.extractLsb' 0 13) ∧
      (Slot.ofDescriptor d).amt = SlotInput.ofBits (d.extractLsb' 16 13) ∧
      (Slot.ofDescriptor d).dest = d.extractLsb' 32 6 ∧ (Slot.ofDescriptor d).amount = d.extractLsb' 48 16 ∧
      (Slot.ofDescriptor d).srcv.toInt = (if d.getLsbD 12 then 0 else oneFx) ∧
      (Slot.ofDescriptor d).amtv.toInt = oneFx := by
  unfold Slot.ofDescriptor
  rw [if_pos h]
  refine ⟨rfl, rfl, rfl, rfl, ?_, toInt_sat64_one⟩
  change (if d.getLsbD 12 then (0 : Word) else sat64 oneFx).toInt = _
  rw [apply_ite BitVec.toInt, toInt_sat64_one]
  rfl

/-- A slot that is just loaded contributes its amount, or nothing while its primary source is bound (rules R179, R180). -/
theorem toInt_contrib_ofDescriptor {d : Word} (h : d.getLsbD 39 = true) :
    (Slot.ofDescriptor d).contrib.toInt =
      if d.getLsbD 12 then 0 else (Slot.ofDescriptor d).amount.toInt * 4294967296 := by
  obtain ⟨-, -, -, -, hsrcv, hamtv⟩ := ofDescriptor_fields h
  obtain ⟨hcontrib, -⟩ := contrib_exact (ofDescriptor_ok d)
  rw [hcontrib, hsrcv, hamtv]
  split
  · simp
  · rw [mul_comm]
    norm_num

/-- Settles O46: a loaded slot's fields are bits of the descriptor, and its contribution is exact (`contrib_exact`). -/
theorem mcfgLoadsTheDescriptor : Obligations.McfgLoadsTheDescriptor := by
  unfold Obligations.McfgLoadsTheDescriptor
  intro slot rs1 s h
  refine ⟨encR_low6_zeros 0x30 0 rs1 slot ▸ isWordOf_encode (.mcfg slot rs1), _, _, exec_mcfg h rs1,
    writesSlot_setSlot .., ?_⟩
  generalize s.reg rs1 = d
  split
  · next hv => exact ofDescriptor_of_not_valid hv
  · next hv =>
    have hv : d.getLsbD 39 = true := Bool.eq_true_of_not_eq_false hv
    obtain ⟨hsrc, hamt, hdest, hamount, hsrcv, hamtv⟩ := ofDescriptor_fields hv
    obtain ⟨hidx, hkind, hcurve, hpol, hdir, hpres⟩ := ofBits_fields d 0
    obtain ⟨hidx', hkind', hcurve', hpol', hdir', hpres'⟩ := ofBits_fields d 16
    have hbound : (Slot.ofDescriptor d).src.pres = d.getLsbD 12 := by rw [hsrc]; exact hpres
    rw [toInt_contrib_ofDescriptor hv, hsrcv, hbound, hsrc, hamt]
    exact ⟨(ofDescriptor_valid d).trans hv, hidx, hkind, hcurve, hpol, hdir, rfl, hidx', hkind', hcurve', hpol', hdir',
      hpres', hdest, hamount, rfl, hamtv, rfl⟩

/-! ### MSUM and MUPD (rules R182 to R184) -/

/-- Resolving changes sums and marks alone. -/
theorem resolveAll_frame (s : State) (d : BitVec 64) :
    SameRegs s (s.resolveAll d) ∧ SameEnvs s (s.resolveAll d) ∧ SameLfos s (s.resolveAll d) ∧
      SameSlots s (s.resolveAll d) ∧ SameControl s (s.resolveAll d) ∧ SameHost s (s.resolveAll d) :=
  ⟨reg_congr (resolveAll_regs s d), sameEnvs_of_fields (resolveAll_vol s d) (resolveAll_menv s d),
    sameLfos_of_fields (resolveAll_vib s d) (resolveAll_mlfo s d), slot_congr (resolveAll_mods s d),
    ⟨resolveAll_ill s d, resolveAll_illw s d, resolveAll_cmdcnt s d, resolveAll_params s d⟩,
    resolveAll_rdata s d, resolveAll_bus s d⟩

/-- What resolving one generator does to the entries and the marks (rule R183). -/
theorem resolve_sums (s : State) (g x : BitVec 6) :
    (s.resolve g).accAt x = (if x = g then sat64 (boundSum s x) else s.accAt x) ∧
      (s.resolve g).dirtyAt x = (s.dirtyAt x || decide (x = g)) := by
  unfold State.resolve
  rw [accAt_resolveAll, dirtyAt_resolveAll, getLsbD_genMask]
  simp only [decide_eq_true_eq, and_self]

/-- Settles O50: `MSUM` resolves the mask of one generator. -/
theorem msumRecomputesOneEntry : Obligations.MsumRecomputesOneEntry := by
  unfold Obligations.MsumRecomputesOneEntry
  intro g s
  obtain ⟨hregs, henvs, hlfos, hslots, hcontrol, hhost⟩ := resolveAll_frame s (genMask g)
  obtain ⟨hacc, hdirty⟩ := resolve_sums s g g
  refine ⟨encR_only_low6 0x32 g ▸ isWordOf_encode (.msum g), _, exec_msum g s, hacc.trans (if_pos rfl), ?_,
    fun x hx => ?_, hregs, henvs, hlfos, hslots, hcontrol, hhost⟩
  · rw [hdirty, decide_eq_true rfl, Bool.or_true]
  · obtain ⟨hacc', hdirty'⟩ := resolve_sums s g x
    rw [hacc', hdirty', if_neg hx, decide_eq_false hx, Bool.or_false]
    exact ⟨rfl, rfl⟩

section
variable (s : State) (kind : Kind) (idx : BitVec 7) (width : RawWidth) (raw : Int)

/-- Notifying the slots of a controller changes slots, sums and marks alone. -/
theorem notifyCtl_frame :
    SameRegs s (s.notifyCtl kind idx width raw) ∧ SameEnvs s (s.notifyCtl kind idx width raw) ∧
      SameLfos s (s.notifyCtl kind idx width raw) ∧ SameControl s (s.notifyCtl kind idx width raw) ∧
      SameHost s (s.notifyCtl kind idx width raw) := by
  unfold State.notifyCtl
  exact ⟨reg_congr ((resolveAll_regs ..).trans (notifyAll_regs ..)),
    sameEnvs_of_fields ((resolveAll_vol ..).trans (notifyAll_vol ..)) ((resolveAll_menv ..).trans (notifyAll_menv ..)),
    sameLfos_of_fields ((resolveAll_vib ..).trans (notifyAll_vib ..)) ((resolveAll_mlfo ..).trans (notifyAll_mlfo ..)),
    ⟨(resolveAll_ill ..).trans (notifyAll_ill ..), (resolveAll_illw ..).trans (notifyAll_illw ..),
      (resolveAll_cmdcnt ..).trans (notifyAll_cmdcnt ..), (resolveAll_params ..).trans (notifyAll_params ..)⟩,
    (resolveAll_rdata ..).trans (notifyAll_rdata ..), (resolveAll_bus ..).trans (notifyAll_bus ..)⟩

theorem slot_notifyCtl (i : BitVec 6) :
    (s.notifyCtl kind idx width raw).slot i =
      if i.toNat < s.params.nmod then (s.slot i).notify kind idx width raw else s.slot i := by
  rw [← slot_notifyAll]
  exact slot_congr (resolveAll_mods ..) i

theorem accAt_notifyCtl (g : BitVec 6) :
    (s.notifyCtl kind idx width raw).accAt g =
      if (s.affected kind idx).getLsbD g.toNat then sat64 (boundSum (s.notifyCtl kind idx width raw) g)
      else s.accAt g := by
  have hsum : boundSum (s.notifyCtl kind idx width raw) g = boundSum (s.notifyAll kind idx width raw) g :=
    boundSum_congr (resolveAll_mods ..) (resolveAll_params ..) g
  rw [hsum, ← accAt_congr (notifyAll_acc s kind idx width raw)]
  exact accAt_resolveAll ..

theorem dirtyAt_notifyCtl (g : BitVec 6) :
    (s.notifyCtl kind idx width raw).dirtyAt g = (s.dirtyAt g || (s.affected kind idx).getLsbD g.toNat) := by
  rw [← dirtyAt_congr (notifyAll_dirty s kind idx width raw)]
  exact dirtyAt_resolveAll ..

end

section
variable {m : Slot} {kind : Kind} {idx : BitVec 7}

theorem notify_of_not_matchesCtl (h : ¬ m.matchesCtl kind idx = true) (width : RawWidth) (raw : Int) :
    m.notify kind idx width raw = m := if_neg h

/-- The cached values of a slot with a matching input after the notification, and its contribution from them. -/
theorem notify_values (h : m.matchesCtl kind idx = true) (width : RawWidth) (raw : Int) :
    (m.notify kind idx width raw).srcv =
        (if m.matchesSrc kind idx then sat64 (m.src.norm width raw) else m.srcv) ∧
      (m.notify kind idx width raw).amtv =
        (if m.matchesAmt kind idx then sat64 (m.amt.norm width raw) else m.amtv) ∧
      (m.notify kind idx width raw).contrib = (m.notify kind idx width raw).mac := by
  unfold Slot.notify
  rw [if_pos h]
  exact ⟨rfl, rfl, rfl⟩

theorem matchesSrc_iff : m.matchesSrc kind idx = true ↔ BoundTo m.valid m.src kind idx := inputMatches_iff ..

theorem matchesAmt_iff : m.matchesAmt kind idx = true ↔ BoundTo m.valid m.amt kind idx := inputMatches_iff ..

end

/-- Settles O49: a slot is hit when the machine's match holds, and a generator is resolved when it is the destination of
a slot that is hit (`affected_iff`). -/
theorem mupdUpdatesTheMatchingSlots : Obligations.MupdUpdatesTheMatchingSlots := by
  unfold Obligations.MupdUpdatesTheMatchingSlots
  intro kind width rs1 rs2 s
  obtain ⟨hregs, henvs, hlfos, hcontrol, hhost⟩ :=
    notifyCtl_frame s kind (low7 (s.reg rs1)) width (s.regInt rs2)
  refine ⟨encR_mupd 0x31 rs1 rs2 kind.code width.code ▸ isWordOf_encode (.mupd kind width rs1 rs2), _,
    exec_mupd kind width rs1 rs2 s, hregs, henvs, hlfos, hcontrol, hhost, ?_⟩
  rw [low7_eq_ofInt, ← State.regInt]
  intro idx hitS hitA hit
  have hhit (i : BitVec 6) : hit i ↔ i.toNat < s.params.nmod ∧ (s.slot i).matchesCtl kind idx = true :=
    and_congr_right fun _ => (matchesCtl_iff ..).symm
  have haff (g : BitVec 6) : (s.affected kind idx).getLsbD g.toNat = true ↔ ∃ i, hit i ∧ (s.slot i).dest = g := by
    rw [affected_iff]
    exact exists_congr fun i => by rw [hhit, and_assoc]
  refine ⟨fun i hi => ?others, fun i hi => ?matching, fun g => ⟨fun hg => ?affected, fun hg => ?untouched⟩⟩
  case others =>
    rw [slot_notifyCtl]
    split
    · next hlt => exact notify_of_not_matchesCtl (fun hm => hi ((hhit i).2 ⟨hlt, hm⟩)) width _
    · rfl
  case matching =>
    obtain ⟨hlt, hm⟩ := (hhit i).1 hi
    obtain ⟨hsrcv, hamtv, hcontrib⟩ := notify_values hm width (s.regInt rs2)
    rw [slot_notifyCtl, if_pos hlt]
    exact ⟨fun h => hsrcv.trans (if_pos (matchesSrc_iff.2 h)), fun h => hsrcv.trans (if_neg (mt matchesSrc_iff.1 h)),
      fun h => hamtv.trans (if_pos (matchesAmt_iff.2 h)), fun h => hamtv.trans (if_neg (mt matchesAmt_iff.1 h)),
      hcontrib, notify_descriptor ..⟩
  case affected =>
    rw [accAt_notifyCtl, dirtyAt_notifyCtl, (haff g).2 hg, if_pos rfl, Bool.or_true]
    exact ⟨rfl, rfl⟩
  case untouched =>
    rw [accAt_notifyCtl, dirtyAt_notifyCtl, Bool.eq_false_of_not_eq_true (mt (haff g).1 hg),
      if_neg Bool.false_ne_true, Bool.or_false]
    exact ⟨rfl, rfl⟩

end Sys2Proof.Machine

/-! PROOF. The utility commands (45_utility.md): what each writes, immediates and saturation as integers, and the voice state
that `VINIT` renews. -/

namespace Sys2Proof.Machine

/-! ### The commands as register writes (rules R210, R212 to R220) -/

theorem exec_nop (s : State) : exec .nop s = .next s := rfl

theorem exec_li (rd : Reg) (imm : BitVec 20) (s : State) : exec (.li rd imm) s = .next (s.setReg rd (immInt imm)) := rfl

theorem exec_lif (rd : Reg) (imm : BitVec 20) (s : State) : exec (.lif rd imm) s = .next (s.setReg rd (immFx imm)) := rfl

theorem exec_mov (rd rs1 : Reg) (s : State) : exec (.mov rd rs1) s = .next (s.setReg rd (s.reg rs1)) := rfl

theorem exec_fadd (rd rs1 rs2 : Reg) (s : State) :
    exec (.fadd rd rs1 rs2) s = .next (s.setReg rd (sat64 (fadd (s.regInt rs1) (s.regInt rs2)))) := rfl

theorem exec_fsub (rd rs1 rs2 : Reg) (s : State) :
    exec (.fsub rd rs1 rs2) s = .next (s.setReg rd (sat64 (fsub (s.regInt rs1) (s.regInt rs2)))) := rfl

theorem exec_fmul (rd rs1 rs2 : Reg) (s : State) :
    exec (.fmul rd rs1 rs2) s = .next (s.setReg rd (sat64 (fmul (s.regInt rs1) (s.regInt rs2)))) := rfl

theorem exec_i2f (rd rs1 : Reg) (s : State) :
    exec (.i2f rd rs1) s = .next (s.setReg rd (sat64 (fxOfInt (s.regInt rs1)))) := rfl

theorem exec_f2i (rd rs1 : Reg) (s : State) :
    exec (.f2i rd rs1) s = .next (s.setReg rd (sat64 (shr (s.regInt rs1) 32))) := rfl

theorem exec_vinit (s : State) : exec .vinit s = .next s.initVoice := rfl

/-! ### Immediates (30_encoding.md rule R73) -/

theorem immInt_eq_ofInt (imm : BitVec 20) : immInt imm = BitVec.ofInt 64 imm.toInt := rfl

/-- The shift of a sign-extended immediate is the product of the integers. -/
theorem immFx_eq_ofInt (imm : BitVec 20) : immFx imm = BitVec.ofInt 64 (imm.toInt * 16777216) := by
  unfold immFx
  rw [BitVec.shiftLeft_eq_mul_twoPow, BitVec.ofInt_mul]
  rfl

/-- Settles O56: the immediates are integers written as they are. -/
theorem nopLoadsAndMoves : Obligations.NopLoadsAndMoves := by
  unfold Obligations.NopLoadsAndMoves
  refine ⟨fun s => ⟨isWordOf_encode .nop, exec_nop s⟩, fun rd imm s => ⟨?li, ?lif⟩, fun rd rs1 s => ?mov⟩
  case li =>
    refine ⟨isWordOf_encode (.li rd imm), exists_next_writesReg ?_⟩
    rw [exec_li, immInt_eq_ofInt]
  case lif =>
    refine ⟨isWordOf_encode (.lif rd imm), exists_next_writesReg ?_⟩
    rw [exec_lif, immFx_eq_ofInt]
  case mov =>
    exact ⟨encR_rs1_zeros 0x42 rd rs1 ▸ isWordOf_encode (.mov rd rs1), exists_next_writesReg (exec_mov rd rs1 s)⟩

/-! ### FADD, FSUB and FMUL (00_scope.md rules R8, R9) -/

/-- Saturation as the three cases of rule R8. -/
theorem satInt_eq_ite (v : Int) : satInt v = if v < minFx then minFx else if maxFx < v then maxFx else v := by
  unfold satInt clamp
  split
  · next hlow => rw [max_eq_right hlow.le, min_eq_left (by decide)]
  · next hlow =>
    rw [max_eq_left (not_lt.1 hlow)]
    split
    · next hhigh => exact min_eq_right hhigh.le
    · next hhigh => exact min_eq_left (not_lt.1 hhigh)

/-- Settles O57: the operations saturate their exact result, and writing it does not saturate again. -/
theorem fxArithmeticSaturates : Obligations.FxArithmeticSaturates := by
  unfold Obligations.FxArithmeticSaturates
  intro rd rs1 rs2 s clip
  have hclip (v : Int) : sat64 (satInt v) = clip v := by
    rw [sat64_satInt, sat64, satInt_eq_ite]
  refine ⟨⟨encR_rs2_zeros 0x43 rd rs1 rs2 ▸ isWordOf_encode (.fadd rd rs1 rs2), exists_next_writesReg ?_⟩,
    ⟨encR_rs2_zeros 0x44 rd rs1 rs2 ▸ isWordOf_encode (.fsub rd rs1 rs2), exists_next_writesReg ?_⟩,
    encR_rs2_zeros 0x45 rd rs1 rs2 ▸ isWordOf_encode (.fmul rd rs1 rs2), exists_next_writesReg ?_⟩
  · rw [exec_fadd, fadd, hclip]
  · rw [exec_fsub, fsub, hclip]
  · rw [exec_fmul, fmul, shr_32, hclip]

/-! ### I2F and F2I (rules R218, R219) -/

/-- The FX value of an integer leaves 64 bits below -2^31 and from 2^31 on. -/
theorem satInt_fxOfInt (n : Int) :
    satInt (fxOfInt n) =
      if n < -2147483648 then minFx else if 2147483648 ≤ n then maxFx else n * 4294967296 := by
  have hlow : n * 4294967296 < minFx ↔ n < -2147483648 := by simp only [minFx]; omega
  have hhigh : maxFx < n * 4294967296 ↔ 2147483648 ≤ n := by simp only [maxFx]; omega
  rw [fxOfInt, shl_32, satInt_eq_ite, if_congr hlow rfl (if_congr hhigh rfl rfl)]

/-- A register's value divided by 2^32 is written as it is. -/
theorem sat64_shr_32 (v : Word) : sat64 (shr v.toInt 32) = BitVec.ofInt 64 (v.toInt / 4294967296) := by
  obtain ⟨hlow, hhigh⟩ := toInt_range v
  rw [shr_32]
  simp only [minFx, maxFx] at hlow hhigh
  exact sat64_of_range (by simp only [minFx]; omega) (by simp only [maxFx]; omega)

/-- Settles O58: only the shift up can leave 64 bits. -/
theorem integerConversions : Obligations.IntegerConversions := by
  unfold Obligations.IntegerConversions
  intro rd rs1 s
  refine ⟨⟨encR_rs1_zeros 0x46 rd rs1 ▸ isWordOf_encode (.i2f rd rs1), exists_next_writesReg ?_⟩,
    encR_rs1_zeros 0x47 rd rs1 ▸ isWordOf_encode (.f2i rd rs1), exists_next_writesReg ?_⟩
  · rw [exec_i2f, sat64, satInt_fxOfInt]
  · rw [exec_f2i, State.regInt, sat64_shr_32]

/-! ### VINIT (rule R220) -/

theorem env_initVoice (s : State) (u : EnvSel) : s.initVoice.env u = .reset := by
  cases u with
  | vol => exact initVoice_vol s
  | menv => exact initVoice_menv s

theorem lfo_initVoice (s : State) (u : LfoSel) : s.initVoice.lfo u = .reset := by
  cases u with
  | vib => exact initVoice_vib s
  | mlfo => exact initVoice_mlfo s

theorem slot_initVoice (s : State) (i : BitVec 6) : s.initVoice.slot i = .empty := by
  simp only [State.slot, initVoice_mods, Vector.getElem_replicate]

theorem accAt_initVoice (s : State) (g : BitVec 6) : s.initVoice.accAt g = 0 := by
  simp only [State.accAt, initVoice_acc, Vector.getElem_replicate]

/-- Renewing the voice leaves the registers, the control registers and the host's side. -/
theorem initVoice_frame (s : State) :
    SameRegs s s.initVoice ∧ SameControl s s.initVoice ∧ SameHost s s.initVoice :=
  ⟨reg_congr (initVoice_regs s), ⟨initVoice_ill s, initVoice_illw s, initVoice_cmdcnt s, initVoice_params s⟩,
    initVoice_rdata s, initVoice_bus s⟩

/-- Settles O59: what `VINIT` renews stands at its reset values, and the rest is its frame. -/
theorem vinitRenewsTheVoice : Obligations.VinitRenewsTheVoice := by
  unfold Obligations.VinitRenewsTheVoice
  intro s
  exact ⟨isWordOf_encode .vinit, s.initVoice, exec_vinit s,
    fun u => (env_initVoice s u).trans (reset_env u).symm, fun u => (lfo_initVoice s u).trans (reset_lfo u).symm,
    slot_initVoice s, accAt_initVoice s, initVoice_dirty s, initVoice_frame s⟩

end Sys2Proof.Machine

/-! PROOF. The ROM against its formulas (49_rom_tables.md rules R231 to R233). The words of a table are a base times the powers of
one root, `2^(1/1200)` or `10^(-1/200)`. That root is known once, to 128 binary places, by one comparison of its power; multiplying
the bracket of one word's root by it brackets the next word's, so that each word is compared with a bracket of a few hundred bits
and no word's own power is ever computed. -/

namespace Sys2Proof.Machine

/-- A fixed-point 1, with 128 binary places. -/
def rootScale : Nat := 2 ^ 128

theorem rootScale_pos : 0 < rootScale := by decide

/-- The ratio `(num / den)^(1 / degree)` between two words of a table, with its fixed-point floor. -/
structure RootRatio where
  degree : Nat
  num : Nat
  den : Nat
  floor : Nat
  degree_ne : degree ≠ 0
  den_pos : 0 < den
  floor_spec : floor ^ degree * den ≤ rootScale ^ degree * num ∧
    rootScale ^ degree * num ≤ (floor + 1) ^ degree * den

namespace RootRatio

/-- `x` is the integer nearest to half of `base × ratio^i`, said without roots. -/
def IsNearest (r : RootRatio) (base i x : Nat) : Prop :=
  (2 * x - 1) ^ r.degree * r.den ^ i < base ^ r.degree * r.num ^ i ∧
    base ^ r.degree * r.num ^ i < (2 * x + 1) ^ r.degree * r.den ^ i

/-- The fixed-point value of `base × ratio^i` lies from `lo` to `hi`. -/
structure Brackets (r : RootRatio) (base i lo hi : Nat) : Prop where
  lo_le : lo ^ r.degree * r.den ^ i ≤ (rootScale * base) ^ r.degree * r.num ^ i
  le_hi : (rootScale * base) ^ r.degree * r.num ^ i ≤ hi ^ r.degree * r.den ^ i

variable {r : RootRatio} {base i lo hi x : Nat}

theorem Brackets.zero (r : RootRatio) (base : Nat) : r.Brackets base 0 (rootScale * base) (rootScale * base) :=
  ⟨by rw [pow_zero, pow_zero], by rw [pow_zero, pow_zero]⟩

/-- Scaling the lower bound down by the ratio's floor, rounded down, keeps it a lower bound. -/
theorem Brackets.succ_lo (h : r.Brackets base i lo hi) :
    (lo * r.floor / rootScale) ^ r.degree * r.den ^ (i + 1) ≤ (rootScale * base) ^ r.degree * r.num ^ (i + 1) := by
  refine Nat.le_of_mul_le_mul_right ?_ (pow_pos rootScale_pos r.degree)
  calc (lo * r.floor / rootScale) ^ r.degree * r.den ^ (i + 1) * rootScale ^ r.degree
      = (lo * r.floor / rootScale * rootScale) ^ r.degree * r.den ^ (i + 1) := by rw [mul_pow]; ring
    _ ≤ (lo * r.floor) ^ r.degree * r.den ^ (i + 1) := by gcongr ?_ ^ _ * _; exact Nat.div_mul_le_self _ _
    _ = lo ^ r.degree * r.den ^ i * (r.floor ^ r.degree * r.den) := by ring
    _ ≤ (rootScale * base) ^ r.degree * r.num ^ i * (rootScale ^ r.degree * r.num) :=
        Nat.mul_le_mul h.lo_le r.floor_spec.1
    _ = (rootScale * base) ^ r.degree * r.num ^ (i + 1) * rootScale ^ r.degree := by ring

/-- Scaling the upper bound by more than the ratio, rounded up, keeps it an upper bound. -/
theorem Brackets.succ_hi (h : r.Brackets base i lo hi) :
    (rootScale * base) ^ r.degree * r.num ^ (i + 1) ≤
      (hi * (r.floor + 1) / rootScale + 1) ^ r.degree * r.den ^ (i + 1) := by
  have hround : hi * (r.floor + 1) ≤ (hi * (r.floor + 1) / rootScale + 1) * rootScale :=
    (Nat.lt_mul_of_div_lt (Nat.lt_succ_self _) rootScale_pos).le
  refine Nat.le_of_mul_le_mul_right ?_ (pow_pos rootScale_pos r.degree)
  calc (rootScale * base) ^ r.degree * r.num ^ (i + 1) * rootScale ^ r.degree
      = (rootScale * base) ^ r.degree * r.num ^ i * (rootScale ^ r.degree * r.num) := by ring
    _ ≤ hi ^ r.degree * r.den ^ i * ((r.floor + 1) ^ r.degree * r.den) := Nat.mul_le_mul h.le_hi r.floor_spec.2
    _ = (hi * (r.floor + 1)) ^ r.degree * r.den ^ (i + 1) := by rw [mul_pow]; ring
    _ ≤ ((hi * (r.floor + 1) / rootScale + 1) * rootScale) ^ r.degree * r.den ^ (i + 1) := by gcongr
    _ = (hi * (r.floor + 1) / rootScale + 1) ^ r.degree * r.den ^ (i + 1) * rootScale ^ r.degree := by
        rw [mul_pow]; ring

theorem Brackets.succ (h : r.Brackets base i lo hi) :
    r.Brackets base (i + 1) (lo * r.floor / rootScale) (hi * (r.floor + 1) / rootScale + 1) :=
  ⟨h.succ_lo, h.succ_hi⟩

/-- A bracket strictly inside the half units around `x` makes `x` the nearest integer. -/
theorem Brackets.isNearest (h : r.Brackets base i lo hi) (hlo : rootScale * (2 * x - 1) < lo)
    (hhi : hi < rootScale * (2 * x + 1)) : r.IsNearest base i x := by
  have hpow {a b : Nat} (hab : a < b) : a ^ r.degree * r.den ^ i < b ^ r.degree * r.den ^ i :=
    Nat.mul_lt_mul_of_pos_right (Nat.pow_lt_pow_left hab r.degree_ne) (pow_pos r.den_pos i)
  have hbelow := (hpow hlo).trans_le h.lo_le
  have habove := h.le_hi.trans_lt (hpow hhi)
  rw [mul_pow, mul_pow, mul_assoc, mul_assoc] at hbelow habove
  exact ⟨Nat.lt_of_mul_lt_mul_left hbelow, Nat.lt_of_mul_lt_mul_left habove⟩

/-- Every word is checked against the running bracket, which starts from `lo` and `hi`. -/
def checkWords (r : RootRatio) : Nat → Nat → List Nat → Bool
  | _, _, [] => true
  | lo, hi, x :: xs =>
    Nat.blt (rootScale * (2 * x - 1)) lo && Nat.blt hi (rootScale * (2 * x + 1)) &&
      r.checkWords (lo * r.floor / rootScale) (hi * (r.floor + 1) / rootScale + 1) xs

theorem isNearest_of_checkWords {words : List Nat} (h : r.Brackets base i lo hi)
    (hcheck : r.checkWords lo hi words = true) : ∀ p ∈ words.zipIdx i, r.IsNearest base p.2 p.1 := by
  induction words generalizing i lo hi with
  | nil => exact fun p hp => absurd hp List.not_mem_nil
  | cons x xs ih =>
    rw [checkWords, Bool.and_eq_true, Bool.and_eq_true, Nat.blt_eq, Nat.blt_eq] at hcheck
    obtain ⟨⟨hlo, hhi⟩, hrest⟩ := hcheck
    rw [List.zipIdx_cons, List.forall_mem_cons]
    exact ⟨h.isNearest hlo hhi, ih h.succ hrest⟩

/-- One cent up, `2^(1/1200)` (rules R232, R233). -/
def cent : RootRatio where
  degree := 1200
  num := 2
  den := 1
  floor := 0x10025DDB308DD30C0DC4C6E3BEB94E7A5
  degree_ne := by decide
  den_pos := by decide
  floor_spec := by decide +kernel

/-- One centibel down, `10^(-1/200)` (rule R231). -/
def centibel : RootRatio where
  degree := 200
  num := 1
  den := 10
  floor := 0xFD11D0CBE940C6BE2BC8266B558CB6F4
  degree_ne := by decide
  den_pos := by decide
  floor_spec := by decide +kernel

theorem isNearest_cent_iff : cent.IsNearest base i x ↔
    (2 * x - 1) ^ 1200 < base ^ 1200 * 2 ^ i ∧ base ^ 1200 * 2 ^ i < (2 * x + 1) ^ 1200 := by
  simp only [IsNearest, cent, one_pow, mul_one]

theorem isNearest_centibel_iff : centibel.IsNearest base i x ↔
    (2 * x - 1) ^ 200 * 10 ^ i < base ^ 200 ∧ base ^ 200 < (2 * x + 1) ^ 200 * 10 ^ i := by
  simp only [IsNearest, centibel, one_pow, mul_one]

end RootRatio

/-- The closed computation on the fixed words, in one evaluation: the lengths not known yet, and each table's run of its bracket. -/
theorem romTables_check :
    tK.length = 1200 ∧ tE.length = 1200 ∧
      RootRatio.centibel.checkWords (rootScale * 2 ^ 33) (rootScale * 2 ^ 33) tCb = true ∧
      RootRatio.cent.checkWords (rootScale * (55 * 2 ^ 30)) (rootScale * (55 * 2 ^ 30)) tK = true ∧
      RootRatio.cent.checkWords (rootScale * 2 ^ 63) (rootScale * 2 ^ 63) tE = true := by
  decide +kernel

/-- Settles O32: twice the root is `2^33 × 10^(-i/200)` (rule R231), `13.75 × 2^32 × 2^(i/1200)`, where `13.75 × 2^32` is
`55 × 2^30` (rule R232), and `2^63 × 2^(r/1200)` (rule R233); each table's run of its bracket makes its words the nearest. -/
theorem romWordsAreNearestToTheirFormulas : Obligations.RomWordsAreNearestToTheirFormulas := by
  unfold Obligations.RomWordsAreNearestToTheirFormulas
  obtain ⟨hlenK, hlenE, hcb, hk, he⟩ := romTables_check
  exact ⟨tCb_length, hlenK, hlenE,
    fun p hp => RootRatio.isNearest_centibel_iff.1 (RootRatio.isNearest_of_checkWords (.zero _ _) hcb p hp),
    fun p hp => RootRatio.isNearest_cent_iff.1 (RootRatio.isNearest_of_checkWords (.zero _ _) hk p hp),
    fun p hp => RootRatio.isNearest_cent_iff.1 (RootRatio.isNearest_of_checkWords (.zero _ _) he p hp)⟩

end Sys2Proof.Machine

/-! PROOF. The exception and the idle machine (60_exceptions.md): a refused word raises IllegalCommand and is counted, and with
nothing issued PSC keeps all state. -/

namespace Sys2Proof.Machine

/-- Issuing a word that `decode` refuses raises IllegalCommand with it and counts it (30_encoding.md rule R80). -/
theorem issue_of_decode_error {w : Cmd} {s : State} {c : IllegalCause} (h : decode s.params.nmod w = .error c) :
    issue w s = .next (s.raiseIllegal w).countCmd := by
  unfold issue
  rw [h]
  rfl

/-- The frame of a refused command (rule R241): the voice is as it was. -/
theorem same_voice_of_refused (s : State) (w : Cmd) (rest : List HostEvent) :
    SameRegs s ((s.withBus rest).raiseIllegal w).countCmd ∧ SameEnvs s ((s.withBus rest).raiseIllegal w).countCmd ∧
      SameLfos s ((s.withBus rest).raiseIllegal w).countCmd ∧ SameSlots s ((s.withBus rest).raiseIllegal w).countCmd ∧
      SameSums s ((s.withBus rest).raiseIllegal w).countCmd :=
  ⟨fun _ => rfl, sameEnvs_of_fields rfl rfl, sameLfos_of_fields rfl rfl, fun _ => rfl, fun _ => rfl, rfl⟩

/-- Settles O7: the step issues the refused word in the state with the event taken. -/
theorem illegalCommandEffect : Obligations.IllegalCommandEffect := by
  unfold Obligations.IllegalCommandEffect
  intro s data rest c hb hd
  have hstep : step s = .next ((s.withBus rest).raiseIllegal (data.extractLsb' 0 32)).countCmd := by
    rw [step_of_bus hb, serve_cmd_write]
    exact issue_of_decode_error (s := s.withBus rest) hd
  obtain ⟨hregs, henvs, hlfos, hslots, hsums⟩ := same_voice_of_refused s (data.extractLsb' 0 32) rest
  exact ⟨_, hstep, rfl, rfl, rfl, hregs, henvs, hlfos, hslots, hsums, rfl, rfl, rfl⟩

/-- With nothing issued there is no event to serve (rule R250; log 1). -/
theorem step_of_idle {s : State} (hb : s.bus = []) : step s = .next s := by
  rw [step, stepOnce, hb]

/-- Settles O11. -/
theorem idleKeepsAllState : Obligations.IdleKeepsAllState := by
  unfold Obligations.IdleKeepsAllState
  intro s hb
  exact step_of_idle hb

end Sys2Proof.Machine
